-- ==== Sys2Proof/Word.lean ====
section
/-! DEFINITION. The values the core moves: bytes, 16-bit fields, `FMT` bit patterns and Points. -/

namespace Sys2Proof

/-- `u8` of 00_scope.md (Notation). -/
abbrev Byte := BitVec 8

/-- `u16` of 00_scope.md (Notation). -/
abbrev U16 := BitVec 16

/-- The bit pattern of a value of `FMT` at the READ port (30_encoding.md R101): 64 bits for binary64.
A binary32 pattern stands in the low 32 bits. -/
abbrev AngleBits := BitVec 64

/-- A Point (10_state.md R28): angle in radians as its `FMT` bit pattern, distance in millimetres, intensity. -/
structure Point where
  angle     : AngleBits
  distance  : U16
  intensity : Byte
deriving DecidableEq, Repr

end Sys2Proof
end

