-- ==== Sys2Proof/Config.lean ====
section
/-! DEFINITION. What is fixed for the machine: the constants of R4, the configuration (R5, R195), the free values the
spec leaves open, and what a never-written buffer entry reads as. -/

namespace Sys2Proof

/-- The floating-point format parameter `FMT` (00_scope.md R5, 42_angle_interpolation.md R180, R195; D7). -/
inductive Fmt where
  | binary64
  | binary32
deriving DecidableEq, Repr

/-- The configuration record R5 and R195 ask for, a parameter of the step relation (`Machine.stepOn`). Its instances by
rules R183 to R186 are `Config.ofFmt` (Machine/Angle.lean). -/
structure Config where
  /-- The format of every floating-point value in the core (R180). -/
  fmt   : Fmt
  /-- `ANGLE(A0, A1, i)` (R195), as its bit pattern. -/
  angle : U16 → U16 → Nat → AngleBits

/-- One answer of the Byte Source to one request (20_memory.md R61). -/
inductive Machine.SrcAnswer where
  /-- It does not answer in this step. -/
  | noAnswer
  /-- `Byte(b)`. -/
  | byte (b : Byte)
  /-- `Fail`. -/
  | fail
deriving DecidableEq, Repr, Inhabited

namespace Config

/-- `SYNC` (R4). -/
def syncByte : Byte := 0x54#8
/-- `LEN_CONST` (R4). -/
def lenConst : Byte := 44#8
/-- `BODY_BYTES` (R4). -/
def bodyBytes : Nat := 46
/-- `UNIT_BYTES` (R4). -/
def unitBytes : Nat := 47
/-- `PTS_PER_PKT` (R4). -/
def ptsPerPkt : Nat := 12
/-- `PKTS_PER_SCAN` (R4). -/
def pktsPerScan : Nat := 38
/-- `CAP` (R4). -/
def cap : Nat := 456
/-- `OFF_LEN` (R4). -/
def offLen : Nat := 0
/-- `OFF_A0` (R4). -/
def offA0 : Nat := 3
/-- `OFF_SAMPLES` (R4). -/
def offSamples : Nat := 5
/-- `SAMPLE_BYTES` (R4). -/
def sampleBytes : Nat := 3
/-- `OFF_A1` (R4). -/
def offA1 : Nat := 41

/-- What an offset of BODY that nothing has written reads as. R36 leaves it unspecified. DESIGN CHOICE, unsafe (log 3). -/
def blankByte : Byte := 0#8

/-- What an index of SCAN that nothing has written reads as. R36 leaves it unspecified. DESIGN CHOICE, unsafe (log 3). -/
abbrev blankPoint : Point := { angle := 0#64, distance := 0#16, intensity := 0#8 }

end Config

/-- The answer is an event, `Byte(b)` or `Fail`: what ends a wait. -/
def Machine.SrcAnswer.isEvent : Machine.SrcAnswer → Bool
  | .noAnswer => false
  | .byte _ => true
  | .fail => true

/-- The answer is `Byte(0x54)` or `Fail`: what ends FINDSYNC (40_frame_sync.md R130). -/
def Machine.SrcAnswer.isMark : Machine.SrcAnswer → Bool
  | .noAnswer => false
  | .byte b => b == Config.syncByte
  | .fail => true

/-- An infinite sequence of answers, with the distances that decide whether FINDSYNC and DECODEPACKET return on it. Every
sequence has such distances (`Machine.every_sequence_is_a_freeSource`), so nothing constrains `answer` (log 1). -/
structure Machine.FreeSource where
  /-- The sequence. -/
  answer : Nat → Machine.SrcAnswer := fun _ => .noAnswer
  /-- How many answers from the `n`-th on tell all that is asked of them. -/
  reach  : Nat → Nat := fun _ => 0
  /-- If `Byte(0x54)` or `Fail` comes at all, it comes within reach. -/
  mark   : ∀ n k, (answer (n + k)).isMark = true → ∃ j, j < reach n ∧ (answer (n + j)).isMark = true := by
    intros; contradiction
  /-- If an event comes beyond reach, there are 46 within. -/
  events : ∀ n k, reach n ≤ k → (answer (n + k)).isEvent = true →
      46 ≤ (List.range (reach n)).countP fun j => (answer (n + j)).isEvent := by
    intros; contradiction
deriving Inhabited

namespace Config

/-- Free value: a body byte the spec leaves unspecified (R270, U2; log 4). No body: nothing constrains it. -/
opaque freeByte : Nat → BitVec 8

/-- Free value: an unspecified `rd_angle` or stored angle (R217, R270, U1, U2; logs 4, 5). -/
opaque freeAngle : Nat → BitVec 64

/-- Free value: an unspecified `rd_distance` or stored distance (R217, R270, U1, U2; logs 4, 5). -/
opaque freeDistance : Nat → BitVec 16

/-- Free value: an unspecified `rd_intensity` or stored intensity (R217, R270, U1, U2; logs 4, 5). -/
opaque freeIntensity : Nat → BitVec 8

/-- Free value: an arbitrary, infinite sequence of answers of the Byte Source (the parameter SRC of D12, U4; log 1). -/
opaque freeSource : Machine.FreeSource

/-- The `n`-th answer of the free source. -/
abbrev freeAnswer (n : Nat) : Machine.SrcAnswer := freeSource.answer n

/-- A Point each of whose three outputs is a free value ("the three outputs are arbitrary values of their types", U1). -/
abbrev freePoint (n : Nat) : Point :=
  { angle := freeAngle n, distance := freeDistance n, intensity := freeIntensity n }

end Config

end Sys2Proof
end

