-- ==== Sys2Proof/Syntax.lean ====
section
/-! DEFINITION. The operations of spec/opcode_table.json, one constructor per row. -/

namespace Sys2Proof

/-- Operands of one sample block (30_encoding.md R92): distance in millimetres and intensity. -/
structure Sample where
  distance  : U16
  intensity : Byte
deriving DecidableEq, Repr

/-- Operands of one 47-byte unit whose sync and length bytes are `0x54` and 44 (30_encoding.md R90, R91): the
fields of the body by their names there. `tail0` to `tail2` are body offsets 43 to 45. -/
structure PacketFields where
  speed   : U16
  a0      : U16
  samples : List Sample
  a1      : U16
  tail0   : Byte
  tail1   : Byte
  tail2   : Byte
deriving DecidableEq, Repr

/-- One constructor per row of the opcode table, in the table's order. -/
inductive Instr where
  /-- WAIT (R133): no source event in this step. -/
  | wait
  /-- ABORT (R134): the source event `Fail`. -/
  | abort
  /-- SYNC (R132): `Byte(0x54)` in HUNT. -/
  | sync
  /-- DISCARD (R131): `Byte(b)`, b ≠ `0x54`, in HUNT. -/
  | discard (b : Byte)
  /-- LOAD (R151): `Byte(b)` in BODY before the last body byte. -/
  | load (b : Byte)
  /-- COMMIT (R213): `Byte(b)`, the last byte of a body whose length byte is 44. -/
  | commit (b : Byte)
  /-- REJECT (R154): `Byte(b)`, the last byte of a body whose length byte is not 44. -/
  | reject (b : Byte)
  /-- START (R211, R212): the host command. -/
  | start
  /-- READ (R217): the consumer access with `rd_idx[8:0]`. -/
  | read (idx : BitVec 9)
  /-- RESET (R270): the reset input. -/
  | reset
  /-- FINDSYNC (R130): the source's `findSync`, a macro-operation (R102). -/
  | findsync
  /-- DECODEPACKET (R150): the source's `decodePacket`, a macro-operation (R102). -/
  | decodepacket
  /-- ASSEMBLESCAN (R210): the source's `assembleScan`, a macro-operation (R102). -/
  | assemblescan
  /-- PACKET (R90, R91): a whole unit on the wire. -/
  | packet (p : PacketFields)
  /-- SAMPLE (R92): a sample block on the wire. -/
  | sample (x : Sample)
deriving DecidableEq, Repr

end Sys2Proof
end

