-- ==== Sys2Proof/WellFormed.lean ====
section
/-! DEFINITION. Which terms of `Instr` stand for an operation of the table. -/

namespace Sys2Proof

/-- A PACKET has exactly twelve sample blocks (30_encoding.md R91; `PTS_PER_PKT` of R4). -/
def PacketFields.wellFormed (p : PacketFields) : Bool := p.samples.length == Config.ptsPerPkt

/-- DISCARD's operand is any byte but the sync marker (40_frame_sync.md R131); a PACKET has twelve samples;
every other operand may take every value of its type. -/
def Instr.wellFormed : Instr → Bool
  | .wait => true
  | .abort => true
  | .sync => true
  | .discard b => b != Config.syncByte
  | .load _ => true
  | .commit _ => true
  | .reject _ => true
  | .start => true
  | .read _ => true
  | .reset => true
  | .findsync => true
  | .decodepacket => true
  | .assemblescan => true
  | .packet p => p.wellFormed
  | .sample _ => true

end Sys2Proof
end

