-- ==== Sys2Proof/Decode.lean ====
section
/-! DEFINITION. From the words at the core's inputs to `Instr`, and back. The formats are those of
spec/opcode_table.json: DISPATCH14 (R97), CMD1 (R98), RDPORT9 (R99), RESETIN1 (R270), MACRO (R102), DATA47 (R91),
DATA3 (R92). -/

namespace Sys2Proof

/-! ### Byte order (20_memory.md R62, R63) -/

/-- The byte of a two-byte field that arrives first. -/
def lo (v : U16) : Byte := v.extractLsb' 0 8

/-- The byte of a two-byte field that arrives second. -/
def hi (v : U16) : Byte := v.extractLsb' 8 8

/-- `LE16(lo, hi)` (R63): `result[7:0] = lo`, `result[15:8] = hi`. -/
def le16 (l h : Byte) : U16 := h ++ l

/-! ### The words -/

/-- One element of a MACRO row's encoding: a micro-operation's dispatch word or the START command word. -/
inductive OpWord where
  | dispatch (dw : BitVec 14)
  | command (cmd : BitVec 1)
deriving DecidableEq, Repr

/-- What an operation's encoding is, by the table's "format". -/
inductive Word where
  /-- DISPATCH14: the dispatch word of R97. -/
  | dispatch14 (dw : BitVec 14)
  /-- CMD1: the command word of R98. -/
  | cmd1 (cmd : BitVec 1)
  /-- RDPORT9: `rd_idx[8:0]` of R99. -/
  | rdport9 (idx : BitVec 9)
  /-- RESETIN1: the reset input (R270). -/
  | resetin1 (r : BitVec 1)
  /-- MACRO: a sequence of micro-operations (R102). -/
  | ops (ws : List OpWord)
  /-- DATA47: a unit, in arrival order (R91). -/
  | data47 (bytes : List Byte)
  /-- DATA3: a sample block, in arrival order (R92). -/
  | data3 (bytes : List Byte)
deriving DecidableEq, Repr

/-- Why a word is no operation. -/
inductive DecodeError where
  /-- `ev` = 3 (R97: cannot arise). -/
  | eventReserved
  /-- `phase` = 3 with a byte event (R97: cannot arise). -/
  | phaseReserved
  /-- `phase` = IDLE with a byte event (R97: cannot arise). -/
  | byteWhileIdle
  /-- `CMD[0]` = 0: no command (R98). -/
  | noCommand
  /-- The reset input is not asserted (R270). -/
  | resetNotAsserted
  /-- Not 47 bytes (R90). -/
  | unitLength (n : Nat)
  /-- The unit's first byte is not `0x54` (R90). -/
  | missingSync (b : Byte)
  /-- Body byte 0 is not 44 (R94). -/
  | badLengthByte (b : Byte)
  /-- Not 3 bytes (R92). -/
  | sampleLength (n : Nat)
  /-- The sequence is the expansion of no macro-operation (R102). -/
  | unknownExpansion
deriving DecidableEq, Repr

/-! ### The dispatch word (30_encoding.md R97) -/

/-- A row of R97's table: the first row whose `(DW & mask) = pattern` holds is taken; `make` takes `DW[7:0]`. -/
structure DispatchRow where
  pattern : BitVec 14
  mask    : BitVec 14
  make    : Byte → Instr

/-- R97's table, in its order. -/
def dispatchRows : List DispatchRow :=
  [ ⟨0x0000, 0x0C00, fun _ => .wait⟩,
    ⟨0x0800, 0x0C00, fun _ => .abort⟩,
    ⟨0x1454, 0x3CFF, fun _ => .sync⟩,
    ⟨0x1400, 0x3C00, fun b => .discard b⟩,
    ⟨0x2400, 0x3E00, fun b => .load b⟩,
    ⟨0x2700, 0x3F00, fun b => .commit b⟩,
    ⟨0x2600, 0x3F00, fun b => .reject b⟩ ]

/-- `(DW & mask) = match` of R97. -/
def DispatchRow.takes (r : DispatchRow) (dw : BitVec 14) : Bool := dw &&& r.mask == r.pattern

/-- `phase` = `DW[13:12]`. -/
def dwPhase (dw : BitVec 14) : BitVec 2 := dw.extractLsb' 12 2
/-- `ev` = `DW[11:10]`. -/
def dwEvent (dw : BitVec 14) : BitVec 2 := dw.extractLsb' 10 2
/-- `last` = `DW[9]`. -/
def dwLast (dw : BitVec 14) : Bool := dw.extractLsb' 9 1 == 1
/-- `lenok` = `DW[8]`. -/
def dwLenOk (dw : BitVec 14) : Bool := dw.extractLsb' 8 1 == 1
/-- `byte` = `DW[7:0]`. -/
def dwByte (dw : BitVec 14) : Byte := dw.extractLsb' 0 8

/-- The name of the reason no row takes a dispatch word (R97's last paragraph). -/
def dispatchError (dw : BitVec 14) : DecodeError :=
  if dwEvent dw = 3#2 then .eventReserved
  else if dwPhase dw = 3#2 then .phaseReserved
  else .byteWhileIdle

/-- R97: the first row that takes the word. Words that cannot arise and that a row takes all the same decode by that
row (log 10). -/
def decodeDispatch (dw : BitVec 14) : Except DecodeError Instr :=
  match dispatchRows.find? (fun r => r.takes dw) with
  | some r => .ok (r.make (dwByte dw))
  | none => .error (dispatchError dw)

/-! ### Macro-operations as sequences (30_encoding.md R102) -/

/-- The phase bits and the operation of one element of a sequence; `none` if it is no operation. -/
def OpWord.decode : OpWord → Option (BitVec 2 × Instr)
  | .dispatch dw =>
    match decodeDispatch dw with
    | .ok i => some (dwPhase dw, i)
    | .error _ => none
  | .command cmd => if cmd = 1#1 then some (0, .start) else none

/-- FINDSYNC (R102): (WAIT | DISCARD)* then SYNC (`true`) or ABORT (`false`), all in HUNT; and what follows it. -/
def takeFindSync : List OpWord → Option (Bool × List OpWord)
  | [] => none
  | w :: ws =>
    match w.decode with
    | some (p, i) =>
      if p = 1#2 then
        match i with
        | .wait => takeFindSync ws
        | .discard _ => takeFindSync ws
        | .sync => some (true, ws)
        | .abort => some (false, ws)
        | _ => none
      else none
    | none => none

/-- How a DECODEPACKET ends. -/
inductive PacketEnd where
  | committed
  | rejected
  | aborted
deriving DecidableEq, Repr

/-- DECODEPACKET (R102), `n` LOADs already taken: (WAIT | LOAD)* with 45 LOADs in all, then WAIT* and COMMIT or REJECT;
or ABORT after at most 45 LOADs; all in BODY; and what follows it. -/
def takePacket : Nat → List OpWord → Option (PacketEnd × List OpWord)
  | _, [] => none
  | n, w :: ws =>
    match w.decode with
    | some (p, i) =>
      if p = 2#2 then
        match i with
        | .wait => takePacket n ws
        | .load _ => if n < 45 then takePacket (n + 1) ws else none
        | .commit _ => if n = 45 then some (.committed, ws) else none
        | .reject _ => if n = 45 then some (.rejected, ws) else none
        | .abort => some (.aborted, ws)
        | _ => none
      else none
    | none => none

/-- (FINDSYNC DECODEPACKET) repeated `n` times at most, ended by the `n`-th COMMIT or the first ABORT or REJECT (R102). -/
def takeScan : Nat → List OpWord → Bool
  | 0, ws => ws.isEmpty
  | n + 1, ws =>
    match takeFindSync ws with
    | some (true, rest) =>
      match takePacket 0 rest with
      | some (.committed, r) => takeScan n r
      | some (_, r) => r.isEmpty
      | none => false
    | some (false, rest) => rest.isEmpty
    | none => false

/-- The macro-operation a sequence is an expansion of (R102). -/
def decodeOps (ws : List OpWord) : Except DecodeError Instr :=
  match takeFindSync ws with
  | some (_, []) => .ok .findsync
  | _ =>
    match takePacket 0 ws with
    | some (_, []) => .ok .decodepacket
    | _ =>
      match ws with
      | .command cmd :: rest =>
        if cmd = 1#1 ∧ takeScan Config.pktsPerScan rest = true then .ok .assemblescan else .error .unknownExpansion
      | _ => .error .unknownExpansion

/-! ### Wire formats (30_encoding.md R91, R92) -/

/-- The sample block whose first byte is `get s` (R92). -/
def sampleAt (get : Nat → Byte) (s : Nat) : Sample :=
  { distance := le16 (get s) (get (s + 1)), intensity := get (s + 2) }

/-- The fields of a unit whose bytes are `get 0` to `get 46` in arrival order (R91, column "stream offset in unit"). -/
def packetFields (get : Nat → Byte) : PacketFields :=
  { speed := le16 (get 2) (get 3)
    a0 := le16 (get 4) (get 5)
    samples := (List.range Config.ptsPerPkt).map fun i => sampleAt get (6 + 3 * i)
    a1 := le16 (get 42) (get 43)
    tail0 := get 44
    tail1 := get 45
    tail2 := get 46 }

/-- A unit: 47 bytes, the sync marker, the length byte 44, the fields (R90, R91, R94). -/
def decodeUnit (bytes : List Byte) : Except DecodeError Instr :=
  if bytes.length ≠ Config.unitBytes then .error (.unitLength bytes.length)
  else if bytes.getD 0 0 ≠ Config.syncByte then .error (.missingSync (bytes.getD 0 0))
  else if bytes.getD 1 0 ≠ Config.lenConst then .error (.badLengthByte (bytes.getD 1 0))
  else .ok (.packet (packetFields fun k => bytes.getD k 0))

/-- A sample block: three bytes (R92). -/
def decodeSample (bytes : List Byte) : Except DecodeError Instr :=
  if bytes.length ≠ Config.sampleBytes then .error (.sampleLength bytes.length)
  else .ok (.sample (sampleAt (fun k => bytes.getD k 0) 0))

/-- The decoder: total, a word that is no operation is rejected by name. -/
def decode : Word → Except DecodeError Instr
  | .dispatch14 dw => decodeDispatch dw
  | .cmd1 cmd => if cmd = 1#1 then .ok .start else .error .noCommand
  | .rdport9 idx => .ok (.read idx)
  | .resetin1 r => if r = 1#1 then .ok .reset else .error .resetNotAsserted
  | .ops ws => decodeOps ws
  | .data47 bytes => decodeUnit bytes
  | .data3 bytes => decodeSample bytes

/-! ### The encoder -/

/-- The three bytes of a sample block in arrival order (R92). -/
def Sample.bytes (x : Sample) : List Byte := [lo x.distance, hi x.distance, x.intensity]

/-- The 46 body bytes with length byte `len`, in arrival order (R91). -/
def PacketFields.bodyWith (p : PacketFields) (len : Byte) : List Byte :=
  [len, lo p.speed, hi p.speed, lo p.a0, hi p.a0] ++ p.samples.flatMap Sample.bytes ++
    [lo p.a1, hi p.a1, p.tail0, p.tail1, p.tail2]

/-- The 47 bytes of a unit in arrival order (R90, R91). -/
def PacketFields.bytes (p : PacketFields) : List Byte := Config.syncByte :: p.bodyWith Config.lenConst

/-- The dispatch word of a row's match with `DW[7:0]` = b (R97). -/
def dispatchWith (pattern : BitVec 14) (b : Byte) : BitVec 14 := pattern ||| b.setWidth 14

/-- SYNC's match as an element of a sequence. -/
def syncOp : OpWord := .dispatch 0x1454
/-- LOAD's match as an element of a sequence. -/
def loadOp : OpWord := .dispatch 0x2400
/-- COMMIT's match as an element of a sequence. -/
def commitOp : OpWord := .dispatch 0x2700

/-- The shortest DECODEPACKET that commits (R102). -/
def packetOps : List OpWord := List.replicate 45 loadOp ++ [commitOp]

/-- The words of an operation. A micro-operation's word is its row's match with its operand and zeros in the bits the
row's mask leaves free; a macro-operation's is its shortest successful expansion (log 18). -/
def encode : Instr → Word
  | .wait => .dispatch14 0x0000
  | .abort => .dispatch14 0x0800
  | .sync => .dispatch14 0x1454
  | .discard b => .dispatch14 (dispatchWith 0x1400 b)
  | .load b => .dispatch14 (dispatchWith 0x2400 b)
  | .commit b => .dispatch14 (dispatchWith 0x2700 b)
  | .reject b => .dispatch14 (dispatchWith 0x2600 b)
  | .start => .cmd1 1
  | .read idx => .rdport9 idx
  | .reset => .resetin1 1
  | .findsync => .ops [syncOp]
  | .decodepacket => .ops packetOps
  | .assemblescan => .ops (.command 1 :: (List.replicate Config.pktsPerScan (syncOp :: packetOps)).flatten)
  | .packet p => .data47 p.bytes
  | .sample x => .data3 x.bytes

/-! ### The table's own numbering of bits -/

/-- The word that `nbits` bits of the table stand for. 8 bits: the command word (the RESET row has the same bits, log 12).
16 bits below 2^14: a dispatch word. 16 bits at or above 2^14: the first two bytes of a unit, the first in the high
position as the PACKET row's note says, the other 45 bytes zero. 24 bits: a sample block, the first byte lowest. -/
def tableWord (nbits w : Nat) : Option Word :=
  if nbits ≤ 8 then if w < 2 then some (.cmd1 (BitVec.ofNat 1 w)) else none
  else if nbits ≤ 16 then
    if w < 16384 then some (.dispatch14 (BitVec.ofNat 14 w))
    else if w < 65536 then
      some (.data47 ([BitVec.ofNat 8 (w / 256), BitVec.ofNat 8 w] ++ List.replicate 45 0))
    else none
  else if nbits = 24 then
    some (.data3 [BitVec.ofNat 8 w, BitVec.ofNat 8 (w / 256), BitVec.ofNat 8 (w / 65536)])
  else none

/-- What the decoder reads from a row's bits; `none` where it refuses. -/
def decodeTableWord (nbits w : Nat) : Option Instr :=
  match tableWord nbits w with
  | some word =>
    match decode word with
    | .ok i => some i
    | .error _ => none
  | none => none

end Sys2Proof
end

