-- ==== Sys2Proof/Machine/State.lean ====
section
/-! DEFINITION. The state of the machine, its reset value, and the reasons a step can stop. -/

namespace Sys2Proof.Machine

/-- `PHASE` (10_state.md R21). The code 3 is never produced and not representable (R100). -/
inductive Phase where
  | idle
  | hunt
  | body
deriving DecidableEq, Repr

/-- `ERR` (10_state.md R25). The code 3 is never produced and not representable (R100). -/
inductive Err where
  /-- NONE: no assembly has failed since the last START or reset. -/
  | noError
  /-- IO_ERROR: the Byte Source answered `Fail`. -/
  | ioError
  /-- INVALID_LENGTH: a body's byte 0 was not 44. -/
  | invalidLength
deriving DecidableEq, Repr

/-- What the Byte Source does once its listed answers have run out: a sequence without end, as plain data (D12: an
arbitrary, possibly infinite, sequence; log 1). -/
inductive SrcLater where
  /-- It never answers again (R138 (a)). -/
  | silent
  /-- It answers `a` and then `as`, over and over. -/
  | again (a : SrcAnswer) (as : List SrcAnswer)
  /-- It answers as an arbitrary sequence does from its `n`-th answer on (`Config.freeAnswer`). -/
  | free (n : Nat)
deriving DecidableEq, Repr

/-- What the host or consumer asks for in one step besides reset (30_encoding.md R98, R99). -/
inductive HostReq where
  | quiet
  /-- The command word 1 (R98). -/
  | start
  /-- The read port with `rd_idx` (R99). -/
  | read (idx : BitVec 9)
deriving DecidableEq, Repr

/-- The host's side of one step: the reset input (R270) and at most one request (log 2). -/
structure HostInput where
  reset : Bool
  req   : HostReq
deriving DecidableEq, Repr

/-- The parameters of one step of the step relation (10_state.md R34): the host's side, what the source answers if it is
asked, and which free value the step draws if it draws one (U1, U2). -/
structure Inputs where
  host   : HostInput
  answer : SrcAnswer
  draw   : Nat
deriving DecidableEq, Repr

/-- BODY as data: (offset, byte) pairs, offsets strictly rising, no byte equal to `Config.blankByte`. -/
abbrev Memory := List Host.Cell

/-- SCAN as data: (index, Point) pairs, indices strictly rising, no Point equal to `Config.blankPoint`. -/
abbrev ScanMem := List (Nat × Point)

/-- The complete architectural state of the core: the eight elements of 10_state.md R20 "and nothing else". The stream,
the source's choices and the host's commands are no part of it (R34): the step relation over it, `stepOn`, takes them as
parameters. -/
structure CoreState where
  /-- `PHASE`: what the core is doing (R21). -/
  phase      : Phase
  /-- `BIDX`: the body offset of the next byte (R22). -/
  bidx       : BitVec 6
  /-- `PKT`: packets committed in this assembly (R23). -/
  pkt        : BitVec 6
  /-- `COUNT`: points written in this assembly (R24). -/
  count      : BitVec 9
  /-- `ERR`: why the last assembly failed (R25). -/
  err        : Err
  /-- `SCAN_VALID`: SCAN holds a complete scan (R26). -/
  scanValid  : Bool
  /-- `BODY`: the packet body buffer (R27). -/
  body       : Memory
  /-- `SCAN`: the scan buffer (R28). -/
  scan       : ScanMem
deriving DecidableEq, Repr

/-- The core closed off with an environment: the state of a machine that runs by itself, as the host's interface asks
(Host/Core.lean: a step takes a state and nothing else). The fields beside the core's are the model's own: the parameters
of the steps to come, and what the consumer sees of the last READ (INVENTORY.md, "State"). -/
structure State extends CoreState where
  /-- Model's own (log 1): the Byte Source's answers to the requests to come. -/
  src        : List SrcAnswer
  /-- Model's own (log 1): the Byte Source's answers after those. -/
  srcLater   : SrcLater
  /-- Model's own (log 1): the host's side of the steps to come; after the last one it is quiet. -/
  host       : List HostInput
  /-- Model's own (log 6): the read port's outputs for the last READ; `none` before the first. -/
  readAnswer : Option Point
  /-- Model's own (log 6): the number of the next free value to draw. -/
  freeCtr    : Nat
deriving DecidableEq, Repr

/-- The machine right after reset (10_state.md R36), the environment silent. -/
def State.reset : State :=
  { phase := .idle
    bidx := 0#6
    pkt := 0#6
    count := 0#9
    err := .noError
    scanValid := false
    body := []
    scan := []
    src := []
    srcLater := .silent
    host := []
    readAnswer := none
    freeCtr := 0 }

/-- Why the machine stops. Both are safe: they arise only where an address the spec says does not exist would be
written, which 10_state.md R37 rules out in every reachable state (log 15). -/
inductive Fault where
  /-- LOAD at a BODY offset of 46 or more (20_memory.md R60: BODY has offsets 0..45). Safe. -/
  | bodyOffset (k : Nat)
  /-- COMMIT at a SCAN index of 456 or more (20_memory.md R60: SCAN has indices 0..455). Safe. -/
  | scanIndex (k : Nat)
deriving DecidableEq, Repr

/-- Why an operation is given no meaning. All are safe: the model stops. -/
inductive Refusal where
  /-- The operation has no meaning yet (raised by `exec`'s own arm only). -/
  | notModelled (mnemonic : String)
  /-- A micro- or macro-operation in a state in which its condition does not hold, so that the state does not select
  it (30_encoding.md R97: such a dispatch word cannot arise); or a macro-operation or wire format as the operation of one
  step of the core, which it never is (R98, R102). Raised by the meanings, never reached by `step` (log 9). -/
  | notSelected (mnemonic : String)
  /-- The words fetched are no operation (raised by `step`; 30_encoding.md R97: cannot arise). -/
  | undecodable (e : DecodeError)
deriving DecidableEq, Repr

/-- The outcome of an operation on the core alone. -/
abbrev CoreResult := Host.Outcome CoreState Fault Refusal

/-- The outcome of a meaning. -/
abbrev Result := Host.Outcome State Fault Refusal

end Sys2Proof.Machine
end

