-- ==== Sys2Proof/Machine/Ops.lean ====
section
/-! DEFINITION. Named operations over the buffers and the registers: reads and writes of BODY and SCAN, free values,
error entry (R244) and the return from it. -/

namespace Sys2Proof.Machine

/-! ### Sequencing -/

/-- Go on with the next state; a stop stays a stop. -/
def andThen {σ τ : Type} (r : Host.Outcome σ Fault Refusal) (f : σ → Host.Outcome τ Fault Refusal) :
    Host.Outcome τ Fault Refusal :=
  match r with
  | .next s => f s
  | .fault e => .fault e
  | .refused e => .refused e

/-- An operation on the core, in the closed machine: it reads and writes the core's elements and nothing beside them. -/
def onCore (f : CoreState → CoreResult) (s : State) : Result :=
  andThen (f s.toCoreState) fun a => .next { s with toCoreState := a }

/-! ### Sparse memory in canonical form -/

/-- The value at a key; an unlisted key reads as `d`. -/
def Cells.read {α : Type} (d : α) : List (Nat × α) → Nat → α
  | [], _ => d
  | (k, v) :: rest, a => if k = a then v else Cells.read d rest a

/-- Write one value, keeping the keys strictly rising and listing no `d`. -/
def Cells.write {α : Type} [DecidableEq α] (d : α) : List (Nat × α) → Nat → α → List (Nat × α)
  | [], a, v => if v = d then [] else [(a, v)]
  | (k, w) :: rest, a, v =>
    if a < k then (if v = d then (k, w) :: rest else (a, v) :: (k, w) :: rest)
    else if a = k then (if v = d then rest else (a, v) :: rest)
    else (k, w) :: Cells.write d rest a v

/-- Keys at least `from` and below `size`, strictly rising, no value equal to `d`. -/
def Cells.wfFrom {α : Type} [DecidableEq α] (d : α) (size : Nat) : Nat → List (Nat × α) → Bool
  | _, [] => true
  | start, (k, v) :: rest => decide (start ≤ k) && decide (k < size) && decide (v ≠ d) && Cells.wfFrom d size (k + 1) rest

/-- The memory that holds `f start`, .., `f (start + n - 1)` at the keys `start`, .., `start + n - 1`. -/
def Cells.tabulateFrom {α : Type} [DecidableEq α] (d : α) (f : Nat → α) : Nat → Nat → List (Nat × α)
  | _, 0 => []
  | start, n + 1 =>
    if f start = d then Cells.tabulateFrom d f (start + 1) n
    else (start, f start) :: Cells.tabulateFrom d f (start + 1) n

/-! ### BODY (10_state.md R27) -/

/-- `BODY[k]`. -/
def Memory.read (m : Memory) (k : Nat) : Byte := Cells.read Config.blankByte m k

/-- `BODY[k] <- b`. -/
def Memory.write (m : Memory) (k : Nat) (b : Byte) : Memory := Cells.write Config.blankByte m k b

/-- BODY is in canonical form and lists only offsets 0..45. -/
def Memory.wf (m : Memory) : Bool := Cells.wfFrom Config.blankByte Config.bodyBytes 0 m

/-- BODY with byte `k` equal to `f k` for every offset. -/
def Memory.fill (f : Nat → Byte) : Memory := Cells.tabulateFrom Config.blankByte f 0 Config.bodyBytes

/-- `BODY[k] <- b`; an offset of 46 or more does not exist (R60) and faults. -/
def storeBody (k : Nat) (b : Byte) (a : CoreState) : CoreResult :=
  if k < Config.bodyBytes then .next { a with body := a.body.write k b } else .fault (.bodyOffset k)

/-! ### SCAN (10_state.md R28) -/

/-- `MemRead(SCAN, k)`. -/
def ScanMem.read (m : ScanMem) (k : Nat) : Point := Cells.read Config.blankPoint m k

/-- `MemWrite(SCAN, k, p)`. -/
def ScanMem.write (m : ScanMem) (k : Nat) (p : Point) : ScanMem := Cells.write Config.blankPoint m k p

/-- SCAN is in canonical form and lists only indices 0..455. -/
def ScanMem.wf (m : ScanMem) : Bool := Cells.wfFrom Config.blankPoint Config.cap 0 m

/-- SCAN with entry `k` equal to `f k` for every index. -/
def ScanMem.fill (f : Nat → Point) : ScanMem := Cells.tabulateFrom Config.blankPoint f 0 Config.cap

/-- Points at the indices `k`, `k + 1`, .. in order (R70: increasing SCAN indices). -/
def ScanMem.writeFrom (m : ScanMem) : Nat → List Point → ScanMem
  | _, [] => m
  | k, p :: ps => ScanMem.writeFrom (m.write k p) (k + 1) ps

/-- Append `ps` to SCAN at COUNT; an index of 456 or more does not exist (R60) and faults before anything is written. -/
def storePoints (ps : List Point) (a : CoreState) : CoreResult :=
  if a.count.toNat + ps.length ≤ Config.cap then
    .next { a with scan := a.scan.writeFrom a.count.toNat ps }
  else .fault (.scanIndex (a.count.toNat + ps.length - 1))

/-! ### The Byte Source's coming answers: `src`, then `srcLater` (20_memory.md R61, R68; log 1) -/

/-- The next of the answers that come after the listed ones. -/
def SrcLater.now : SrcLater → SrcAnswer
  | .silent => .noAnswer
  | .again a _ => a
  | .free n => Config.freeAnswer n

/-- The answers after that one. -/
def SrcLater.next : SrcLater → SrcLater
  | .silent => .silent
  | .again a [] => .again a []
  | .again a (b :: bs) => .again b (bs ++ [a])
  | .free n => .free (n + 1)

/-- The answers after `n` of them. -/
def SrcLater.after (l : SrcLater) : Nat → SrcLater
  | 0 => l
  | n + 1 => l.next.after n

/-- The first `n` answers. -/
def SrcLater.answers (l : SrcLater) : Nat → List SrcAnswer
  | 0 => []
  | n + 1 => l.now :: l.next.answers n

/-- How many answers decide whether FINDSYNC or DECODEPACKET returns: of a period, 46 times its length, since a period
without an event brings none ever. -/
def SrcLater.reach : SrcLater → Nat
  | .silent => 0
  | .again _ as => Config.bodyBytes * (as.length + 1)
  | .free n => Config.freeSource.reach n

/-- The answer `SrcNext()` gives if it is called now. -/
def State.answerNow (s : State) : SrcAnswer := s.src.headD s.srcLater.now

/-- The state with `n` answers consumed. -/
def State.took (s : State) (n : Nat) : State :=
  { s with src := s.src.drop n, srcLater := s.srcLater.after (n - s.src.length) }

/-- The first `n` coming answers. -/
def State.answers (s : State) (n : Nat) : List SrcAnswer := s.src.take n ++ s.srcLater.answers (n - s.src.length)

/-! ### Free values (U1, U2) -/

/-- Advance the draw counter past `n` free values. -/
def State.drew (s : State) (n : Nat) : State := { s with freeCtr := s.freeCtr + n }

/-! ### Errors (60_exceptions.md) -/

/-- Error entry, `raise E` of R244: ERR <- code(E); PHASE <- IDLE; BIDX <- 0; nothing else changes. -/
def raise (e : Err) (a : CoreState) : CoreState := { a with err := e, phase := .idle, bidx := 0#6 }

/-- The return from an error is START (R247); this is START's effect when it is accepted (43_scan_assembler.md R211).
BODY and SCAN are not cleared. -/
def beginAssembly (a : CoreState) : CoreState :=
  { a with phase := .hunt, bidx := 0#6, pkt := 0#6, count := 0#9, err := .noError, scanValid := false }

/-- How many free values a reset draws. -/
abbrev resetDraws : Nat := Config.cap

/-- The core after reset (70_reset_and_hazards.md R270, 10_state.md R36), whatever it was: the control elements at their
reset values, BODY and SCAN unspecified (the free values from `draw` on, log 4). -/
def resetCore (draw : Nat) : CoreState :=
  { phase := .idle
    bidx := 0#6
    pkt := 0#6
    count := 0#9
    err := .noError
    scanValid := false
    body := Memory.fill fun k => Config.freeByte (draw + k)
    scan := ScanMem.fill fun k => Config.freePoint (draw + k) }

end Sys2Proof.Machine
end

