-- ==== Sys2Proof/Machine/Float.lean ====
section
/-! DEFINITION. The primitive operations of 42_angle_interpolation.md R180 on values of `FMT`: `fadd`, `fsub`, `fmul`,
`fdiv` (the exact result rounded once, to nearest, ties to even), `flt` (exact), `u2f` (exact). Every value here is
finite: R191 states that no infinity and no NaN can arise in the core (log 8). -/

namespace Sys2Proof

/-! ### The formats -/

/-- Significant bits, the implicit one included: 53 or 24 (G1, G5). -/
def Fmt.precision : Fmt → Nat
  | .binary64 => 53
  | .binary32 => 24

/-- The exponent of the last place of the subnormal numbers: -1074 or -149. -/
def Fmt.minExp : Fmt → Int
  | .binary64 => -1074
  | .binary32 => -149

/-- Bits of an encoding: 64 or 32. -/
def Fmt.width : Fmt → Nat
  | .binary64 => 64
  | .binary32 => 32

namespace Machine

/-- A finite value of `FMT`: `(-1)^neg * mant * 2^exp`, `mant` < 2^precision. A zero has `exp` = 0; any other value
whose `mant` < 2^(precision - 1) is subnormal and has `exp` = `minExp`. -/
structure Fp where
  neg  : Bool
  mant : Nat
  exp  : Int
deriving DecidableEq, Repr

/-! ### Rounding -/

/-- `n / d` rounded to the nearest integer, ties to even. -/
def nearestEven (n d : Nat) : Nat :=
  if d < 2 * (n % d) ∨ (2 * (n % d) = d ∧ n / d % 2 = 1) then n / d + 1 else n / d

/-- The `L` with `2^L ≤ num / den < 2^(L + 1)`, for positive `num` and `den`. -/
def leadExp (num den : Nat) : Int :=
  if num * 2 ^ ((den.log2 : Int) - num.log2).toNat < den * 2 ^ ((num.log2 : Int) - den.log2).toNat then
    (num.log2 : Int) - den.log2 - 1
  else (num.log2 : Int) - den.log2

/-- The exponent of the last place of the value of `FMT` nearest to `num / den * 2^e`. -/
def placeExp (f : Fmt) (num den : Nat) (e : Int) : Int :=
  max (e + leadExp num den - ((f.precision : Int) - 1)) f.minExp

/-- The value of `FMT` nearest to `(-1)^neg * num / den * 2^e`, ties to even (R180). -/
def roundTo (f : Fmt) (neg : Bool) (num den : Nat) (e : Int) : Fp :=
  if num = 0 then ⟨neg, 0, 0⟩
  else
    let q := placeExp f num den e
    let m := nearestEven (num * 2 ^ (e - q).toNat) (den * 2 ^ (q - e).toNat)
    if m = 2 ^ f.precision then ⟨neg, 2 ^ (f.precision - 1), q + 1⟩ else ⟨neg, m, q⟩

/-! ### Bit patterns (R180, R101) -/

/-- The bit pattern of a value: sign, biased exponent, fraction. -/
def Fp.bits (f : Fmt) (x : Fp) : AngleBits :=
  BitVec.ofNat 64
    ((if x.neg then 2 ^ (f.width - 1) else 0) +
      (if x.mant < 2 ^ (f.precision - 1) then x.mant
       else (x.exp - f.minExp + 1).toNat * 2 ^ (f.precision - 1) + (x.mant - 2 ^ (f.precision - 1))))

/-- The finite value a bit pattern stands for. -/
def Fp.ofBits (f : Fmt) (bits : Nat) : Fp :=
  let frac := bits % 2 ^ (f.precision - 1)
  let biased := bits % 2 ^ (f.width - 1) / 2 ^ (f.precision - 1)
  let neg := decide (2 ^ (f.width - 1) ≤ bits)
  if biased = 0 then ⟨neg, frac, if frac = 0 then 0 else f.minExp⟩
  else ⟨neg, 2 ^ (f.precision - 1) + frac, (biased : Int) - 1 + f.minExp⟩

/-! ### Operations (R180) -/

/-- The signed integer `(-1)^neg * mant * 2^(exp - e)`, for `e ≤ exp`. -/
def Fp.scaled (x : Fp) (e : Int) : Int :=
  (if x.neg then -1 else 1) * ((x.mant * 2 ^ (x.exp - e).toNat : Nat) : Int)

/-- `fadd`. An exact zero sum is +0 unless both operands are negative zeros. -/
def fadd (f : Fmt) (x y : Fp) : Fp :=
  let e := min x.exp y.exp
  let v := x.scaled e + y.scaled e
  if v = 0 then ⟨x.neg && y.neg, 0, 0⟩ else roundTo f (decide (v < 0)) v.natAbs 1 e

/-- The operand with its sign reversed. -/
def Fp.negate (x : Fp) : Fp := { x with neg := !x.neg }

/-- `fsub`. -/
def fsub (f : Fmt) (x y : Fp) : Fp := fadd f x y.negate

/-- `fmul`. -/
def fmul (f : Fmt) (x y : Fp) : Fp := roundTo f (x.neg != y.neg) (x.mant * y.mant) 1 (x.exp + y.exp)

/-- `fdiv`, for a non-zero divisor (every divisor of the core is a non-zero constant, R185, R191). -/
def fdiv (f : Fmt) (x y : Fp) : Fp := roundTo f (x.neg != y.neg) x.mant y.mant (x.exp - y.exp)

/-- `flt`: the exact comparison "less than". -/
def flt (x y : Fp) : Bool :=
  let e := min x.exp y.exp
  decide (x.scaled e < y.scaled e)

/-- `u2f`: the integer `n` as a value of `FMT`, exact for n < 2^16 (R181). -/
def u2f (f : Fmt) (n : Nat) : Fp := roundTo f false n 1 0

/-! ### Constants (R182) -/

/-- `100.0`. -/
def const100 : Fmt → Fp
  | .binary64 => Fp.ofBits .binary64 0x4059000000000000
  | .binary32 => Fp.ofBits .binary32 0x42C80000

/-- `360.0`. -/
def const360 : Fmt → Fp
  | .binary64 => Fp.ofBits .binary64 0x4076800000000000
  | .binary32 => Fp.ofBits .binary32 0x43B40000

/-- `12.0`. -/
def const12 : Fmt → Fp
  | .binary64 => Fp.ofBits .binary64 0x4028000000000000
  | .binary32 => Fp.ofBits .binary32 0x41400000

/-- `180.0`. -/
def const180 : Fmt → Fp
  | .binary64 => Fp.ofBits .binary64 0x4066800000000000
  | .binary32 => Fp.ofBits .binary32 0x43340000

/-- `PI`, the value of `FMT` nearest to π. -/
def constPi : Fmt → Fp
  | .binary64 => Fp.ofBits .binary64 0x400921FB54442D18
  | .binary32 => Fp.ofBits .binary32 0x40490FDB

end Machine

end Sys2Proof
end

