-- ==== Sys2Proof/Machine/Angle.lean ====
section
/-! DEFINITION. `ANGLE(A0, A1, i)` (42_angle_interpolation.md R183 to R186): one sequence of operations over an arithmetic,
its instances (the rounded arithmetic of a format, which the core computes in, and the exact one of R188), the
configurations made of it (R195), and the numerator N_i of R188. -/

namespace Sys2Proof.Machine

/-! ### An arithmetic: the six primitive operations of R180 and the constants of R182 -/

/-- What the sequence of R183 to R186 is made of. -/
structure Arith (α : Type) where
  fadd : α → α → α
  fsub : α → α → α
  fmul : α → α → α
  fdiv : α → α → α
  flt  : α → α → Bool
  u2f  : Nat → α
  c100 : α
  c360 : α
  c12  : α
  c180 : α
  pi   : α

/-- The arithmetic of a format: every operation rounded (R180, R182). -/
def roundedArith (f : Fmt) : Arith Fp :=
  { fadd := fadd f, fsub := fsub f, fmul := fmul f, fdiv := fdiv f, flt := flt, u2f := u2f f
    c100 := const100 f, c360 := const360 f, c12 := const12 f, c180 := const180 f, pi := constPi f }

/-- Exact arithmetic, "with every rounding removed" (R188), for any number that stands for π. -/
def exactArith (pi : Rat) : Arith Rat :=
  { fadd := fun x y => x + y, fsub := fun x y => x - y, fmul := fun x y => x * y, fdiv := fun x y => x / y
    flt := fun x y => decide (x < y), u2f := fun n => (n : Rat)
    c100 := 100, c360 := 360, c12 := 12, c180 := 180, pi := pi }

/-! ### The sequence -/

/-- `fdiv(u2f(a), 100.0)`: `INIT` of A0, `FINAL0` of A1 (R183). -/
def Arith.degrees {α : Type} (o : Arith α) (a : U16) : α := o.fdiv (o.u2f a.toNat) o.c100

/-- `FINAL`: the wraparound rule, a strict comparison of the degree values (R184). -/
def Arith.finalDegrees {α : Type} (o : Arith α) (a0 a1 : U16) : α :=
  if o.flt (o.degrees a1) (o.degrees a0) then o.fadd (o.degrees a1) o.c360 else o.degrees a1

/-- `STEP = fdiv(fsub(FINAL, INIT), 12.0)` (R185). -/
def Arith.angleStep {α : Type} (o : Arith α) (a0 a1 : U16) : α :=
  o.fdiv (o.fsub (o.finalDegrees a0 a1) (o.degrees a0)) o.c12

/-- `DEG_i = fadd(INIT, fmul(STEP, u2f(i)))` (R186). -/
def Arith.sampleDegrees {α : Type} (o : Arith α) (a0 a1 : U16) (i : Nat) : α :=
  o.fadd (o.degrees a0) (o.fmul (o.angleStep a0 a1) (o.u2f i))

/-- `RAD_i = fdiv(fmul(DEG_i, PI), 180.0)` (R186). -/
def Arith.sampleRadians {α : Type} (o : Arith α) (a0 a1 : U16) (i : Nat) : α :=
  o.fdiv (o.fmul (o.sampleDegrees a0 a1 i) o.pi) o.c180

/-! ### In a format -/

/-- `fdiv(u2f(a), 100.0)` in a format (R183). -/
def degrees (f : Fmt) (a : U16) : Fp := (roundedArith f).degrees a

/-- `DEG_i` in a format (R186). -/
def sampleDegrees (f : Fmt) (a0 a1 : U16) (i : Nat) : Fp := (roundedArith f).sampleDegrees a0 a1 i

/-- `ANGLE(A0, A1, i)` in a format, as its bit pattern (R186, R101). -/
def angle (f : Fmt) (a0 a1 : U16) (i : Nat) : AngleBits := ((roundedArith f).sampleRadians a0 a1 i).bits f

/-! ### The exact value (R188) -/

/-- `A1'` of R188. -/
def wrappedA1 (a0 a1 : U16) : Nat := if a1.toNat < a0.toNat then a1.toNat + 36000 else a1.toNat

/-- `N_i` of R188: 1200 times the exact angle of sample i in degrees. -/
def exactN (a0 a1 : U16) (i : Nat) : Int :=
  12 * (a0.toNat : Int) + (i : Int) * ((wrappedA1 a0 a1 : Int) - (a0.toNat : Int))

end Sys2Proof.Machine

/-! ### Configurations (R195) -/

namespace Sys2Proof

/-- The configuration that rules R183 to R186 give over a format. -/
def Config.ofFmt (f : Fmt) : Config := { fmt := f, angle := Machine.angle f }

/-- The instance the spec takes: IEEE 754 binary64 (R180; decision D7; log 7). -/
def Config.current : Config := Config.ofFmt .binary64

end Sys2Proof
end

