-- ==== Sys2Proof/Machine/Operands.lean ====
section
/-! DEFINITION. The operands of the operations: the fields of a body (30_encoding.md R93), its twelve Points
(41_packet_decoder.md R155 to R157), and the dispatch word of a step (R97). -/

namespace Sys2Proof.Machine

/-! ### Field assembly (R93); `get k` is body byte k -/

/-- `MemRead(BODY, k, 2)` (20_memory.md R63). -/
def get16 (get : Nat → Byte) (k : Nat) : U16 := le16 (get k) (get (k + 1))

/-- `LEN`. -/
def fieldLen (get : Nat → Byte) : Byte := get Config.offLen
/-- `A0` (R155). -/
def fieldA0 (get : Nat → Byte) : U16 := get16 get Config.offA0
/-- `A1` (R155). -/
def fieldA1 (get : Nat → Byte) : U16 := get16 get Config.offA1
/-- `D_i` (R156). -/
def fieldDistance (get : Nat → Byte) (i : Nat) : U16 := get16 get (Config.offSamples + Config.sampleBytes * i)
/-- `Q_i` (R156). -/
def fieldIntensity (get : Nat → Byte) (i : Nat) : Byte := get (Config.offSamples + Config.sampleBytes * i + 2)

/-- `Point_i` (R157). -/
def pointAt (c : Config) (get : Nat → Byte) (i : Nat) : Point :=
  { angle := c.angle (fieldA0 get) (fieldA1 get) i
    distance := fieldDistance get i
    intensity := fieldIntensity get i }

/-- `points(body)`: the twelve Points in index order (R157). -/
def points (c : Config) (get : Nat → Byte) : List Point := (List.range Config.ptsPerPkt).map (pointAt c get)

/-! ### The dispatch word (R97) -/

/-- `DW[13:12]` (R100). -/
def Phase.code : Phase → BitVec 2
  | .idle => 0
  | .hunt => 1
  | .body => 2

/-- `DW[11:10]`. -/
def SrcAnswer.code : SrcAnswer → BitVec 2
  | .noAnswer => 0
  | .byte _ => 1
  | .fail => 2

/-- `DW[7:0]`: the byte when there is one, else 0. -/
def SrcAnswer.data : SrcAnswer → Byte
  | .noAnswer => 0
  | .byte b => b
  | .fail => 0

/-- `last`: BIDX = 45 (R97). -/
def CoreState.atLast (s : CoreState) : Bool := s.bidx == 45#6

/-- `lenok`: BODY[0] = 44 (R97, R94). -/
def CoreState.lenOk (s : CoreState) : Bool := s.body.read Config.offLen == Config.lenConst

/-- The dispatch word of a step in which the source's event is `a` (R97). -/
def CoreState.dispatchWord (s : CoreState) (a : SrcAnswer) : BitVec 14 :=
  s.phase.code ++ a.code ++ BitVec.ofBool s.atLast ++ BitVec.ofBool s.lenOk ++ a.data

end Sys2Proof.Machine
end

