-- ==== Sys2Proof/Machine/Flags.lean ====
section
/-! DEFINITION. The status outputs (10_state.md R30) and the codes of ERR (R100, R240). The core has no other flag
(R39). -/

namespace Sys2Proof.Machine

/-- `err[1:0]` (R100, R240). -/
def Err.code : Err → BitVec 2
  | .noError => 0
  | .ioError => 1
  | .invalidLength => 2

/-- `busy` = (PHASE ≠ IDLE) (R30). -/
def CoreState.busy (s : CoreState) : Bool := s.phase != .idle

/-- `done` = (PHASE = IDLE and SCAN_VALID = 1) (R30). -/
def CoreState.done (s : CoreState) : Bool := s.phase == .idle && s.scanValid

/-- `failed` = (PHASE = IDLE and ERR ≠ NONE) (R30). -/
def CoreState.failed (s : CoreState) : Bool := s.phase == .idle && s.err != .noError

/-- The status outputs of R30. -/
structure Status where
  busy      : Bool
  scanValid : Bool
  err       : BitVec 2
  count     : BitVec 9
  done      : Bool
  failed    : Bool
deriving DecidableEq, Repr

/-- A status read: a function of the state, without side effect (R30, R68). -/
def status (s : CoreState) : Status :=
  { busy := s.busy, scanValid := s.scanValid, err := s.err.code, count := s.count, done := s.done, failed := s.failed }

end Sys2Proof.Machine
end

