-- ==== Sys2Proof/Machine/FrameSync.lean ====
section
/-! DEFINITION. The Frame Synchronizer's micro-operations: WAIT, ABORT, SYNC, DISCARD (40_frame_sync.md), on the core and
in the closed machine. -/

namespace Sys2Proof.Machine

/-- WAIT (R133): no state element changes, in any phase. -/
def coreWait (a : CoreState) : CoreResult := .next a

/-- ABORT (R134): `raise IoError`, in HUNT or BODY. In IDLE no event is asked for and none can fail (log 9). -/
def coreAbort (a : CoreState) : CoreResult :=
  if a.phase ≠ .idle then .next (raise .ioError a) else .refused (.notSelected "ABORT")

/-- SYNC (R132): PHASE <- BODY, BIDX <- 0, in HUNT (log 9 elsewhere). -/
def coreSync (a : CoreState) : CoreResult :=
  if a.phase = .hunt then .next { a with phase := .body, bidx := 0#6 } else .refused (.notSelected "SYNC")

/-- DISCARD (R131): no state element changes, in HUNT, for a byte other than the sync marker (log 9 elsewhere). -/
def coreDiscard (b : Byte) (a : CoreState) : CoreResult :=
  if a.phase = .hunt ∧ b ≠ Config.syncByte then .next a else .refused (.notSelected "DISCARD")

/-- WAIT (R133). -/
def execWait (s : State) : Result := onCore coreWait s

/-- ABORT (R134). -/
def execAbort (s : State) : Result := onCore coreAbort s

/-- SYNC (R132). -/
def execSync (s : State) : Result := onCore coreSync s

/-- DISCARD (R131). -/
def execDiscard (b : Byte) (s : State) : Result := onCore (coreDiscard b) s

end Sys2Proof.Machine
end

