-- ==== Sys2Proof/Machine/PacketDecoder.lean ====
section
/-! DEFINITION. The Packet Decoder's micro-operations: LOAD and REJECT (41_packet_decoder.md). -/

namespace Sys2Proof.Machine

/-- LOAD (R151): BODY[BIDX] <- b, BIDX <- BIDX + 1, in BODY before the last byte (log 9 elsewhere). A BIDX of 46 or
more, which no run reaches, addresses no byte of BODY and faults (log 15). -/
def coreLoad (b : Byte) (a : CoreState) : CoreResult :=
  if a.phase = .body ∧ a.bidx ≠ 45#6 then
    andThen (storeBody a.bidx.toNat b a) fun t => .next { t with bidx := a.bidx + 1#6 }
  else .refused (.notSelected "LOAD")

/-- The condition of the last-byte step (R152): in BODY with BIDX = 45. -/
def CoreState.atLastByte (a : CoreState) : Bool := a.phase == .body && a.atLast

/-- REJECT (R154, R152): BODY[45] <- b, then `raise InvalidLength`, when BODY[0] ≠ 44 (log 9 elsewhere). -/
def coreReject (b : Byte) (a : CoreState) : CoreResult :=
  if a.atLastByte = true ∧ a.lenOk = false then
    andThen (storeBody 45 b a) fun t => .next (raise .invalidLength t)
  else .refused (.notSelected "REJECT")

/-- LOAD (R151). -/
def execLoad (b : Byte) (s : State) : Result := onCore (coreLoad b) s

/-- REJECT (R154). -/
def execReject (b : Byte) (s : State) : Result := onCore (coreReject b) s

end Sys2Proof.Machine
end

