-- ==== Sys2Proof/Machine/ScanAssembler.lean ====
section
/-! DEFINITION. The Scan Assembler: COMMIT, START and READ (43_scan_assembler.md). -/

namespace Sys2Proof.Machine

/-- The loop control at the end of COMMIT (R213 to R215): COUNT + 12, PKT + 1, BIDX <- 0, and on the 38th packet
PHASE <- IDLE with SCAN_VALID <- 1, else PHASE <- HUNT. -/
def countPacket (a : CoreState) : CoreState :=
  let t := { a with count := a.count + 12#9, pkt := a.pkt + 1#6, bidx := 0#6 }
  if a.pkt + 1#6 = 38#6 then { t with phase := .idle, scanValid := true } else { t with phase := .hunt }

/-- COMMIT (R213, R152): BODY[45] <- b, the twelve Points of the body to SCAN[COUNT..COUNT+11], then the loop control,
when BODY[0] = 44 (log 9 elsewhere). A COUNT above 444, which no run reaches, addresses no entry of SCAN and faults
(log 15). -/
def coreCommit (c : Config) (b : Byte) (a : CoreState) : CoreResult :=
  if a.atLastByte = true ∧ a.lenOk = true then
    andThen (storeBody 45 b a) fun t =>
      andThen (storePoints (points c t.body.read) t) fun u => .next (countPacket u)
  else .refused (.notSelected "COMMIT")

/-- START (R211, R212): a new assembly from IDLE; ignored while one runs. -/
def coreStart (a : CoreState) : CoreResult :=
  if a.phase = .idle then .next (beginAssembly a) else .next a

/-- READ's condition (R217): SCAN_VALID = 1 and rd_idx <= 455. -/
def CoreState.readable (a : CoreState) (idx : BitVec 9) : Bool := a.scanValid && decide (idx.toNat < Config.cap)

/-- The read port's outputs (R217, R99): the Point at `rd_idx` under READ's condition; otherwise every output is a free
value, number `draw` (U1, log 5). -/
def readPort (idx : BitVec 9) (draw : Nat) (a : CoreState) : Point :=
  if a.readable idx then a.scan.read idx.toNat else Config.freePoint draw

/-- How many free values a READ draws. -/
def readDraws (idx : BitVec 9) (a : CoreState) : Nat := if a.readable idx then 0 else 1

/-- COMMIT (R213) in configuration `c`. -/
def commitUnder (c : Config) (b : Byte) (s : State) : Result := onCore (coreCommit c b) s

/-- COMMIT in the machine's own configuration. -/
def execCommit (b : Byte) (s : State) : Result := commitUnder Config.current b s

/-- START (R211, R212). -/
def execStart (s : State) : Result := onCore coreStart s

/-- READ (R217): the read port's outputs. No element of the spec's state changes. -/
def execRead (idx : BitVec 9) (s : State) : Result :=
  .next { s.drew (readDraws idx s.toCoreState) with readAnswer := some (readPort idx s.freeCtr s.toCoreState) }

end Sys2Proof.Machine
end

