-- ==== Sys2Proof/Machine/ResetInput.lean ====
section
/-! DEFINITION. RESET (70_reset_and_hazards.md R270). -/

namespace Sys2Proof.Machine

/-- RESET (R270): every element at its reset value, whatever the state was; the transport is not touched. -/
def execReset (s : State) : Result := .next { s.drew resetDraws with toCoreState := resetCore s.freeCtr }

end Sys2Proof.Machine
end

