-- ==== Sys2Proof/Machine/Events.lean ====
section
/-! DEFINITION. One source event taken by the core, and sequences of them: what the macro-operations and the wire
formats are made of. -/

namespace Sys2Proof.Machine

/-- The micro-operation R97 selects for `Byte(b)`; in IDLE no byte is asked for. -/
def takeByte (c : Config) (b : Byte) (a : CoreState) : CoreResult :=
  match a.phase with
  | .idle => .next a
  | .hunt => if b = Config.syncByte then coreSync a else coreDiscard b a
  | .body =>
    if a.atLast then (if a.lenOk then coreCommit c b a else coreReject b a) else coreLoad b a

/-- The micro-operation R97 selects for an answer of the Byte Source, for a core that asked. -/
def takeAnswer (c : Config) (x : SrcAnswer) (a : CoreState) : CoreResult :=
  match x with
  | .noAnswer => coreWait a
  | .byte b => takeByte c b a
  | .fail => coreAbort a

/-- Take the coming answers one by one for as long as PHASE = p, `n` at most. -/
def runWhile (c : Config) (p : Phase) : Nat → State → Result
  | 0, s => .next s
  | n + 1, s =>
    andThen (onCore (takeAnswer c s.answerNow) (s.took 1)) fun t => if t.phase = p then runWhile c p n t else .next t

/-- Take the coming answers until PHASE ≠ p. Where that never happens (R138: the source answers no more, or no answer to
come ends the phase), go on as far as the answers tell so, and answer the state that waits there (log 14). -/
def runPhase (c : Config) (p : Phase) (s : State) : Result := runWhile c p (s.src.length + s.srcLater.reach) s

/-- The bytes `bs` are the next the Byte Source delivers: the core takes them one by one for as long as it asks; the
rest stay the next answers (log 13). -/
def deliver (c : Config) : List Byte → State → Result
  | [], s => .next s
  | b :: bs, s =>
    if s.phase = .idle then .next { s with src := (b :: bs).map SrcAnswer.byte ++ s.src }
    else andThen (onCore (takeByte c b) s) (deliver c bs)

end Sys2Proof.Machine
end

