-- ==== Sys2Proof/Machine/Contract.lean ====
section
/-! DEFINITION. The contract level (00_scope.md R8): the source's three functions of the remaining stream, written from
R130, R150 and R210, on a finite part of it; and the three macro-operations as the sequences of micro-operations of R102. -/

namespace Sys2Proof.Machine

/-! ### The contracts, as functions of the stream -/

/-- Result of `findSync` (40_frame_sync.md R130). -/
inductive FindSyncResult where
  | ok (rest : List SrcAnswer)
  | ioError (rest : List SrcAnswer)
  /-- No result within these answers. -/
  | waiting
deriving DecidableEq, Repr

/-- `findSync(s)` of R130. -/
def findSync : List SrcAnswer → FindSyncResult
  | [] => .waiting
  | .noAnswer :: s => findSync s
  | .fail :: s => .ioError s
  | .byte b :: s => if b = Config.syncByte then .ok s else findSync s

/-- Result of reading n bytes (41_packet_decoder.md R150 step 1). -/
inductive BodyRead where
  | full (bytes : List Byte) (rest : List SrcAnswer)
  | ioError (rest : List SrcAnswer)
  /-- No result within these answers. -/
  | waiting
deriving DecidableEq, Repr

/-- Put a byte in front of those read. -/
def BodyRead.push (b : Byte) : BodyRead → BodyRead
  | .full bytes rest => .full (b :: bytes) rest
  | .ioError rest => .ioError rest
  | .waiting => .waiting

/-- "Read exactly n bytes" (R150 step 1). -/
def readBytes : List SrcAnswer → Nat → BodyRead
  | s, 0 => .full [] s
  | [], _ + 1 => .waiting
  | .noAnswer :: s, n + 1 => readBytes s (n + 1)
  | .fail :: s, _ + 1 => .ioError s
  | .byte b :: s, n + 1 => (readBytes s n).push b

/-- Result of `decodePacket` (R150). -/
inductive DecodeResult where
  | ok (pts : List Point) (rest : List SrcAnswer)
  | ioError (rest : List SrcAnswer)
  | invalidLength (rest : List SrcAnswer)
  /-- No result within these answers. -/
  | waiting
deriving DecidableEq, Repr

/-- `decodePacket(s)` of R150: read 46 bytes, then validate byte 0, then decode. -/
def decodePacket (c : Config) (s : List SrcAnswer) : DecodeResult :=
  match readBytes s Config.bodyBytes with
  | .full bytes rest =>
    if bytes.getD Config.offLen 0 ≠ Config.lenConst then .invalidLength rest
    else .ok (points c fun k => bytes.getD k 0) rest
  | .ioError rest => .ioError rest
  | .waiting => .waiting

/-- Result of `assembleScan` (43_scan_assembler.md R210). -/
inductive AssembleResult where
  | ok (scan : List Point) (rest : List SrcAnswer)
  | ioError (rest : List SrcAnswer)
  | invalidLength (rest : List SrcAnswer)
  /-- No result within these answers. -/
  | waiting
deriving DecidableEq, Repr

/-- The loop of R210 with `n` iterations to go and `scan` so far. -/
def assembleFrom (c : Config) : Nat → List Point → List SrcAnswer → AssembleResult
  | 0, scan, s => .ok scan s
  | n + 1, scan, s =>
    match findSync s with
    | .ioError rest => .ioError rest
    | .waiting => .waiting
    | .ok rest =>
      match decodePacket c rest with
      | .ioError rest' => .ioError rest'
      | .invalidLength rest' => .invalidLength rest'
      | .waiting => .waiting
      | .ok pts rest' => assembleFrom c n (scan ++ pts) rest'

/-- `assembleScan(s)` of R210. -/
def assembleScan (c : Config) (s : List SrcAnswer) : AssembleResult := assembleFrom c Config.pktsPerScan [] s

/-! ### The macro-operations, as sequences of micro-operations (R102) -/

/-- FINDSYNC (R130, R102): in HUNT, (WAIT | DISCARD)* then SYNC or ABORT, on all the source's coming answers; where it
never returns (R138), the state that waits (log 14). -/
def findsyncUnder (c : Config) (s : State) : Result :=
  if s.phase = .hunt then runPhase c .hunt s else .refused (.notSelected "FINDSYNC")

/-- DECODEPACKET (R150, R102): in BODY, (WAIT | LOAD)* then COMMIT, REJECT or ABORT, on all the source's coming
answers; where it never returns (R138), the state that waits (log 14). R150's precondition is BIDX = 0; begun at another BIDX, to which the spec gives no effect of DECODEPACKET, it
goes on with the body under way: DESIGN CHOICE (log 19). -/
def decodepacketUnder (c : Config) (s : State) : Result :=
  if s.phase = .body then runPhase c .body s else .refused (.notSelected "DECODEPACKET")

/-- (FINDSYNC DECODEPACKET) repeated `n` times at most, for as long as the assembly goes on (R102). -/
def assembleLoop (c : Config) : Nat → State → Result
  | 0, s => .next s
  | n + 1, s =>
    andThen (findsyncUnder c s) fun t =>
      if t.phase = .body then
        andThen (decodepacketUnder c t) fun u => if u.phase = .hunt then assembleLoop c n u else .next u
      else .next t

/-- ASSEMBLESCAN (R210, R102): START, then the loop of 38 packets; while an assembly runs its START is ignored (R212;
log 14). -/
def assemblescanUnder (c : Config) (s : State) : Result :=
  if s.phase = .idle then andThen (execStart s) (assembleLoop c Config.pktsPerScan) else .next s

/-- FINDSYNC in the machine's own configuration. -/
def execFindsync (s : State) : Result := findsyncUnder Config.current s

/-- DECODEPACKET in the machine's own configuration. -/
def execDecodepacket (s : State) : Result := decodepacketUnder Config.current s

/-- ASSEMBLESCAN in the machine's own configuration. -/
def execAssemblescan (s : State) : Result := assemblescanUnder Config.current s

end Sys2Proof.Machine
end

