-- ==== Sys2Proof/Machine/Wire.lean ====
section
/-! DEFINITION. The wire formats as operations: PACKET and SAMPLE (30_encoding.md R91, R92), and the stream notation of
R103. -/

namespace Sys2Proof.Machine

/-- PACKET (R90, R91): the Byte Source delivers the 47 bytes of the unit (log 13). In HUNT the core takes them by SYNC,
45 LOADs and COMMIT. -/
def execPacket (p : PacketFields) (s : State) : Result := deliver Config.current p.bytes s

/-- SAMPLE (R92): the Byte Source delivers the three bytes of a sample block (log 13). In BODY the core takes them by
three LOADs. -/
def execSample (x : Sample) (s : State) : Result := deliver Config.current x.bytes s

/-! ### Stream notation (R103) -/

/-- The fields of `PKT(a0, a1, [(d0,q0), .., (d11,q11)])`: the unused bytes are `00`. -/
def pktFields (a0 a1 : U16) (samples : List Sample) : PacketFields :=
  { speed := 0, a0 := a0, samples := samples, a1 := a1, tail0 := 0, tail1 := 0, tail2 := 0 }

/-- The fields of `PKT(a0, a1, d, q)`: all twelve samples equal. -/
def pktSame (a0 a1 : U16) (d : U16) (q : Byte) : PacketFields :=
  pktFields a0 a1 (List.replicate Config.ptsPerPkt { distance := d, intensity := q })

/-- `PKT(..)` as stream items. -/
def pktItems (p : PacketFields) : List SrcAnswer := p.bytes.map .byte

/-- `PKTL(len, a0, a1, d, q)` as stream items: body byte 0 is `len`. -/
def pktlItems (len : Byte) (a0 a1 : U16) (d : U16) (q : Byte) : List SrcAnswer :=
  (Config.syncByte :: (pktSame a0 a1 d q).bodyWith len).map .byte

/-- `G(n, v)` as stream items. -/
def garbageItems (n : Nat) (v : Byte) : List SrcAnswer := List.replicate n (.byte v)

end Sys2Proof.Machine
end

