-- ==== Sys2Proof/Machine/Dispatch.lean ====
section
/-! DEFINITION. One arm per row of the opcode table. -/

namespace Sys2Proof.Machine

def exec (i : Instr) (s : State) : Host.Outcome State Fault Refusal :=
  match i with
  | .wait => Sys2Proof.Machine.execWait s
  | .abort => Sys2Proof.Machine.execAbort s
  | .sync => Sys2Proof.Machine.execSync s
  | .discard b => Sys2Proof.Machine.execDiscard b s
  | .load b => Sys2Proof.Machine.execLoad b s
  | .commit b => Sys2Proof.Machine.execCommit b s
  | .reject b => Sys2Proof.Machine.execReject b s
  | .start => Sys2Proof.Machine.execStart s
  | .read idx => Sys2Proof.Machine.execRead idx s
  | .reset => Sys2Proof.Machine.execReset s
  | .findsync => Sys2Proof.Machine.execFindsync s
  | .decodepacket => Sys2Proof.Machine.execDecodepacket s
  | .assemblescan => Sys2Proof.Machine.execAssemblescan s
  | .packet p => Sys2Proof.Machine.execPacket p s
  | .sample x => Sys2Proof.Machine.execSample x s

end Sys2Proof.Machine
end

