-- ==== Sys2Proof/Machine/Fetch.lean ====
section
/-! DEFINITION. What the core is presented with in a step, and how a word of the opcode table is put there. -/

namespace Sys2Proof.Machine

/-! ### The word a step's inputs give -/

/-- The event of a step in which the source would answer `a`: no request, so no event, in IDLE (20_memory.md R61). -/
def CoreState.event (s : CoreState) (a : SrcAnswer) : SrcAnswer :=
  match s.phase with
  | .idle => .noAnswer
  | .hunt => a
  | .body => a

/-- The word that decides a step with inputs `inp`. Reset overrides everything (the RESET row of the table); a START
counts in IDLE only, while busy it is ignored and the source event is processed (R212, R243); a READ is an access of its
own (log 2); otherwise the step is the micro-operation of the dispatch word (R97). -/
def wordOn (inp : Inputs) (s : CoreState) : Word :=
  if inp.host.reset then .resetin1 1
  else
    match inp.host.req with
    | .quiet => .dispatch14 (s.dispatchWord (s.event inp.answer))
    | .start => if s.phase = .idle then .cmd1 1 else .dispatch14 (s.dispatchWord (s.event inp.answer))
    | .read idx => .rdport9 idx

/-! ### The inputs that State lists (log 1) -/

/-- The host's side of this step: quiet once its list has run out. -/
def State.hostNow (s : State) : HostInput := s.host.headD { reset := false, req := .quiet }

/-- The inputs of this step. -/
def State.inputsNow (s : State) : Inputs := { host := s.hostNow, answer := s.answerNow, draw := s.freeCtr }

/-- `SrcNext()` (20_memory.md R61): the event of this step. -/
def State.eventNow (s : State) : SrcAnswer := s.event s.inputsNow.answer

/-- The word that decides this step. -/
def fetchWord (s : State) : Word := wordOn s.inputsNow s.toCoreState

/-- The step asks the Byte Source: it is a micro-operation in HUNT or BODY (R61). -/
def State.asks (s : State) : Bool :=
  match fetchWord s with
  | .dispatch14 _ => s.busy
  | _ => false

/-- The state after the step's inputs are taken: the host's side always, the source's answer if the step asks for it
("an event consumed is gone", R33, R61). A step of START, READ or RESET takes no answer (logs 2, 16). -/
def consume (s : State) : State := { s.took s.asks.toNat with host := s.host.tail }

/-! ### Presenting a word (log 11) -/

/-- The phase a dispatch word names. A word that names no phase in which its event can occur (IDLE or 3 with an event,
R97: cannot arise) is presented in HUNT. -/
def presentPhase (dw : BitVec 14) : Phase :=
  if dwPhase dw = 2#2 then .body
  else if dwPhase dw = 1#2 then .hunt
  else if dwEvent dw = 0#2 then .idle
  else .hunt

/-- The answer a dispatch word names. -/
def presentAnswer (dw : BitVec 14) : SrcAnswer :=
  if dwEvent dw = 1#2 then .byte (dwByte dw) else if dwEvent dw = 2#2 then .fail else .noAnswer

/-- The host's side of a step with neither reset nor request. -/
abbrev quietInput : HostInput := { reset := false, req := .quiet }

/-- BIDX as `last` says: 45, or not 45 (0 where it was 45). -/
def presentBidx (last : Bool) (bidx : BitVec 6) : BitVec 6 :=
  if last then 45#6 else if bidx = 45#6 then 0#6 else bidx

/-- BODY as `lenok` says: byte 0 is 44, or is not 44 (0 where it was 44). -/
def presentBody (lenok : Bool) (m : Memory) : Memory :=
  if lenok then m.write Config.offLen Config.lenConst
  else if m.read Config.offLen = Config.lenConst then m.write Config.offLen 0#8
  else m

/-- Present a dispatch word: PHASE, BIDX and BODY[0] as its bits say, its event the source's next answer. -/
def presentDispatch (dw : BitVec 14) (s : State) : State :=
  { s with
    phase := presentPhase dw
    bidx := presentBidx (dwLast dw) s.bidx
    body := presentBody (dwLenOk dw) s.body
    src := if presentPhase dw = .idle then s.src else presentAnswer dw :: s.src
    host := quietInput :: s.host }

/-- Present a word where the next step looks for it. -/
def present (w : Word) (s : State) : State :=
  match w with
  | .dispatch14 dw => presentDispatch dw s
  | .cmd1 cmd =>
    { s with
      phase := .idle
      host := (if cmd = 1 then { reset := false, req := .start } else quietInput) :: s.host }
  | .rdport9 idx => { s with host := { reset := false, req := .read idx } :: s.host }
  | .resetin1 r => { s with host := { reset := r == 1, req := .quiet } :: s.host }
  | .ops _ => s
  | .data47 bytes =>
    { s with phase := .hunt, src := bytes.map .byte ++ s.src, host := List.replicate bytes.length quietInput ++ s.host }
  | .data3 bytes =>
    { s with phase := .body, src := bytes.map .byte ++ s.src, host := List.replicate bytes.length quietInput ++ s.host }

/-- Present the word that `nbits` bits of the table stand for; no change where they stand for none. -/
def presentTableWord (s : State) (nbits w : Nat) : State :=
  match tableWord nbits w with
  | some word => present word s
  | none => s

end Sys2Proof.Machine
end

