-- ==== Sys2Proof/Machine/Relation.lean ====
section
/-! DEFINITION. The step relation over the core's own state: the configuration (R195) and the inputs of a step are, as R34
asks, "parameters of the step relation, not fields of the state"; and its runs under an arbitrary, infinite environment
(D12). -/

namespace Sys2Proof.Machine

/-- What an operation does in configuration `c`. `exec` is this in `Config.current`. -/
def execUnder (c : Config) (i : Instr) (s : State) : Result :=
  match i with
  | .wait => execWait s
  | .abort => execAbort s
  | .sync => execSync s
  | .discard b => execDiscard b s
  | .load b => execLoad b s
  | .commit b => commitUnder c b s
  | .reject b => execReject b s
  | .start => execStart s
  | .read idx => execRead idx s
  | .reset => execReset s
  | .findsync => findsyncUnder c s
  | .decodepacket => decodepacketUnder c s
  | .assemblescan => assemblescanUnder c s
  | .packet p => deliver c p.bytes s
  | .sample x => deliver c x.bytes s

/-- What one step of the core gives: its next state, in the step of a READ the read port's outputs (R99, R101), and how
many free values it drew. -/
structure StepResult where
  core   : CoreState
  answer : Option Point
  draws  : Nat
deriving DecidableEq, Repr

/-- A step without output that draws nothing. -/
def plainStep (r : CoreResult) : Host.Outcome StepResult Fault Refusal :=
  andThen r fun a => .next { core := a, answer := none, draws := 0 }

/-- What the operation of one step does to the core in configuration `c`, the next free value being number `draw`. A
macro-operation and a wire format are many steps (R102, R91, R92), never one. -/
def coreOp (c : Config) (draw : Nat) (i : Instr) (a : CoreState) : Host.Outcome StepResult Fault Refusal :=
  match i with
  | .wait => plainStep (coreWait a)
  | .abort => plainStep (coreAbort a)
  | .sync => plainStep (coreSync a)
  | .discard b => plainStep (coreDiscard b a)
  | .load b => plainStep (coreLoad b a)
  | .commit b => plainStep (coreCommit c b a)
  | .reject b => plainStep (coreReject b a)
  | .start => plainStep (coreStart a)
  | .read idx => .next { core := a, answer := some (readPort idx draw a), draws := readDraws idx a }
  | .reset => .next { core := resetCore draw, answer := none, draws := resetDraws }
  | .findsync => .refused (.notSelected "FINDSYNC")
  | .decodepacket => .refused (.notSelected "DECODEPACKET")
  | .assemblescan => .refused (.notSelected "ASSEMBLESCAN")
  | .packet _ => .refused (.notSelected "PACKET")
  | .sample _ => .refused (.notSelected "SAMPLE")

/-- THE STEP RELATION: one step of the core in configuration `c` with inputs `inp` (R6, R7, R34). Its state is the eight
elements of R20; everything else is a parameter. -/
def stepOn (c : Config) (inp : Inputs) (a : CoreState) : Host.Outcome StepResult Fault Refusal :=
  match decode (wordOn inp a) with
  | .ok i => coreOp c inp.draw i a
  | .error e => .refused (.undecodable e)

/-- The first `n` steps under the environment `env`, an arbitrary infinite sequence (D12): `env k` is the host's side of
the k-th step, what the source answers in it if it is asked, and the free value it draws if it draws one. -/
def runOn (c : Config) (env : Nat → Inputs) : Nat → CoreState → Host.Outcome CoreState Fault Refusal
  | 0, a => .next a
  | n + 1, a => andThen (runOn c env n a) fun b => andThen (stepOn c (env n) b) fun r => .next r.core

end Sys2Proof.Machine
end

