-- ==== Sys2Proof/Safety.lean ====
section
/-! DEFINITION. The invariants of the reachable states (10_state.md R37) and the words the statements use. -/

namespace Sys2Proof.Machine

/-- 10_state.md R37 (a) to (e), and the buffers in canonical form. R37 (f) is the closed types of PHASE and ERR. -/
structure Invariant (s : State) : Prop where
  /-- R37 (a): COUNT = 12 × PKT. -/
  count_eq : s.count.toNat = 12 * s.pkt.toNat
  /-- R37 (a): PKT ≤ 38. -/
  pkt_le : s.pkt.toNat ≤ 38
  /-- R37 (b). -/
  valid : s.scanValid = true → s.phase = .idle ∧ s.err = .noError ∧ s.pkt = 38#6 ∧ s.count = 456#9
  /-- R37 (c). -/
  failed : s.err ≠ .noError → s.phase = .idle ∧ s.scanValid = false ∧ s.pkt.toNat ≤ 37
  /-- R37 (d). -/
  running : s.phase ≠ .idle → s.err = .noError ∧ s.scanValid = false ∧ s.pkt.toNat ≤ 37
  /-- R37 (e). -/
  bidx_zero : s.phase ≠ .body → s.bidx = 0#6
  /-- R37 (e). -/
  bidx_le : s.bidx.toNat ≤ 45
  /-- BODY lists offsets 0..45 in canonical form. -/
  body_wf : s.body.wf = true
  /-- SCAN lists indices 0..455 in canonical form. -/
  scan_wf : s.scan.wf = true

/-- The eight elements of 10_state.md R20 are the same. -/
def SameCore (s t : State) : Prop :=
  t.phase = s.phase ∧ t.bidx = s.bidx ∧ t.pkt = s.pkt ∧ t.count = s.count ∧ t.err = s.err ∧
    t.scanValid = s.scanValid ∧ t.body = s.body ∧ t.scan = s.scan

/-- The model's own fields are the same: the inputs to come, the last read answer, the draw counter. -/
def SameEnv (s t : State) : Prop :=
  t.src = s.src ∧ t.srcLater = s.srcLater ∧ t.host = s.host ∧ t.readAnswer = s.readAnswer ∧ t.freeCtr = s.freeCtr

/-- Every byte of BODY reads the same. -/
def SameBody (s t : State) : Prop := ∀ k, t.body.read k = s.body.read k

/-- Every entry of SCAN reads the same. -/
def SameScan (s t : State) : Prop := ∀ k, t.scan.read k = s.scan.read k

/-- The bytes a stream delivers before its first `Fail`. -/
def bytesBeforeFail : List SrcAnswer → List Byte
  | [] => []
  | .noAnswer :: s => bytesBeforeFail s
  | .fail :: _ => []
  | .byte b :: s => b :: bytesBeforeFail s

/-- The operation the step at `s` runs, if the words fetched are one. -/
def running (s : State) : Option Instr :=
  match decode (fetchWord s) with
  | .ok i => some i
  | .error _ => none

end Sys2Proof.Machine
end

