-- ==== Sys2Proof/Certificates/Slice0/Obligations.lean ====
section
/-! DEFINITION. The statements for the provers. Each docstring names the rules of spec/ the statement rests on; where a
clause rests on a choice of the model it names the log entry. -/

open Sys2Proof Sys2Proof.Machine

/-! ### Encoding -/

/-- R91, R92, R97, R98, R99, R102, R270: no operand and no bit of an encoding is dropped, for every operation at every
operand. The words chosen for the macro-operations are the model's (log 18). -/
def Obligations.DecodingAnEncodedOperationGivesItBack : Prop :=
  ∀ i : Instr, i.wellFormed = true → decode (encode i) = .ok i

/-- R97, R98, R99, R270, R91, R92, R102: words written out bit by bit from the spec's encodings. The unit is the scenario
S6 of 95_test_vectors.md. -/
def Obligations.WrittenOutWordsDecode : Prop :=
  decode (.dispatch14 0b00000000000000) = .ok .wait ∧
  decode (.dispatch14 0b01100000000000) = .ok .abort ∧
  decode (.dispatch14 0b01010001010100) = .ok .sync ∧
  decode (.dispatch14 0b01010000101100) = .ok (.discard 0x2C) ∧
  decode (.dispatch14 0b10010001010100) = .ok (.load 0x54) ∧
  decode (.dispatch14 0b10011111111111) = .ok (.commit 0xFF) ∧
  decode (.dispatch14 0b10011001010100) = .ok (.reject 0x54) ∧
  decode (.cmd1 1) = .ok .start ∧
  decode (.rdport9 0b111000111) = .ok (.read 455) ∧
  decode (.resetin1 1) = .ok .reset ∧
  decode (.ops [.dispatch 0b01010000000000, .dispatch 0b01000000000000, .dispatch 0b01010001010100]) = .ok .findsync ∧
  decode (.data3 [0xE8, 0x03, 0x80]) = .ok (.sample { distance := 1000, intensity := 128 }) ∧
  decode (.data47 ([0x54, 0x2C, 0x00, 0x00, 0x00, 0x00] ++ (List.replicate 12 [0xE8, 0x03, 0x80]).flatten ++
      [0x28, 0x23, 0x00, 0x00, 0x00])) =
    .ok (.packet { speed := 0, a0 := 0, samples := List.replicate 12 { distance := 1000, intensity := 128 }, a1 := 9000,
                   tail0 := 0, tail1 := 0, tail2 := 0 })

/-- R97: of the seven rows only SYNC and DISCARD (rows 2 and 3, counted from 0) take a word in common, so the order of
the table matters only there. -/
def Obligations.DispatchRowsOverlapOnlyAtSyncAndDiscard : Prop :=
  ∀ (dw : BitVec 14) (i j : Nat) (r q : DispatchRow), dispatchRows[i]? = some r → dispatchRows[j]? = some q → i < j →
    r.takes dw = true → q.takes dw = true → i = 2 ∧ j = 3

/-- R97, R90, R92, R94, R98, R102, R270: a word that no row of its format takes is rejected by the name of its reason.
The names are the model's, and so is it that the words R97 calls impossible but a row takes (no event with phase 3, Fail
with phase IDLE or 3) decode by that row (log 10). -/
def Obligations.WordsThatNoRowTakesAreRejectedByName : Prop :=
  (∀ dw : BitVec 14, dwEvent dw = 3#2 → decode (.dispatch14 dw) = .error .eventReserved) ∧
  (∀ dw : BitVec 14, dwEvent dw = 1#2 → dwPhase dw = 3#2 → decode (.dispatch14 dw) = .error .phaseReserved) ∧
  (∀ dw : BitVec 14, dwEvent dw = 1#2 → dwPhase dw = 0#2 → decode (.dispatch14 dw) = .error .byteWhileIdle) ∧
  (∀ dw : BitVec 14, dwEvent dw = 0#2 → decode (.dispatch14 dw) = .ok .wait) ∧
  (∀ dw : BitVec 14, dwEvent dw = 2#2 → decode (.dispatch14 dw) = .ok .abort) ∧
  decode (.cmd1 0) = .error .noCommand ∧
  decode (.resetin1 0) = .error .resetNotAsserted ∧
  (∀ bytes : List Byte, bytes.length ≠ 47 → decode (.data47 bytes) = .error (.unitLength bytes.length)) ∧
  (∀ (b : Byte) (rest : List Byte), rest.length = 46 → b ≠ 0x54#8 →
    decode (.data47 (b :: rest)) = .error (.missingSync b)) ∧
  (∀ (b : Byte) (rest : List Byte), rest.length = 45 → b ≠ 44#8 →
    decode (.data47 (0x54 :: b :: rest)) = .error (.badLengthByte b)) ∧
  (∀ bytes : List Byte, bytes.length ≠ 3 → decode (.data3 bytes) = .error (.sampleLength bytes.length)) ∧
  (∀ ws : List OpWord, (∀ i, decode (.ops ws) ≠ .ok i) → decode (.ops ws) = .error .unknownExpansion) ∧
  decode (.ops []) = .error .unknownExpansion

/-- R97: the dispatch word's fields; its rows, tried from the top, and no operation where none takes the word; the row a
state and its event select; that the words R97 calls impossible do not arise; and that a step in which the host does
nothing is the word's micro-operation. -/
def Obligations.DispatchWordSelectsTheMicroOperation : Prop :=
  (∀ dw : BitVec 14, (decode (.dispatch14 dw)).toOption =
    if dw &&& 0x0C00 = 0x0000 then some .wait
    else if dw &&& 0x0C00 = 0x0800 then some .abort
    else if dw &&& 0x3CFF = 0x1454 then some .sync
    else if dw &&& 0x3C00 = 0x1400 then some (.discard (dwByte dw))
    else if dw &&& 0x3E00 = 0x2400 then some (.load (dwByte dw))
    else if dw &&& 0x3F00 = 0x2700 then some (.commit (dwByte dw))
    else if dw &&& 0x3F00 = 0x2600 then some (.reject (dwByte dw))
    else none) ∧
  ∀ s : State,
    let dw := s.dispatchWord s.eventNow
    (dwPhase dw = s.phase.code ∧ dwEvent dw = s.eventNow.code ∧ dwLast dw = decide (s.bidx = 45#6) ∧
      dwLenOk dw = decide (s.body.read 0 = 44#8) ∧ dwByte dw = s.eventNow.data) ∧
    (dwEvent dw ≠ 3#2 ∧ dwPhase dw ≠ 3#2 ∧ (s.phase = .idle → dwEvent dw = 0#2)) ∧
    (s.hostNow = quietInput → fetchWord s = .dispatch14 dw) ∧
    decode (.dispatch14 dw) =
      .ok (match s.phase, s.eventNow with
        | _, .noAnswer => .wait
        | _, .fail => .abort
        | .idle, .byte _ => .wait
        | .hunt, .byte b => if b = 0x54#8 then .sync else .discard b
        | .body, .byte b =>
          if s.bidx ≠ 45#6 then .load b else if s.body.read 0 = 44#8 then .commit b else .reject b)

/-- R97, R98, R99, R270: whatever the state, what the core is presented with is an operation, a well-formed one. -/
def Obligations.EveryFetchedWordIsAnOperation : Prop :=
  ∀ s : State, ∃ i, decode (fetchWord s) = .ok i ∧ i.wellFormed = true

/-- R7, R61, R33: a step runs the operation decoded, on the state with the step's inputs taken: the host's side always,
the source's answer exactly when the step is a micro-operation in HUNT or BODY. How inputs are listed is the model's
(logs 1, 2). -/
def Obligations.StepRunsTheDecodedOperation : Prop :=
  ∀ (s : State) (i : Instr), decode (fetchWord s) = .ok i →
    step s = exec i (consume s) ∧ SameCore s (consume s) ∧
      (consume s).host = s.host.tail ∧
      (consume s).src = (if (∃ dw, fetchWord s = .dispatch14 dw) ∧ s.phase ≠ .idle then s.src.tail else s.src) ∧
      (consume s).srcLater =
        (if ((∃ dw, fetchWord s = .dispatch14 dw) ∧ s.phase ≠ .idle) ∧ s.src = [] then s.srcLater.next else s.srcLater) ∧
      (consume s).readAnswer = s.readAnswer ∧ (consume s).freeCtr = s.freeCtr

/-- R34, R9, R195: the machine's step is the step relation `stepOn` at the inputs that the environment gives the step
(log 1), in the machine's own configuration (log 7). More: in every configuration, the operation that a step decodes does
to the core, whatever environment it is closed off with, what `coreOp` says of the eight elements alone; it gives the read
port that operation's outputs, draws as many free values, and touches none of the inputs to come. -/
def Obligations.StepIsTheStepRelationAtItsInputs : Prop :=
  (∀ (i : Instr) (s : State), exec i s = execUnder Config.current i s) ∧
  (∀ s : State, step s = andThen (stepOn Config.current s.inputsNow s.toCoreState) fun r =>
    .next { consume s with
            toCoreState := r.core, readAnswer := r.answer <|> s.readAnswer, freeCtr := s.freeCtr + r.draws }) ∧
  (∀ (c : Config) (inp : Inputs) (i : Instr) (s : State), decode (wordOn inp s.toCoreState) = .ok i →
    execUnder c i s = andThen (coreOp c s.freeCtr i s.toCoreState) fun r =>
      .next { s with toCoreState := r.core, readAnswer := r.answer <|> s.readAnswer, freeCtr := s.freeCtr + r.draws })

/-- How a word is presented (log 11, the model's choice): every dispatch word R97 allows is the one the next step
fetches. -/
def Obligations.PresentedWordIsFetched : Prop :=
  (∀ (s : State) (dw : BitVec 14), s.body.wf = true → dwEvent dw ≠ 3#2 → dwPhase dw ≠ 3#2 →
    (dwPhase dw = 0#2 → dwEvent dw = 0#2) → (dwEvent dw ≠ 1#2 → dwByte dw = 0#8) →
    fetchWord (s.withFetchWord 16 dw.toNat) = .dispatch14 dw) ∧
  (∀ s : State, fetchWord (s.withFetchWord 8 1) = .cmd1 1)

/-! ### Invariants -/

/-- R36: the control elements after reset; the core reports neither a scan nor an error. -/
def Obligations.ResetStateHasTheSpecsValues : Prop :=
  State.reset.phase = .idle ∧ State.reset.bidx = 0#6 ∧ State.reset.pkt = 0#6 ∧ State.reset.count = 0#9 ∧
    State.reset.err = .noError ∧ State.reset.scanValid = false ∧ State.reset.busy = false ∧ State.reset.done = false ∧
    State.reset.failed = false

/-- R37 at reset. The values of BODY and SCAN there are the model's (log 3). -/
def Obligations.ResetStateMeetsTheInvariant : Prop := Invariant State.reset

/-- R37 (a) to (e), and the buffers' canonical form, kept by every step of every state. -/
def Obligations.StepKeepsTheInvariant : Prop :=
  ∀ s t : State, Invariant s → step s = .next t → Invariant t

/-- R257, R65, R97: in a state that meets R37 no step stops: no operation is refused, no address is outside its buffer. -/
def Obligations.StepNeverStopsUnderTheInvariant : Prop :=
  ∀ s : State, Invariant s → ∃ t, step s = .next t

/-! ### Micro-operations -/

/-- R133: WAIT changes no element, as an operation and as a step without an event. -/
def Obligations.WaitChangesNothing : Prop :=
  ∀ s : State, exec .wait s = .next s ∧
    (s.hostNow = quietInput → s.eventNow = .noAnswer → ∃ t, step s = .next t ∧ SameCore s t)

/-- R131: DISCARD changes no element. -/
def Obligations.DiscardChangesNothing : Prop :=
  ∀ (s : State) (b : Byte), s.phase = .hunt → b ≠ 0x54#8 → exec (.discard b) s = .next s

/-- R132: SYNC enters BODY at offset 0 and changes nothing else. -/
def Obligations.SyncEntersBodyAtOffsetZero : Prop :=
  ∀ s : State, s.phase = .hunt → ∃ t, exec .sync s = .next t ∧
    t.phase = .body ∧ t.bidx = 0#6 ∧ t.pkt = s.pkt ∧ t.count = s.count ∧ t.err = s.err ∧ t.scanValid = s.scanValid ∧
    SameBody s t ∧ SameScan s t ∧ SameEnv s t

/-- R134: ABORT raises IoError wherever an event is asked for, and changes nothing but ERR, PHASE, BIDX. -/
def Obligations.AbortRaisesIoError : Prop :=
  ∀ s : State, s.phase ≠ .idle → ∃ t, exec .abort s = .next t ∧
    t.err = .ioError ∧ t.phase = .idle ∧ t.bidx = 0#6 ∧ t.pkt = s.pkt ∧ t.count = s.count ∧ t.scanValid = s.scanValid ∧
    SameBody s t ∧ SameScan s t ∧ SameEnv s t

/-- R151: LOAD stores its byte at BIDX, advances BIDX and changes nothing else. -/
def Obligations.LoadStoresItsByteAndAdvances : Prop :=
  ∀ (s : State) (b : Byte), s.body.wf = true → s.phase = .body → s.bidx.toNat < 45 → ∃ t, exec (.load b) s = .next t ∧
    t.body.read s.bidx.toNat = b ∧ (∀ k, k ≠ s.bidx.toNat → t.body.read k = s.body.read k) ∧
    t.bidx.toNat = s.bidx.toNat + 1 ∧ t.phase = s.phase ∧ t.pkt = s.pkt ∧ t.count = s.count ∧ t.err = s.err ∧
    t.scanValid = s.scanValid ∧ SameScan s t ∧ SameEnv s t

/-- R154: REJECT stores byte 45 and raises InvalidLength; no Point is written. -/
def Obligations.RejectRaisesInvalidLength : Prop :=
  ∀ (s : State) (b : Byte), s.body.wf = true → s.phase = .body → s.bidx = 45#6 → s.body.read 0 ≠ 44#8 →
    ∃ t, exec (.reject b) s = .next t ∧
      t.body.read 45 = b ∧ (∀ k, k ≠ 45 → t.body.read k = s.body.read k) ∧
      t.err = .invalidLength ∧ t.phase = .idle ∧ t.bidx = 0#6 ∧ t.pkt = s.pkt ∧ t.count = s.count ∧
      t.scanValid = s.scanValid ∧ SameScan s t ∧ SameEnv s t

/-- R213: COMMIT stores byte 45, appends the body's twelve Points at COUNT, counts the packet, and hands over after the
38th. -/
def Obligations.CommitAppendsTwelvePoints : Prop :=
  ∀ (s : State) (b : Byte), Invariant s → s.phase = .body → s.bidx = 45#6 → s.body.read 0 = 44#8 →
    ∃ t, exec (.commit b) s = .next t ∧
      t.body.read 45 = b ∧ (∀ k, k ≠ 45 → t.body.read k = s.body.read k) ∧
      (∀ i, i < 12 → t.scan.read (s.count.toNat + i) =
        { angle := angle .binary64 (le16 (s.body.read 3) (s.body.read 4)) (le16 (s.body.read 41) (s.body.read 42)) i
          distance := le16 (s.body.read (5 + 3 * i)) (s.body.read (6 + 3 * i))
          intensity := s.body.read (7 + 3 * i) }) ∧
      (∀ k, k < s.count.toNat ∨ s.count.toNat + 12 ≤ k → t.scan.read k = s.scan.read k) ∧
      t.count.toNat = s.count.toNat + 12 ∧ t.pkt.toNat = s.pkt.toNat + 1 ∧ t.bidx = 0#6 ∧
      (s.pkt.toNat + 1 = 38 → t.phase = .idle ∧ t.scanValid = true) ∧
      (s.pkt.toNat + 1 ≠ 38 → t.phase = .hunt ∧ t.scanValid = s.scanValid) ∧
      t.err = s.err ∧ SameEnv s t

/-- R97 names the condition of each micro-operation, R102, R130 and R150 the phase of FINDSYNC and DECODEPACKET; outside it
each of these is refused by name (the refusal is the model's, log 9). START and ASSEMBLESCAN are not among them: outside
IDLE they are ignored (R212). -/
def Obligations.MicroOperationOrDecoderMacroOutsideItsConditionIsRefused : Prop :=
  ∀ (s : State) (b : Byte),
    (s.phase = .idle → exec .abort s = .refused (.notSelected "ABORT")) ∧
    (s.phase ≠ .hunt → exec .sync s = .refused (.notSelected "SYNC")) ∧
    (s.phase ≠ .hunt ∨ b = 0x54#8 → exec (.discard b) s = .refused (.notSelected "DISCARD")) ∧
    (s.phase ≠ .body ∨ s.bidx = 45#6 → exec (.load b) s = .refused (.notSelected "LOAD")) ∧
    (s.phase ≠ .body ∨ s.bidx ≠ 45#6 ∨ s.body.read 0 ≠ 44#8 → exec (.commit b) s = .refused (.notSelected "COMMIT")) ∧
    (s.phase ≠ .body ∨ s.bidx ≠ 45#6 ∨ s.body.read 0 = 44#8 → exec (.reject b) s = .refused (.notSelected "REJECT")) ∧
    (s.phase ≠ .hunt → exec .findsync s = .refused (.notSelected "FINDSYNC")) ∧
    (s.phase ≠ .body → exec .decodepacket s = .refused (.notSelected "DECODEPACKET"))

/-- R60: BODY has offsets 0..45 and SCAN indices 0..455; a store outside faults (log 15, states no run reaches). -/
def Obligations.StoreOutsideItsBufferFaults : Prop :=
  ∀ (s : State) (b : Byte), s.phase = .body →
    (46 ≤ s.bidx.toNat → exec (.load b) s = .fault (.bodyOffset s.bidx.toNat)) ∧
    (s.bidx = 45#6 → s.body.read 0 = 44#8 → 445 ≤ s.count.toNat →
      exec (.commit b) s = .fault (.scanIndex (s.count.toNat + 11)))

/-! ### Command, access, reset -/

/-- R211: an accepted START begins a fresh assembly and touches neither buffer nor the stream. -/
def Obligations.StartBeginsFreshAssembly : Prop :=
  ∀ s : State, s.phase = .idle → ∃ t, exec .start s = .next t ∧
    t.phase = .hunt ∧ t.bidx = 0#6 ∧ t.pkt = 0#6 ∧ t.count = 0#9 ∧ t.err = .noError ∧ t.scanValid = false ∧
    SameBody s t ∧ SameScan s t ∧ SameEnv s t

/-- R212 (and R243): a START while busy changes nothing, and a step with one is the step without it. -/
def Obligations.StartWhileBusyIsIgnored : Prop :=
  ∀ (s : State) (later : List HostInput), s.phase ≠ .idle →
    exec .start s = .next s ∧
    step { s with host := { reset := false, req := .start } :: later } = step { s with host := quietInput :: later }

/-- R217: READ returns the stored Point when SCAN_VALID = 1 and the index names an entry, otherwise some value of which
nothing is said; it changes no element and always answers. -/
def Obligations.ReadReturnsTheStoredPoint : Prop :=
  ∀ (s : State) (idx : BitVec 9), ∃ t p, exec (.read idx) s = .next t ∧ SameCore s t ∧ t.src = s.src ∧
    t.srcLater = s.srcLater ∧ t.host = s.host ∧ t.readAnswer = some p ∧
    (s.scanValid = true ∧ idx.toNat ≤ 455 → p = s.scan.read idx.toNat ∧ t.freeCtr = s.freeCtr)

/-- A READ outside its condition gives three free values and draws the next number (U1; the form is the model's, log 5). -/
def Obligations.ReadOutsideItsConditionGivesAFreeValue : Prop :=
  ∀ (s : State) (idx : BitVec 9), s.scanValid = false ∨ 456 ≤ idx.toNat → ∃ t, exec (.read idx) s = .next t ∧
    t.readAnswer = some { angle := Config.freeAngle s.freeCtr, distance := Config.freeDistance s.freeCtr,
                          intensity := Config.freeIntensity s.freeCtr } ∧
    t.freeCtr = s.freeCtr + 1 ∧ SameCore s t ∧ t.src = s.src ∧ t.srcLater = s.srcLater ∧ t.host = s.host

/-- R270: RESET puts every control element at its reset value whatever the state was, and does not touch the stream;
the core then reports neither a scan nor an error (R271). -/
def Obligations.ResetPutsEveryControlElementAtItsResetValue : Prop :=
  ∀ s : State, ∃ t, exec .reset s = .next t ∧
    t.phase = .idle ∧ t.bidx = 0#6 ∧ t.pkt = 0#6 ∧ t.count = 0#9 ∧ t.err = .noError ∧ t.scanValid = false ∧
    t.src = s.src ∧ t.srcLater = s.srcLater ∧ t.host = s.host ∧ t.busy = false ∧ t.done = false ∧ t.failed = false

/-- After RESET every byte of BODY and every Point of SCAN is a free value, and both buffers are canonical. That
"unspecified" (R36, U2) is a free value is the model's (log 4), and so is it that the last READ's outputs stay
(log 6). -/
def Obligations.ResetLeavesTheBuffersUnspecified : Prop :=
  ∀ s : State, ∃ t, exec .reset s = .next t ∧
    (∀ k, k < 46 → t.body.read k = Config.freeByte (s.freeCtr + k)) ∧
    (∀ k, k < 456 → t.scan.read k = { angle := Config.freeAngle (s.freeCtr + k)
                                      distance := Config.freeDistance (s.freeCtr + k)
                                      intensity := Config.freeIntensity (s.freeCtr + k) }) ∧
    t.body.wf = true ∧ t.scan.wf = true ∧ t.readAnswer = s.readAnswer

/-- The RESET row of the opcode table: asserted, the reset input overrides every other operation of its step, whatever
the state, the request and the source's answer. That the answer stays the next one is the model's (log 16). -/
def Obligations.AssertedResetOverridesItsStep : Prop :=
  ∀ s : State, s.hostNow.reset = true → step s = exec .reset { s with host := s.host.tail }

/-! ### Macro-operations and wire formats -/

/-- R130, R138: FINDSYNC takes the first `n` coming answers, listed or later, and does what `findSync` says of them: on
`ok` PHASE = BODY at offset 0, on `IoError` the error entry, in both with the stream that remains after those; and where
it waits, all the listed answers are taken and however many more come there is no result. (That the operation answers the
waiting state is the model's, log 14.) -/
def Obligations.FindsyncFollowsItsContract : Prop :=
  ∀ s : State, s.phase = .hunt → ∃ t n, exec .findsync s = .next t ∧
    t.src = s.src.drop n ∧ t.srcLater = s.srcLater.after (n - s.src.length) ∧
    t.pkt = s.pkt ∧ t.count = s.count ∧ t.scanValid = s.scanValid ∧ SameBody s t ∧ SameScan s t ∧
    t.host = s.host ∧ t.readAnswer = s.readAnswer ∧ t.freeCtr = s.freeCtr ∧
    match findSync (s.answers n) with
    | .ok rest => rest = [] ∧ t.phase = .body ∧ t.bidx = 0#6 ∧ t.err = s.err
    | .ioError rest => rest = [] ∧ t.phase = .idle ∧ t.bidx = 0#6 ∧ t.err = .ioError
    | .waiting =>
      s.src.length ≤ n ∧ (∀ m, findSync (s.answers m) = .waiting) ∧ t.phase = .hunt ∧ t.bidx = s.bidx ∧ t.err = s.err

/-- R150, R138: DECODEPACKET, begun immediately after a consumed sync byte (BIDX = 0), takes the first `n` coming
answers, listed or later, and does what `decodePacket` says of them: its twelve Points on `ok`, the error entry and no
Point on either error; and where it waits, all the listed answers are taken and however many more come there is no
result. In every case BODY holds the bytes that came before a `Fail`, at offsets 0, 1, .., and its other bytes as before.
(That the operation answers the waiting state is the model's, log 14.) -/
def Obligations.DecodepacketFollowsItsContract : Prop :=
  ∀ s : State, Invariant s → s.phase = .body → s.bidx = 0#6 → ∃ t n, exec .decodepacket s = .next t ∧
    t.src = s.src.drop n ∧ t.srcLater = s.srcLater.after (n - s.src.length) ∧
    t.host = s.host ∧ t.readAnswer = s.readAnswer ∧ t.freeCtr = s.freeCtr ∧
    (∀ k, k < 46 → t.body.read k = (bytesBeforeFail (s.answers n))[k]?.getD (s.body.read k)) ∧
    match decodePacket Config.current (s.answers n) with
    | .ok pts rest =>
      rest = [] ∧ pts.length = 12 ∧ (∀ i, i < 12 → some (t.scan.read (s.count.toNat + i)) = pts[i]?) ∧
      (∀ k, k < s.count.toNat ∨ s.count.toNat + 12 ≤ k → t.scan.read k = s.scan.read k) ∧
      t.count.toNat = s.count.toNat + 12 ∧ t.pkt.toNat = s.pkt.toNat + 1 ∧ t.err = .noError ∧ t.bidx = 0#6 ∧
      t.phase = (if s.pkt.toNat + 1 = 38 then .idle else .hunt) ∧ t.scanValid = decide (s.pkt.toNat + 1 = 38)
    | .ioError rest =>
      rest = [] ∧ t.err = .ioError ∧ t.phase = .idle ∧ t.bidx = 0#6 ∧ t.pkt = s.pkt ∧ t.count = s.count ∧
      t.scanValid = false ∧ SameScan s t
    | .invalidLength rest =>
      rest = [] ∧ t.err = .invalidLength ∧ t.phase = .idle ∧ t.bidx = 0#6 ∧ t.pkt = s.pkt ∧ t.count = s.count ∧
      t.scanValid = false ∧ SameScan s t
    | .waiting =>
      s.src.length ≤ n ∧ (∀ m, decodePacket Config.current (s.answers m) = .waiting) ∧ t.err = .noError ∧
      t.phase = .body ∧ t.bidx.toNat = (bytesBeforeFail (s.answers n)).length ∧ t.pkt = s.pkt ∧ t.count = s.count ∧
      t.scanValid = false ∧ SameScan s t

/-- R210, R138: ASSEMBLESCAN from IDLE takes the first `n` coming answers, listed or later, and does what `assembleScan`
says of them, in the three result states R210 names; where it does not return the assembly is still running, all the
listed answers are taken and however many more come there is no result. In every case COUNT is 12 for each committed
packet and the entries of SCAN from COUNT on are as before. (That the operation answers the waiting state is the model's,
log 14.) -/
def Obligations.AssemblescanFollowsItsContract : Prop :=
  ∀ s : State, Invariant s → s.phase = .idle → ∃ t n, exec .assemblescan s = .next t ∧
    t.src = s.src.drop n ∧ t.srcLater = s.srcLater.after (n - s.src.length) ∧
    t.host = s.host ∧ t.readAnswer = s.readAnswer ∧ t.freeCtr = s.freeCtr ∧ t.count.toNat = 12 * t.pkt.toNat ∧
    (∀ k, t.count.toNat ≤ k → t.scan.read k = s.scan.read k) ∧
    match assembleScan Config.current (s.answers n) with
    | .ok scan rest =>
      rest = [] ∧ t.phase = .idle ∧ t.scanValid = true ∧ t.err = .noError ∧ t.count = 456#9 ∧ scan.length = 456 ∧
      (∀ k, k < 456 → some (t.scan.read k) = scan[k]?)
    | .ioError rest => rest = [] ∧ t.phase = .idle ∧ t.scanValid = false ∧ t.err = .ioError
    | .invalidLength rest => rest = [] ∧ t.phase = .idle ∧ t.scanValid = false ∧ t.err = .invalidLength
    | .waiting =>
      s.src.length ≤ n ∧ (∀ m, assembleScan Config.current (s.answers m) = .waiting) ∧ t.phase ≠ .idle ∧
      t.scanValid = false ∧ t.err = .noError

/-- R212 through R102: an ASSEMBLESCAN while an assembly runs changes nothing (log 14). -/
def Obligations.AssemblescanWhileBusyChangesNothing : Prop :=
  ∀ s : State, s.phase ≠ .idle → exec .assemblescan s = .next s

/-- R8, R138: for every stream, running the step level from START, one source answer a step, until PHASE returns to IDLE
yields the state of the contract level; where ASSEMBLESCAN does not return, no number of steps brings IDLE. (That
ASSEMBLESCAN answers a state on the way there is the model's, log 14.) -/
def Obligations.StepLevelRealisesContractLevel : Prop :=
  ∀ s : State, Invariant s → s.phase = .idle → s.host = [{ reset := false, req := .start }] →
    ∃ t n, exec .assemblescan { s with host := [] } = .next t ∧ t.src = s.src.drop n ∧
      t.srcLater = s.srcLater.after (n - s.src.length) ∧ core.run (1 + n) s = .next t ∧
      (∀ m, m < n → ∃ u : State, core.run (1 + m) s = .next u ∧ u.phase ≠ .idle) ∧
      (t.phase ≠ .idle → ∀ m, ∃ u : State, core.run (1 + m) s = .next u ∧ u.phase ≠ .idle)

/-- R102, R97, R138: a macro-operation and a delivered unit or sample block are the micro-operations that the same
answers select one step at a time, from every state and at every BIDX; a FINDSYNC in HUNT and a DECODEPACKET in BODY
leave their phase with the last of these steps, or never. That a wire format means its delivery is the model's (log 13),
and so is it that FINDSYNC and DECODEPACKET answer a state where they never return (log 14) and that DECODEPACKET goes on
with a body under way (log 19). -/
def Obligations.CompoundOperationsAreStepSequences : Prop :=
  ∀ s : State, Invariant s → s.host = [] →
    (s.phase = .hunt → ∃ t n, exec .findsync s = .next t ∧ t.src = s.src.drop n ∧
      t.srcLater = s.srcLater.after (n - s.src.length) ∧ core.run n s = .next t ∧
      (∀ m, m < n → ∃ u : State, core.run m s = .next u ∧ u.phase = .hunt) ∧
      (t.phase = .hunt → ∀ m, ∃ u : State, core.run m s = .next u ∧ u.phase = .hunt)) ∧
    (s.phase = .body → ∃ t n, exec .decodepacket s = .next t ∧ t.src = s.src.drop n ∧
      t.srcLater = s.srcLater.after (n - s.src.length) ∧ core.run n s = .next t ∧
      (∀ m, m < n → ∃ u : State, core.run m s = .next u ∧ u.phase = .body) ∧
      (t.phase = .body → ∀ m, ∃ u : State, core.run m s = .next u ∧ u.phase = .body)) ∧
    (∀ p : PacketFields, ∃ t, exec (.packet p) s = .next t ∧ t.src.length ≤ p.bytes.length + s.src.length ∧
      core.run (p.bytes.length + s.src.length - t.src.length)
        { s with src := p.bytes.map .byte ++ s.src } = .next t) ∧
    (∀ x : Sample, ∃ t, exec (.sample x) s = .next t ∧ t.src.length ≤ 3 + s.src.length ∧
      core.run (3 + s.src.length - t.src.length) { s with src := x.bytes.map .byte ++ s.src } = .next t)

/-- R91, R93, R157, R213, R215: a PACKET met in HUNT gives the twelve Points of its own fields, whatever its speed and
trailing bytes (R95). That a PACKET means its delivery is the model's (log 13). -/
def Obligations.PacketInHuntGivesThePointsOfItsFields : Prop :=
  ∀ (s : State) (p : PacketFields), Invariant s → s.phase = .hunt → p.wellFormed = true → ∃ t, exec (.packet p) s = .next t ∧
    (∀ i, i < 12 → some (t.scan.read (s.count.toNat + i)) =
      (p.samples[i]?).map fun x =>
        ({ angle := angle .binary64 p.a0 p.a1 i, distance := x.distance, intensity := x.intensity } : Point)) ∧
    (∀ k, k < s.count.toNat ∨ s.count.toNat + 12 ≤ k → t.scan.read k = s.scan.read k) ∧
    (∀ k, k < 46 → t.body.read k = (p.bodyWith 44).getD k 0) ∧
    t.count.toNat = s.count.toNat + 12 ∧ t.pkt.toNat = s.pkt.toNat + 1 ∧ t.bidx = 0#6 ∧ t.err = s.err ∧
    (s.pkt.toNat + 1 = 38 → t.phase = .idle ∧ t.scanValid = true) ∧
    (s.pkt.toNat + 1 ≠ 38 → t.phase = .hunt ∧ t.scanValid = false) ∧ SameEnv s t

/-- R92: a SAMPLE met in BODY is loaded at BIDX, distance low byte first; at offset 5 + 3i it is sample i of the body.
That a SAMPLE means its delivery is the model's (log 13). -/
def Obligations.SampleInBodyLoadsThreeBytes : Prop :=
  ∀ (s : State) (x : Sample), s.body.wf = true → s.phase = .body → s.bidx.toNat + 3 ≤ 45 →
    ∃ t, exec (.sample x) s = .next t ∧
      t.body.read s.bidx.toNat = lo x.distance ∧ t.body.read (s.bidx.toNat + 1) = hi x.distance ∧
      t.body.read (s.bidx.toNat + 2) = x.intensity ∧
      (∀ k, k < s.bidx.toNat ∨ s.bidx.toNat + 3 ≤ k → t.body.read k = s.body.read k) ∧
      (∀ i, s.bidx.toNat = 5 + 3 * i →
        fieldDistance t.body.read i = x.distance ∧ fieldIntensity t.body.read i = x.intensity) ∧
      t.bidx.toNat = s.bidx.toNat + 3 ∧ t.phase = .body ∧ t.pkt = s.pkt ∧ t.count = s.count ∧ t.err = s.err ∧
      t.scanValid = s.scanValid ∧ SameScan s t ∧ SameEnv s t

/-- R61: in IDLE the core asks for nothing, so the bytes of a PACKET or a SAMPLE stay the next answers (that they are
kept is the model's, log 13). -/
def Obligations.WireBytesWaitWhileIdle : Prop :=
  ∀ (s : State) (p : PacketFields) (x : Sample), s.phase = .idle →
    exec (.packet p) s = .next { s with src := p.bytes.map .byte ++ s.src } ∧
    exec (.sample x) s = .next { s with src := x.bytes.map .byte ++ s.src }

/-! ### Rules about every step -/

/-- R25: ERR is set only by ABORT and REJECT, cleared only by START and RESET, and holds its value in every other step. -/
def Obligations.ErrIsWrittenOnlyByFourOperations : Prop :=
  ∀ s t : State, step s = .next t →
    match running s with
    | some .abort => t.err = .ioError
    | some (.reject _) => t.err = .invalidLength
    | some .start => t.err = .noError
    | some .reset => t.err = .noError
    | _ => t.err = s.err

/-- R26: SCAN_VALID is set only by the COMMIT of the 38th packet and cleared only by START and RESET. -/
def Obligations.ScanValidIsSetOnlyByTheLastCommit : Prop :=
  ∀ s t : State, step s = .next t →
    (s.scanValid = false → t.scanValid = true → ∃ b, running s = some (.commit b) ∧ s.pkt = 37#6) ∧
    (s.scanValid = true → t.scanValid = false → running s = some .start ∨ running s = some .reset)

/-- R218: while SCAN_VALID = 1, every step but START and RESET leaves SCAN and SCAN_VALID alone, and every READ of an
entry returns that entry. -/
def Obligations.SnapshotHoldsUntilTheNextStart : Prop :=
  ∀ s t : State, Invariant s → s.scanValid = true → step s = .next t → running s ≠ some .start → running s ≠ some .reset →
    t.scan = s.scan ∧ t.scanValid = true ∧
    ∀ idx : BitVec 9, running s = some (.read idx) → idx.toNat ≤ 455 → t.readAnswer = some (s.scan.read idx.toNat)

/-- R246: no step leaves IDLE but START. -/
def Obligations.OnlyStartLeavesIdle : Prop :=
  ∀ s t : State, s.phase = .idle → step s = .next t → t.phase ≠ .idle → running s = some .start

/-- R257: an assembly ends by its 38th COMMIT, by an IoError, by an InvalidLength or by reset, and by nothing else; on
an error 0..37 packets were committed. -/
def Obligations.AssemblyEndsInOneOfFourWays : Prop :=
  ∀ s t : State, Invariant s → s.busy = true → step s = .next t → t.busy = false →
    (∃ b, running s = some (.commit b) ∧ s.pkt = 37#6 ∧ t.done = true ∧ t.count = 456#9) ∨
    (running s = some .abort ∧ t.err = .ioError ∧ t.failed = true ∧ t.pkt = s.pkt ∧ t.pkt.toNat ≤ 37) ∨
    (∃ b, running s = some (.reject b) ∧ t.err = .invalidLength ∧ t.failed = true ∧ t.pkt = s.pkt ∧ t.pkt.toNat ≤ 37) ∨
    (running s = some .reset ∧ t.done = false ∧ t.failed = false)

/-- R61: in IDLE a step consumes no event; in HUNT and BODY a step without reset or READ consumes exactly the next. -/
def Obligations.EventsAreConsumedOnlyWhileBusy : Prop :=
  ∀ s t : State, step s = .next t →
    (s.phase = .idle → t.src = s.src ∧ t.srcLater = s.srcLater) ∧
    (s.phase ≠ .idle → s.hostNow = quietInput →
      t.src = s.src.tail ∧ t.srcLater = if s.src = [] then s.srcLater.next else s.srcLater)

/-- R28, R245: only COMMIT and RESET write SCAN, and a COMMIT never rewrites an entry below COUNT. -/
def Obligations.PointsOfAnAssemblyAreImmutable : Prop :=
  ∀ s t : State, Invariant s → step s = .next t →
    (running s ≠ some .reset → ∀ k, k < s.count.toNat → t.scan.read k = s.scan.read k) ∧
    ((∀ b, running s ≠ some (.commit b)) → running s ≠ some .reset → t.scan = s.scan)

/-- R35: after START nothing of the state before it reaches a result: two cores that differ in everything but the stream
and the host agree, after the same steps, in every control element, and, once SCAN_VALID = 1, in every entry of SCAN. -/
def Obligations.EarlierStateNeverReachesAResult : Prop :=
  ∀ (s₁ s₂ : State) (later : List HostInput) (n : Nat) (t₁ : State), Invariant s₁ → Invariant s₂ →
    s₁.phase = .idle → s₂.phase = .idle → s₁.src = s₂.src → s₁.srcLater = s₂.srcLater →
    s₁.host = { reset := false, req := .start } :: later → s₂.host = s₁.host →
    core.run (n + 1) s₁ = .next t₁ →
    ∃ t₂ : State, core.run (n + 1) s₂ = .next t₂ ∧
      t₂.phase = t₁.phase ∧ t₂.bidx = t₁.bidx ∧ t₂.pkt = t₁.pkt ∧ t₂.count = t₁.count ∧ t₂.err = t₁.err ∧
      t₂.scanValid = t₁.scanValid ∧ t₂.src = t₁.src ∧ t₂.srcLater = t₁.srcLater ∧ t₂.host = t₁.host ∧
      (t₁.scanValid = true → ∀ k, k < 456 → t₂.scan.read k = t₁.scan.read k)

/-- R160: the Points a COMMIT writes are a function of body bytes 3..42 alone. -/
def Obligations.PointsDependOnlyOnAnglesAndSamples : Prop :=
  ∀ (s₁ s₂ t₁ t₂ : State) (b₁ b₂ : Byte), Invariant s₁ → Invariant s₂ →
    (∀ k, 3 ≤ k → k ≤ 42 → s₁.body.read k = s₂.body.read k) →
    exec (.commit b₁) s₁ = .next t₁ → exec (.commit b₂) s₂ = .next t₂ →
    ∀ i, i < 12 → t₁.scan.read (s₁.count.toNat + i) = t₂.scan.read (s₂.count.toNat + i)

/-- R195: the rest of the machine uses of ANGLE only that it is a total function: two configurations take the same steps
and differ in no element and no output but the angles of SCAN. -/
def Obligations.AngleFunctionReachesOnlyTheAngles : Prop :=
  ∀ (c₁ c₂ : Config) (inp : Inputs) (a : CoreState) (r₁ : StepResult), a.scan.wf = true → stepOn c₁ inp a = .next r₁ →
    ∃ r₂, stepOn c₂ inp a = .next r₂ ∧ r₂.answer = r₁.answer ∧ r₂.draws = r₁.draws ∧ r₂.core.phase = r₁.core.phase ∧
      r₂.core.bidx = r₁.core.bidx ∧ r₂.core.pkt = r₁.core.pkt ∧ r₂.core.count = r₁.core.count ∧
      r₂.core.err = r₁.core.err ∧ r₂.core.scanValid = r₁.core.scanValid ∧ r₂.core.body = r₁.core.body ∧
      ∀ k, (r₂.core.scan.read k).distance = (r₁.core.scan.read k).distance ∧
        (r₂.core.scan.read k).intensity = (r₁.core.scan.read k).intensity

/-- R136: garbage without `0x54` before a sync marker is discarded, N bytes in N steps, and the state after the SYNC is
the same for every N. -/
def Obligations.GarbageBeforeTheSyncMarkerLeavesNoTrace : Prop :=
  ∀ (s : State) (garbage : List Byte) (rest : List SrcAnswer), s.phase = .hunt → s.host = [] →
    (∀ b ∈ garbage, b ≠ 0x54#8) →
    core.run (garbage.length + 1) { s with src := garbage.map .byte ++ .byte 0x54#8 :: rest } =
      .next { s with phase := .body, bidx := 0#6, src := rest }

/-- R138, R257 (5), R275, R276: waiting for ever and discarding for ever are runs of the core; no timeout ends them and
no START (R212) does. Of the machine: a silent source, finitely many bytes without `0x54`, and bytes without `0x54` over
and over; of the step relation: any infinite environment that never resets and never answers, or answers bytes without
`0x54` only, whatever else the host asks. How inputs are listed is the model's (log 1). -/
def Obligations.NoTimeoutEndsAWait : Prop :=
  (∀ (s : State) (n : Nat), s.phase ≠ .idle → s.host = [] → s.src = [] → s.srcLater = .silent → core.run n s = .next s) ∧
  (∀ (s : State) (bytes : List Byte), s.phase = .hunt → s.host = [] → s.src = bytes.map .byte → (∀ b ∈ bytes, b ≠ 0x54#8) →
    core.run bytes.length s = .next { s with src := [] }) ∧
  (∀ (s : State) (a : SrcAnswer) (as : List SrcAnswer) (n : Nat), s.phase = .hunt → s.host = [] → s.src = [] →
    s.srcLater = .again a as → (∀ x ∈ a :: as, ∃ b, x = .byte b ∧ b ≠ 0x54#8) →
    ∃ t : State, core.run n s = .next t ∧ SameCore s t) ∧
  (∀ (c : Config) (env : Nat → Inputs) (a : CoreState) (n : Nat), a.phase ≠ .idle →
    (∀ k, (env k).host.reset = false ∧ (env k).answer = .noAnswer) → runOn c env n a = .next a) ∧
  (∀ (c : Config) (env : Nat → Inputs) (a : CoreState) (n : Nat), a.phase = .hunt →
    (∀ k, (env k).host.reset = false ∧ ∃ b, (env k).answer = .byte b ∧ b ≠ 0x54#8) → runOn c env n a = .next a)

/-- R221: 38 consecutive units after START yield the complete scan, entry 12p + i being Point i of unit p (R216); 37
units and a `Fail` yield IoError and no scan. -/
def Obligations.ThirtyEightUnitsYieldAScan : Prop :=
  ∀ (s : State) (ps : List PacketFields) (rest : List SrcAnswer), Invariant s → s.phase = .idle →
    s.host = [{ reset := false, req := .start }] → (∀ p ∈ ps, p.wellFormed = true) →
    (ps.length = 38 → s.src = (ps.flatMap PacketFields.bytes).map .byte ++ rest →
      ∃ t : State, core.run (1 + 38 * 47) s = .next t ∧ t.phase = .idle ∧ t.scanValid = true ∧ t.err = .noError ∧
        t.count = 456#9 ∧ t.src = rest ∧
        ∀ p i, p < 38 → i < 12 → some (t.scan.read (12 * p + i)) =
          ((ps[p]?).bind fun u => (u.samples[i]?).map fun x =>
            ({ angle := angle .binary64 u.a0 u.a1 i, distance := x.distance, intensity := x.intensity } : Point))) ∧
    (ps.length = 37 → s.src = (ps.flatMap PacketFields.bytes).map .byte ++ .fail :: rest →
      ∃ t : State, core.run (1 + 37 * 47 + 1) s = .next t ∧ t.phase = .idle ∧ t.scanValid = false ∧ t.err = .ioError ∧
        t.count = 444#9 ∧ t.src = rest)

/-! ### Status and fields -/

/-- R30: the status outputs are these functions of the state. -/
def Obligations.StatusOutputsAreFunctionsOfTheState : Prop :=
  ∀ s : CoreState,
    status s = { busy := decide (s.phase ≠ .idle), scanValid := s.scanValid,
                 err := (match s.err with | .noError => 0 | .ioError => 1 | .invalidLength => 2), count := s.count,
                 done := decide (s.phase = .idle ∧ s.scanValid = true),
                 failed := decide (s.phase = .idle ∧ s.err ≠ .noError) }

/-- R38: of the three idle conditions exactly one holds in a state that meets R37. -/
def Obligations.ExactlyOneIdleConditionHolds : Prop :=
  ∀ s : State, Invariant s → s.phase = .idle →
    (s.scanValid = false ∧ s.err = .noError ∧ s.done = false ∧ s.failed = false) ∨
    (s.scanValid = true ∧ s.err = .noError ∧ s.done = true ∧ s.failed = false) ∨
    (s.scanValid = false ∧ s.err ≠ .noError ∧ s.done = false ∧ s.failed = true)

/-- R63: `LE16(lo, hi) = lo + 256 × hi`, with `result[7:0] = lo` and `result[15:8] = hi`. -/
def Obligations.TwoByteFieldsAreLittleEndian : Prop :=
  ∀ l h : Byte, (le16 l h).toNat = l.toNat + 256 * h.toNat ∧ lo (le16 l h) = l ∧ hi (le16 l h) = h ∧
    ∀ get : Nat → Byte, ∀ k, (get16 get k).toNat = (get k).toNat + 256 * (get (k + 1)).toNat

/-! ### Angle interpolation -/

/-- R181: the conversion of every integer 0..65535 is exact, in both formats. -/
def Obligations.ConversionsAreExact : Prop :=
  ∀ (f : Fmt) (n : Nat), n ≤ 65535 →
    (u2f f n).neg = false ∧ (u2f f n).exp ≤ 0 ∧ (u2f f n).mant = n * 2 ^ (-(u2f f n).exp).toNat

/-- R190: the comparison of the wraparound rule equals the integer comparison A1 < A0, in both formats. -/
def Obligations.WraparoundComparisonIsTheIntegerComparison : Prop :=
  ∀ (f : Fmt) (a0 a1 : U16), flt (degrees f a1) (degrees f a0) = decide (a1.toNat < a0.toNat)

/-- R186, corner case i = 0: DEG_0 = INIT exactly, in both formats and for every pair of raw angles. -/
def Obligations.FirstSampleStandsAtTheInitialAngle : Prop :=
  ∀ (f : Fmt) (a0 a1 : U16), sampleDegrees f a0 a1 0 = degrees f a0

/-- R188: with every rounding removed (`exactArith`, for any number that stands for π) the sequence of R183 to R186, the
one the core computes in `FMT`, gives `DEG_i = N_i / 1200` and `RAD_i = N_i × π / 216000`, with
`N_i = (12 − i) × A0 + i × A1'` and `0 ≤ N_i ≤ 1182409`, the upper bound taken by A0 = 65535, A1 = 65534, i = 11 (R189). -/
def Obligations.SequenceWithoutRoundingGivesTheExactAngle : Prop :=
  (∀ (f : Fmt) (a0 a1 : U16) (i : Nat),
    (Config.ofFmt f).angle a0 a1 i = ((roundedArith f).sampleRadians a0 a1 i).bits f) ∧
  (∀ (pi : Rat) (a0 a1 : U16) (i : Nat),
    (exactArith pi).sampleDegrees a0 a1 i = (exactN a0 a1 i : Rat) / 1200 ∧
    (exactArith pi).sampleRadians a0 a1 i = (exactN a0 a1 i : Rat) * pi / 216000) ∧
  (∀ (a0 a1 : U16) (i : Nat), i < 12 →
    exactN a0 a1 i = (12 - (i : Int)) * (a0.toNat : Int) + (i : Int) * (wrappedA1 a0 a1 : Int) ∧
    0 ≤ exactN a0 a1 i ∧ exactN a0 a1 i ≤ 1182409) ∧
  exactN 65535 65534 11 = 1182409

/-- R191: every angle the core can produce is finite and not negative (sign bit 0, no infinity, no NaN), and below 17.2
(of which `0x4031333333333333` is the binary64 value next below). The format is the machine's, binary64 (log 7). -/
def Obligations.EveryAngleIsFiniteAndNotNegative : Prop :=
  ∀ (a0 a1 : U16) (i : Nat), i < 12 → (angle .binary64 a0 a1 i).toNat < 0x4031333333333333

/-- R183 to R187 at ten entries, one of each of V3, V6, V9, V10, V11 in each format, of 95_test_vectors.md. -/
def Obligations.InterpolationMatchesTenOfTheSpecsVectorEntries : Prop :=
  angle .binary64 35900 100 6 = 0x401921FB54442D18 ∧ angle .binary32 35900 100 6 = 0x40C90FDB ∧
  angle .binary64 65535 0 1 = 0x402604530BC782BA ∧ angle .binary32 65535 0 1 = 0x41302298 ∧
  angle .binary64 65535 65534 11 = 0x4031328B8BA8BB78 ∧ angle .binary32 65535 65534 11 = 0x4189945C ∧
  angle .binary64 35999 0 7 = 0x401921E843F8D549 ∧ angle .binary32 35999 0 7 = 0x40C90F41 ∧
  angle .binary64 12345 15000 11 = 0x4004A2912DAA8913 ∧ angle .binary32 12345 15000 11 = 0x4025148A
end

