-- ==== Sys2Proof/Laws/State.lean ====
section
/-! SUPPORT. One lemma per field per update of State: every later proof rewrites with these and unfolds no record
update. -/

namespace Sys2Proof

/-! ### Constants: their values, for `simp` -/

@[simp] theorem Config.syncByte_eq : Config.syncByte = 0x54#8 := rfl
@[simp] theorem Config.lenConst_eq : Config.lenConst = 44#8 := rfl
@[simp] theorem Config.bodyBytes_eq : Config.bodyBytes = 46 := rfl
@[simp] theorem Config.unitBytes_eq : Config.unitBytes = 47 := rfl
@[simp] theorem Config.ptsPerPkt_eq : Config.ptsPerPkt = 12 := rfl
@[simp] theorem Config.pktsPerScan_eq : Config.pktsPerScan = 38 := rfl
@[simp] theorem Config.cap_eq : Config.cap = 456 := rfl
@[simp] theorem Config.offLen_eq : Config.offLen = 0 := rfl
@[simp] theorem Config.offA0_eq : Config.offA0 = 3 := rfl
@[simp] theorem Config.offSamples_eq : Config.offSamples = 5 := rfl
@[simp] theorem Config.sampleBytes_eq : Config.sampleBytes = 3 := rfl
@[simp] theorem Config.offA1_eq : Config.offA1 = 41 := rfl
@[simp] theorem Config.blankByte_eq : Config.blankByte = 0#8 := rfl

end Sys2Proof

namespace Sys2Proof.Machine

/-! ### `raise` -/

@[simp] theorem raise_phase (e : Err) (a : CoreState) : (raise e a).phase = .idle := rfl
@[simp] theorem raise_bidx (e : Err) (a : CoreState) : (raise e a).bidx = 0#6 := rfl
@[simp] theorem raise_pkt (e : Err) (a : CoreState) : (raise e a).pkt = a.pkt := rfl
@[simp] theorem raise_count (e : Err) (a : CoreState) : (raise e a).count = a.count := rfl
@[simp] theorem raise_err (e : Err) (a : CoreState) : (raise e a).err = e := rfl
@[simp] theorem raise_scanValid (e : Err) (a : CoreState) : (raise e a).scanValid = a.scanValid := rfl
@[simp] theorem raise_body (e : Err) (a : CoreState) : (raise e a).body = a.body := rfl
@[simp] theorem raise_scan (e : Err) (a : CoreState) : (raise e a).scan = a.scan := rfl

/-! ### `beginAssembly` -/

@[simp] theorem beginAssembly_phase (a : CoreState) : (beginAssembly a).phase = .hunt := rfl
@[simp] theorem beginAssembly_bidx (a : CoreState) : (beginAssembly a).bidx = 0#6 := rfl
@[simp] theorem beginAssembly_pkt (a : CoreState) : (beginAssembly a).pkt = 0#6 := rfl
@[simp] theorem beginAssembly_count (a : CoreState) : (beginAssembly a).count = 0#9 := rfl
@[simp] theorem beginAssembly_err (a : CoreState) : (beginAssembly a).err = .noError := rfl
@[simp] theorem beginAssembly_scanValid (a : CoreState) : (beginAssembly a).scanValid = false := rfl
@[simp] theorem beginAssembly_body (a : CoreState) : (beginAssembly a).body = a.body := rfl
@[simp] theorem beginAssembly_scan (a : CoreState) : (beginAssembly a).scan = a.scan := rfl

/-! ### `drew` -/

@[simp] theorem drew_toCoreState (s : State) (n : Nat) : (s.drew n).toCoreState = s.toCoreState := rfl
@[simp] theorem drew_src (s : State) (n : Nat) : (s.drew n).src = s.src := rfl
@[simp] theorem drew_srcLater (s : State) (n : Nat) : (s.drew n).srcLater = s.srcLater := rfl
@[simp] theorem drew_host (s : State) (n : Nat) : (s.drew n).host = s.host := rfl
@[simp] theorem drew_readAnswer (s : State) (n : Nat) : (s.drew n).readAnswer = s.readAnswer := rfl
@[simp] theorem drew_freeCtr (s : State) (n : Nat) : (s.drew n).freeCtr = s.freeCtr + n := rfl

/-! ### `resetCore` -/

@[simp] theorem resetCore_phase (n : Nat) : (resetCore n).phase = .idle := rfl
@[simp] theorem resetCore_bidx (n : Nat) : (resetCore n).bidx = 0#6 := rfl
@[simp] theorem resetCore_pkt (n : Nat) : (resetCore n).pkt = 0#6 := rfl
@[simp] theorem resetCore_count (n : Nat) : (resetCore n).count = 0#9 := rfl
@[simp] theorem resetCore_err (n : Nat) : (resetCore n).err = .noError := rfl
@[simp] theorem resetCore_scanValid (n : Nat) : (resetCore n).scanValid = false := rfl
@[simp] theorem resetCore_body (n : Nat) : (resetCore n).body = Memory.fill fun k => Config.freeByte (n + k) := rfl
@[simp] theorem resetCore_scan (n : Nat) : (resetCore n).scan = ScanMem.fill fun k => Config.freePoint (n + k) := rfl

/-! ### `took` -/

@[simp] theorem after_zero (l : SrcLater) : l.after 0 = l := rfl
@[simp] theorem after_succ (l : SrcLater) (n : Nat) : l.after (n + 1) = l.next.after n := rfl

@[simp] theorem took_toCoreState (s : State) (n : Nat) : (s.took n).toCoreState = s.toCoreState := rfl
@[simp] theorem took_src (s : State) (n : Nat) : (s.took n).src = s.src.drop n := rfl
@[simp] theorem took_srcLater (s : State) (n : Nat) :
    (s.took n).srcLater = s.srcLater.after (n - s.src.length) := rfl
@[simp] theorem took_host (s : State) (n : Nat) : (s.took n).host = s.host := rfl
@[simp] theorem took_readAnswer (s : State) (n : Nat) : (s.took n).readAnswer = s.readAnswer := rfl
@[simp] theorem took_freeCtr (s : State) (n : Nat) : (s.took n).freeCtr = s.freeCtr := rfl
@[simp] theorem took_zero (s : State) : s.took 0 = s := by simp [State.took]

/-! ### `consume` -/

@[simp] theorem consume_toCoreState (s : State) : (consume s).toCoreState = s.toCoreState := rfl
@[simp] theorem consume_src (s : State) : (consume s).src = if s.asks then s.src.tail else s.src := by
  cases h : s.asks <;> cases hs : s.src <;> simp [consume, h, hs]
@[simp] theorem consume_srcLater (s : State) :
    (consume s).srcLater = if s.asks && s.src.isEmpty then s.srcLater.next else s.srcLater := by
  cases h : s.asks <;> cases hs : s.src <;> simp [consume, h, hs]
@[simp] theorem consume_host (s : State) : (consume s).host = s.host.tail := rfl
@[simp] theorem consume_readAnswer (s : State) : (consume s).readAnswer = s.readAnswer := rfl
@[simp] theorem consume_freeCtr (s : State) : (consume s).freeCtr = s.freeCtr := rfl

/-! ### `countPacket` -/

@[simp] theorem countPacket_phase (a : CoreState) : (countPacket a).phase = if a.pkt + 1#6 = 38#6 then .idle else .hunt := by
  unfold countPacket; dsimp only; split <;> rfl
@[simp] theorem countPacket_bidx (a : CoreState) : (countPacket a).bidx = 0#6 := by
  unfold countPacket; dsimp only; split <;> rfl
@[simp] theorem countPacket_pkt (a : CoreState) : (countPacket a).pkt = a.pkt + 1#6 := by
  unfold countPacket; dsimp only; split <;> rfl
@[simp] theorem countPacket_count (a : CoreState) : (countPacket a).count = a.count + 12#9 := by
  unfold countPacket; dsimp only; split <;> rfl
@[simp] theorem countPacket_err (a : CoreState) : (countPacket a).err = a.err := by
  unfold countPacket; dsimp only; split <;> rfl
@[simp] theorem countPacket_scanValid (a : CoreState) : (countPacket a).scanValid = if a.pkt + 1#6 = 38#6 then true else a.scanValid := by
  unfold countPacket; dsimp only; split <;> rfl
@[simp] theorem countPacket_body (a : CoreState) : (countPacket a).body = a.body := by
  unfold countPacket; dsimp only; split <;> rfl
@[simp] theorem countPacket_scan (a : CoreState) : (countPacket a).scan = a.scan := by
  unfold countPacket; dsimp only; split <;> rfl

/-! ### The invariant and the inputs -/

/-- The invariant says nothing of the inputs to come. -/
theorem Invariant.with_inputs {s : State} (h : Invariant s) (src : List SrcAnswer) (later : SrcLater)
    (host : List HostInput) : Invariant { s with src := src, srcLater := later, host := host } :=
  ⟨h.count_eq, h.pkt_le, h.valid, h.failed, h.running, h.bidx_zero, h.bidx_le, h.body_wf, h.scan_wf⟩

/-! ### The step relation in the machine's own configuration -/

@[simp] theorem execUnder_current (i : Instr) (s : State) : execUnder Config.current i s = exec i s := by
  cases i <;> rfl

@[simp] theorem current_angle (a0 a1 : U16) (i : Nat) : Config.current.angle a0 a1 i = angle .binary64 a0 a1 i := rfl

end Sys2Proof.Machine
end

