-- ==== Sys2Proof/Laws/Cells.lean ====
section
/-! SUPPORT. The laws of the sparse memories: read after write, and that every memory operation keeps the canonical
form. -/

namespace Sys2Proof.Machine

section Generic

variable {α : Type} [DecidableEq α] {d : α} {size : Nat}

theorem Cells.wfFrom_cons {start k : Nat} {v : α} {rest : List (Nat × α)} :
    Cells.wfFrom d size start ((k, v) :: rest) = true ↔
      start ≤ k ∧ k < size ∧ v ≠ d ∧ Cells.wfFrom d size (k + 1) rest = true := by
  simp [Cells.wfFrom, and_assoc]

theorem Cells.wfFrom_mono {m : List (Nat × α)} {a b : Nat} (hab : a ≤ b) (h : Cells.wfFrom d size b m = true) :
    Cells.wfFrom d size a m = true := by
  cases m with
  | nil => rfl
  | cons c rest =>
    obtain ⟨k, v⟩ := c
    rw [Cells.wfFrom_cons] at h ⊢
    exact ⟨le_trans hab h.1, h.2⟩

/-- A key below every listed key reads as the blank value. -/
theorem Cells.read_below {m : List (Nat × α)} {start a : Nat} (h : Cells.wfFrom d size start m = true) (ha : a < start) :
    Cells.read d m a = d := by
  induction m generalizing start with
  | nil => rfl
  | cons c rest ih =>
    obtain ⟨k, v⟩ := c
    rw [Cells.wfFrom_cons] at h
    rw [Cells.read, if_neg (by omega), ih h.2.2.2 (by omega)]

/-- A key outside the space reads as the blank value. -/
theorem Cells.read_above {m : List (Nat × α)} {start a : Nat} (h : Cells.wfFrom d size start m = true) (ha : size ≤ a) :
    Cells.read d m a = d := by
  induction m generalizing start with
  | nil => rfl
  | cons c rest ih =>
    obtain ⟨k, v⟩ := c
    rw [Cells.wfFrom_cons] at h
    rw [Cells.read, if_neg (by omega), ih h.2.2.2]

theorem Cells.read_write_same {m : List (Nat × α)} {start : Nat} (h : Cells.wfFrom d size start m = true) (a : Nat) (v : α) :
    Cells.read d (Cells.write d m a v) a = v := by
  induction m generalizing start with
  | nil => by_cases hv : v = d <;> simp [Cells.write, Cells.read, hv]
  | cons c rest ih =>
    obtain ⟨k, w⟩ := c
    rw [Cells.wfFrom_cons] at h
    rcases lt_trichotomy a k with hlt | heq | hgt
    · by_cases hv : v = d
      · have hb := Cells.read_below h.2.2.2 (a := a) (by omega)
        simp [Cells.write, Cells.read, hlt, hv, Nat.ne_of_gt hlt, hb]
      · simp [Cells.write, Cells.read, hlt, hv]
    · subst heq
      by_cases hv : v = d
      · simp [Cells.write, hv, Cells.read_below h.2.2.2]
      · simp [Cells.write, Cells.read, hv]
    · have hk : k ≠ a := by omega
      have hnl : ¬a < k := by omega
      simp [Cells.write, Cells.read, hnl, hk, Ne.symm hk, ih h.2.2.2]

theorem Cells.read_write_ne (m : List (Nat × α)) {a b : Nat} (hab : b ≠ a) (v : α) :
    Cells.read d (Cells.write d m a v) b = Cells.read d m b := by
  induction m with
  | nil => by_cases hv : v = d <;> simp [Cells.write, Cells.read, hv, Ne.symm hab]
  | cons c rest ih =>
    obtain ⟨k, w⟩ := c
    rcases lt_trichotomy a k with hlt | heq | hgt
    · by_cases hv : v = d <;> simp [Cells.write, Cells.read, hlt, hv, Ne.symm hab]
    · subst heq
      by_cases hv : v = d <;> simp [Cells.write, Cells.read, hv, Ne.symm hab]
    · have hk : k ≠ a := by omega
      have hnl : ¬a < k := by omega
      simp [Cells.write, Cells.read, hnl, Ne.symm hk, ih]

theorem Cells.write_wf {m : List (Nat × α)} {start a : Nat} (h : Cells.wfFrom d size start m = true) (hs : start ≤ a)
    (ha : a < size) (v : α) : Cells.wfFrom d size start (Cells.write d m a v) = true := by
  induction m generalizing start with
  | nil => by_cases hv : v = d <;> simp [Cells.write, Cells.wfFrom, hv, hs, ha]
  | cons c rest ih =>
    obtain ⟨k, w⟩ := c
    have h' := h
    rw [Cells.wfFrom_cons] at h
    obtain ⟨h1, h2, h3, h4⟩ := h
    rcases lt_trichotomy a k with hlt | heq | hgt
    · by_cases hv : v = d
      · simpa [Cells.write, hlt, hv] using h'
      · simp only [Cells.write, hlt, hv, if_true, if_false]
        rw [Cells.wfFrom_cons, Cells.wfFrom_cons]
        exact ⟨hs, ha, hv, by omega, h2, h3, h4⟩
    · subst heq
      by_cases hv : v = d
      · simpa [Cells.write, hv] using Cells.wfFrom_mono (by omega) h4
      · simp only [Cells.write, hv, lt_irrefl, if_true, if_false]
        rw [Cells.wfFrom_cons]
        exact ⟨hs, ha, hv, h4⟩
    · have hk : a ≠ k := by omega
      have hnl : ¬a < k := by omega
      simp only [Cells.write, hnl, hk, if_false]
      rw [Cells.wfFrom_cons]
      exact ⟨h1, h2, h3, ih h4 (by omega)⟩

theorem Cells.tabulate_wf (f : Nat → α) (start n : Nat) (h : start + n ≤ size) :
    Cells.wfFrom d size start (Cells.tabulateFrom d f start n) = true := by
  induction n generalizing start with
  | zero => rfl
  | succ n ih =>
    have := ih (start + 1) (by omega)
    by_cases hv : f start = d
    · simpa [Cells.tabulateFrom, hv] using Cells.wfFrom_mono (by omega) this
    · simp only [Cells.tabulateFrom, hv, if_false]
      rw [Cells.wfFrom_cons]
      exact ⟨le_rfl, by omega, hv, this⟩

theorem Cells.read_tabulate (f : Nat → α) (start n a : Nat) :
    Cells.read d (Cells.tabulateFrom d f start n) a = if start ≤ a ∧ a < start + n then f a else d := by
  induction n generalizing start with
  | zero => simp [Cells.tabulateFrom, Cells.read]
  | succ n ih =>
    by_cases ha : start = a
    · subst ha
      have hno : ¬(start + 1 ≤ start ∧ start < start + 1 + n) := by omega
      have hyes : start ≤ start ∧ start < start + (n + 1) := by omega
      by_cases hv : f start = d
      · simp [Cells.tabulateFrom, hv, ih]
      · simp [Cells.tabulateFrom, hv, Cells.read]
    · have hiff : (start + 1 ≤ a ∧ a < start + 1 + n) ↔ (start ≤ a ∧ a < start + (n + 1)) := by omega
      by_cases hv : f start = d
      · simp only [Cells.tabulateFrom, hv, if_true, ih, hiff]
      · simp only [Cells.tabulateFrom, hv, if_false, Cells.read, ha, ih, hiff]

/-- Two memories in canonical form that read alike are the same data. -/
theorem Cells.ext_of_read {m n : List (Nat × α)} {a b : Nat} (hm : Cells.wfFrom d size a m = true)
    (hn : Cells.wfFrom d size b n = true) (h : ∀ k, Cells.read d m k = Cells.read d n k) : m = n := by
  induction m generalizing n a b with
  | nil =>
    cases n with
    | nil => rfl
    | cons c rest =>
      obtain ⟨k, v⟩ := c
      rw [Cells.wfFrom_cons] at hn
      have := h k
      simp only [Cells.read, if_true] at this
      exact absurd this.symm hn.2.2.1
  | cons c rest ih =>
    obtain ⟨k, v⟩ := c
    rw [Cells.wfFrom_cons] at hm
    cases n with
    | nil =>
      have := h k
      simp only [Cells.read, if_true] at this
      exact absurd this hm.2.2.1
    | cons c' rest' =>
      obtain ⟨k', v'⟩ := c'
      rw [Cells.wfFrom_cons] at hn
      have hk : k = k' := by
        rcases lt_trichotomy k k' with hlt | heq | hgt
        · have hread := h k
          rw [Cells.read, if_pos rfl, Cells.read, if_neg (by omega), Cells.read_below hn.2.2.2 (by omega)] at hread
          exact absurd hread hm.2.2.1
        · exact heq
        · have hread := h k'
          rw [Cells.read, if_neg (by omega), Cells.read_below hm.2.2.2 (by omega), Cells.read, if_pos rfl] at hread
          exact absurd hread.symm hn.2.2.1
      subst hk
      have hv : v = v' := by simpa [Cells.read] using h k
      subst hv
      congr 1
      refine ih hm.2.2.2 hn.2.2.2 fun j => ?_
      by_cases hj : k = j
      · subst hj
        rw [Cells.read_below hm.2.2.2 (by omega), Cells.read_below hn.2.2.2 (by omega)]
      · simpa [Cells.read, hj] using h j

end Generic

/-! ### BODY -/

theorem Memory.read_write_same {m : Memory} (h : m.wf = true) (k : Nat) (b : Byte) : (m.write k b).read k = b :=
  Cells.read_write_same h k b

theorem Memory.read_write_ne (m : Memory) {k j : Nat} (h : j ≠ k) (b : Byte) : (m.write k b).read j = m.read j :=
  Cells.read_write_ne m h b

theorem Memory.write_wf {m : Memory} (h : m.wf = true) {k : Nat} (hk : k < Config.bodyBytes) (b : Byte) :
    (m.write k b).wf = true :=
  Cells.write_wf h (Nat.zero_le k) hk b

theorem Memory.fill_wf (f : Nat → Byte) : (Memory.fill f).wf = true :=
  Cells.tabulate_wf f 0 Config.bodyBytes (by omega)

theorem Memory.read_fill (f : Nat → Byte) {k : Nat} (hk : k < Config.bodyBytes) : (Memory.fill f).read k = f k := by
  unfold Memory.fill Memory.read
  rw [Cells.read_tabulate, if_pos ⟨Nat.zero_le k, by omega⟩]

theorem Memory.read_outside {m : Memory} (h : m.wf = true) {k : Nat} (hk : Config.bodyBytes ≤ k) :
    m.read k = Config.blankByte :=
  Cells.read_above h hk

/-! ### SCAN -/

theorem ScanMem.read_write_same {m : ScanMem} (h : m.wf = true) (k : Nat) (p : Point) : (m.write k p).read k = p :=
  Cells.read_write_same h k p

theorem ScanMem.read_write_ne (m : ScanMem) {k j : Nat} (h : j ≠ k) (p : Point) : (m.write k p).read j = m.read j :=
  Cells.read_write_ne m h p

theorem ScanMem.write_wf {m : ScanMem} (h : m.wf = true) {k : Nat} (hk : k < Config.cap) (p : Point) :
    (m.write k p).wf = true :=
  Cells.write_wf h (Nat.zero_le k) hk p

theorem ScanMem.fill_wf (f : Nat → Point) : (ScanMem.fill f).wf = true :=
  Cells.tabulate_wf f 0 Config.cap (by omega)

theorem ScanMem.read_fill (f : Nat → Point) {k : Nat} (hk : k < Config.cap) : (ScanMem.fill f).read k = f k := by
  unfold ScanMem.fill ScanMem.read
  rw [Cells.read_tabulate, if_pos ⟨Nat.zero_le k, by omega⟩]

theorem ScanMem.writeFrom_wf {m : ScanMem} (h : m.wf = true) (k : Nat) (ps : List Point)
    (hk : k + ps.length ≤ Config.cap) : (m.writeFrom k ps).wf = true := by
  induction ps generalizing m k with
  | nil => exact h
  | cons p ps ih =>
    simp only [List.length_cons] at hk
    exact ih (ScanMem.write_wf h (by omega) p) (k + 1) (by omega)

/-- Below the first index written, every entry reads as before. -/
theorem ScanMem.read_writeFrom_below (m : ScanMem) {k j : Nat} (ps : List Point) (h : j < k) :
    (m.writeFrom k ps).read j = m.read j := by
  induction ps generalizing m k with
  | nil => rfl
  | cons p ps ih =>
    rw [ScanMem.writeFrom, ih (m.write k p) (by omega), ScanMem.read_write_ne m (by omega)]

/-- At and above the index after the last one written, every entry reads as before. -/
theorem ScanMem.read_writeFrom_above (m : ScanMem) {k j : Nat} (ps : List Point) (h : k + ps.length ≤ j) :
    (m.writeFrom k ps).read j = m.read j := by
  induction ps generalizing m k with
  | nil => rfl
  | cons p ps ih =>
    simp only [List.length_cons] at h
    rw [ScanMem.writeFrom, ih (m.write k p) (by omega), ScanMem.read_write_ne m (by omega)]

/-- The i-th Point written stands at the i-th index. -/
theorem ScanMem.read_writeFrom {m : ScanMem} (h : m.wf = true) (k : Nat) (ps : List Point)
    (hk : k + ps.length ≤ Config.cap) (i : Nat) (hi : i < ps.length) :
    (m.writeFrom k ps).read (k + i) = ps[i] := by
  induction ps generalizing m k i with
  | nil => exact absurd hi (by simp)
  | cons p ps ih =>
    simp only [List.length_cons] at hk
    cases i with
    | zero =>
      rw [ScanMem.writeFrom, ScanMem.read_writeFrom_below _ ps (by omega)]
      exact ScanMem.read_write_same h k p
    | succ i =>
      have := ih (ScanMem.write_wf h (k := k) (by omega) p) (k + 1) (by omega) i (by simpa using hi)
      rw [ScanMem.writeFrom, show k + (i + 1) = k + 1 + i by omega, this]
      rfl

/-! ### Reset -/

theorem reset_body_wf : State.reset.body.wf = true := rfl

theorem reset_scan_wf : State.reset.scan.wf = true := rfl

end Sys2Proof.Machine
end

