-- ==== Sys2Proof/Laws/Source.lean ====
section
/-! SUPPORT. The Byte Source's coming answers: consuming them one after another, and that `SrcLater.reach` answers decide
whether FINDSYNC and DECODEPACKET return. -/

namespace Sys2Proof.Machine

/-! ### Consuming and listing -/

theorem after_add (l : SrcLater) (m n : Nat) : l.after (m + n) = (l.after m).after n := by
  induction m generalizing l with
  | zero => simp
  | succ m ih => rw [Nat.succ_add]; exact ih l.next

theorem took_took (s : State) (m n : Nat) : (s.took m).took n = s.took (m + n) := by
  simp only [State.took, List.drop_drop, List.length_drop, ← after_add]
  congr 2
  omega

@[simp] theorem answers_length (l : SrcLater) (n : Nat) : (l.answers n).length = n := by
  induction n generalizing l with
  | zero => rfl
  | succ n ih => simp [SrcLater.answers, ih]

theorem answers_add (l : SrcLater) (m n : Nat) : l.answers (m + n) = l.answers m ++ (l.after m).answers n := by
  induction m generalizing l with
  | zero => simp [SrcLater.answers]
  | succ m ih => rw [Nat.succ_add]; simp [SrcLater.answers, ih]

theorem answers_getElem? (l : SrcLater) {k n : Nat} (h : k < n) : (l.answers n)[k]? = some (l.after k).now := by
  induction n generalizing l k with
  | zero => exact absurd h (Nat.not_lt_zero k)
  | succ n ih =>
    cases k with
    | zero => rfl
    | succ k => exact ih l.next (Nat.lt_of_succ_lt_succ h)

/-- Taking one answer off the front of those to come. -/
theorem State.answers_succ (s : State) (n : Nat) : s.answers (n + 1) = s.answerNow :: (s.took 1).answers n := by
  cases h : s.src with
  | nil => simp [State.answers, State.answerNow, h, SrcLater.answers]
  | cons a as => simp [State.answers, State.answerNow, h]

/-! ### How far the answers must be read -/

@[simp] theorem after_silent (n : Nat) : SrcLater.silent.after n = .silent := by
  induction n with
  | zero => rfl
  | succ n ih => exact ih

@[simp] theorem after_free (n k : Nat) : (SrcLater.free n).after k = .free (n + k) := by
  induction k generalizing n with
  | zero => rfl
  | succ k ih => exact (ih (n + 1)).trans (by rw [Nat.add_right_comm, Nat.add_assoc])

/-- Inside a period: the answers taken stand at its end. -/
theorem after_again (a z : SrcAnswer) (as bs : List SrcAnswer) :
    (SrcLater.again a (as ++ z :: bs)).after (as.length + 1) = .again z (bs ++ a :: as) := by
  induction as generalizing a bs with
  | nil => rfl
  | cons b as ih => simpa [SrcLater.next] using ih b (bs ++ [a])

/-- A whole period brings the source back. -/
theorem after_period (a : SrcAnswer) (as : List SrcAnswer) :
    (SrcLater.again a as).after (as.length + 1) = .again a as := by
  rcases List.eq_nil_or_concat as with rfl | ⟨l, z, rfl⟩
  · rfl
  · have h := after_again a z l []
    rw [after_add, List.concat_eq_append, List.length_append, List.length_singleton, h]
    rfl

theorem after_periods (a : SrcAnswer) (as : List SrcAnswer) (m k : Nat) :
    (SrcLater.again a as).after (m * (as.length + 1) + k) = (SrcLater.again a as).after k := by
  induction m with
  | zero => simp
  | succ m ih => rw [Nat.succ_mul, Nat.add_comm _ (as.length + 1), Nat.add_assoc, after_add, after_period, ih]

/-- Every answer of a repeated period is one of the first period. -/
theorem after_mod (a : SrcAnswer) (as : List SrcAnswer) (k : Nat) :
    (SrcLater.again a as).after k = (SrcLater.again a as).after (k % (as.length + 1)) := by
  conv => lhs; rw [← Nat.div_add_mod' k (as.length + 1)]
  exact after_periods a as _ _

/-- If `Byte(0x54)` or `Fail` comes at all, it comes within reach. -/
theorem mark_within_reach (l : SrcLater) (k : Nat) (h : (l.after k).now.isMark = true) :
    ∃ j, j < l.reach ∧ (l.after j).now.isMark = true := by
  cases l with
  | silent => rw [after_silent] at h; exact absurd h (by decide)
  | again a as =>
    refine ⟨k % (as.length + 1), ?_, by rw [← after_mod]; exact h⟩
    have : k % (as.length + 1) < as.length + 1 := Nat.mod_lt k (Nat.succ_pos as.length)
    simp only [SrcLater.reach, Config.bodyBytes_eq]
    omega
  | free n =>
    rw [after_free] at h
    obtain ⟨j, hj, hm⟩ := Config.freeSource.mark n k h
    exact ⟨j, hj, by rw [after_free]; exact hm⟩

theorem answers_eq_map_range (l : SrcLater) (n : Nat) :
    l.answers n = (List.range n).map fun j => (l.after j).now := by
  refine List.ext_getElem? fun k => ?_
  by_cases h : k < n
  · rw [answers_getElem? l h]; simp [h]
  · simp [h]

/-- A period with an event has at least `m` of them in `m` turns. -/
theorem events_in_periods {a : SrcAnswer} {as : List SrcAnswer}
    (h : 1 ≤ ((SrcLater.again a as).answers (as.length + 1)).countP SrcAnswer.isEvent) (m : Nat) :
    m ≤ ((SrcLater.again a as).answers (m * (as.length + 1))).countP SrcAnswer.isEvent := by
  induction m with
  | zero => simp
  | succ m ih =>
    rw [Nat.succ_mul, Nat.add_comm _ (as.length + 1), answers_add, after_period, List.countP_append]
    omega

/-- If an event comes beyond reach, a whole body of 46 comes within. -/
theorem events_within_reach (l : SrcLater) (k : Nat) (hk : l.reach ≤ k) (h : (l.after k).now.isEvent = true) :
    46 ≤ (l.answers l.reach).countP SrcAnswer.isEvent := by
  cases l with
  | silent => rw [after_silent] at h; exact absurd h (by decide)
  | again a as =>
    refine events_in_periods ?_ 46
    rw [after_mod] at h
    refine List.one_le_countP_iff.mpr ⟨_, ?_, h⟩
    exact List.mem_of_getElem? (answers_getElem? _ (Nat.mod_lt k (Nat.succ_pos as.length)))
  | free n =>
    rw [after_free] at h
    have := Config.freeSource.events n k hk h
    rw [answers_eq_map_range, List.countP_map]
    simpa [Function.comp_def, SrcLater.reach, SrcLater.now] using this

/-! ### The free source is any sequence -/

theorem countP_range_le {q : Nat → Bool} {m n : Nat} (h : m ≤ n) : (List.range m).countP q ≤ (List.range n).countP q :=
  (List.range_sublist.mpr h).countP_le

/-- For some `r`, an element with `q` at or after `r` comes only where `m` of them came before. -/
theorem exists_reach (q : Nat → Bool) (m : Nat) : ∃ r, ∀ k, r ≤ k → q k = true → m ≤ (List.range r).countP q := by
  induction m with
  | zero => exact ⟨0, fun _ _ _ => Nat.zero_le _⟩
  | succ m ih =>
    obtain ⟨r, hr⟩ := ih
    by_cases h : ∃ k, r ≤ k ∧ q k = true
    · obtain ⟨k, hk, hq⟩ := h
      refine ⟨k + 1, fun _ _ _ => ?_⟩
      have := Nat.le_trans (hr k hk hq) (countP_range_le hk)
      rw [List.range_succ, List.countP_append]
      simpa [hq] using this
    · exact ⟨r, fun k hk hq => absurd ⟨k, hk, hq⟩ h⟩

/-- The laws of `FreeSource` constrain no sequence. -/
theorem every_sequence_is_a_freeSource (f : Nat → SrcAnswer) : ∃ S : FreeSource, S.answer = f := by
  have H : ∀ n, ∃ r, (∀ k, (f (n + k)).isMark = true → ∃ j, j < r ∧ (f (n + j)).isMark = true) ∧
      ∀ k, r ≤ k → (f (n + k)).isEvent = true → 46 ≤ (List.range r).countP fun j => (f (n + j)).isEvent := by
    intro n
    obtain ⟨r, hr⟩ := exists_reach (fun j => (f (n + j)).isEvent) 46
    by_cases h : ∃ k, (f (n + k)).isMark = true
    · obtain ⟨k, hk⟩ := h
      refine ⟨max r (k + 1), fun _ _ => ⟨k, by omega, hk⟩, fun i hi he => ?_⟩
      exact Nat.le_trans (hr i (by omega) he) (countP_range_le (Nat.le_max_left _ _))
    · exact ⟨r, fun k hk => absurd ⟨k, hk⟩ h, hr⟩
  exact ⟨⟨f, fun n => (H n).choose, fun n => (H n).choose_spec.1, fun n => (H n).choose_spec.2⟩, rfl⟩

end Sys2Proof.Machine
end

