-- ==== Sys2Proof/Laws/Exec.lean ====
section
/-! SUPPORT. What each shared operation and each meaning of a micro-operation, command or access can do, said once: when
it answers a next state, and which. -/

namespace Sys2Proof.Machine

/-! ### Sequencing -/

@[simp] theorem andThen_of_next {σ τ : Type} (s : σ) (f : σ → Host.Outcome τ Fault Refusal) :
    andThen (.next s) f = f s := rfl

@[simp] theorem andThen_of_fault {σ τ : Type} (e : Fault) (f : σ → Host.Outcome τ Fault Refusal) :
    andThen (.fault e) f = .fault e := rfl

@[simp] theorem andThen_of_refused {σ τ : Type} (e : Refusal) (f : σ → Host.Outcome τ Fault Refusal) :
    andThen (.refused e) f = .refused e := rfl

theorem andThen_next {σ τ : Type} {r : Host.Outcome σ Fault Refusal} {f : σ → Host.Outcome τ Fault Refusal} {t : τ} :
    andThen r f = .next t ↔ ∃ u, r = .next u ∧ f u = .next t := by
  cases r <;> simp [andThen]

/-! ### Operations on the core, in the closed machine -/

theorem onCore_next {f : CoreState → CoreResult} {s t : State} :
    onCore f s = .next t ↔ ∃ a, f s.toCoreState = .next a ∧ t = { s with toCoreState := a } := by
  simp [onCore, andThen_next, eq_comm (a := t)]

theorem onCore_of_next {f : CoreState → CoreResult} {s : State} {a : CoreState} (h : f s.toCoreState = .next a) :
    onCore f s = .next { s with toCoreState := a } := by
  simp [onCore, h]

/-- It touches none of the model's own fields. -/
theorem onCore_env {f : CoreState → CoreResult} {s t : State} (h : onCore f s = .next t) : SameEnv s t := by
  obtain ⟨a, -, rfl⟩ := onCore_next.mp h
  exact ⟨rfl, rfl, rfl, rfl, rfl⟩

/-- It does the same to the core whatever stands beside it. -/
theorem onCore_core {f : CoreState → CoreResult} {s t : State} (h : onCore f s = .next t) :
    f s.toCoreState = .next t.toCoreState := by
  obtain ⟨a, ha, rfl⟩ := onCore_next.mp h
  exact ha

/-! ### Stores -/

theorem storeBody_next {k : Nat} {b : Byte} {a t : CoreState} :
    storeBody k b a = .next t ↔ k < 46 ∧ t = { a with body := a.body.write k b } := by
  unfold storeBody
  split
  · next h => simp_all [eq_comm]
  · next h => simp_all

theorem storePoints_next {ps : List Point} {a t : CoreState} :
    storePoints ps a = .next t ↔
      a.count.toNat + ps.length ≤ 456 ∧ t = { a with scan := a.scan.writeFrom a.count.toNat ps } := by
  unfold storePoints
  split
  · next h => simp_all [eq_comm]
  · next h => simp_all

/-! ### The body's Points -/

@[simp] theorem points_length (c : Config) (get : Nat → Byte) : (points c get).length = 12 := by simp [points]

@[simp] theorem points_getElem (c : Config) (get : Nat → Byte) (i : Nat) (h : i < (points c get).length) :
    (points c get)[i] = pointAt c get i := by simp [points]

/-! ### Micro-operations and START on the core -/

theorem coreWait_next {a t : CoreState} : coreWait a = .next t ↔ t = a := by
  simp [coreWait, eq_comm]

theorem coreAbort_next {a t : CoreState} : coreAbort a = .next t ↔ a.phase ≠ .idle ∧ t = raise .ioError a := by
  unfold coreAbort
  split
  · next h => simp [h, eq_comm]
  · next h => simp [h]

theorem coreSync_next {a t : CoreState} :
    coreSync a = .next t ↔ a.phase = .hunt ∧ t = { a with phase := .body, bidx := 0#6 } := by
  unfold coreSync
  split
  · next h => simp [h, eq_comm]
  · next h => simp [h]

theorem coreDiscard_next {b : Byte} {a t : CoreState} :
    coreDiscard b a = .next t ↔ a.phase = .hunt ∧ b ≠ 0x54#8 ∧ t = a := by
  unfold coreDiscard
  split
  · next h =>
    constructor
    · intro h'; cases h'
      exact ⟨h.1, h.2, rfl⟩
    · rintro ⟨-, -, rfl⟩
      rfl
  · next h =>
    constructor
    · intro h'; cases h'
    · rintro ⟨h1, h2, _⟩
      exact absurd ⟨h1, h2⟩ h

theorem coreLoad_next {b : Byte} {a t : CoreState} :
    coreLoad b a = .next t ↔
      a.phase = .body ∧ a.bidx ≠ 45#6 ∧ a.bidx.toNat < 46 ∧
        t = { a with body := a.body.write a.bidx.toNat b, bidx := a.bidx + 1#6 } := by
  unfold coreLoad
  split
  · next h =>
    rw [andThen_next]
    constructor
    · rintro ⟨u, hu, ht⟩
      obtain ⟨hk, rfl⟩ := storeBody_next.mp hu
      cases ht
      exact ⟨h.1, h.2, hk, rfl⟩
    · rintro ⟨-, -, hk, rfl⟩
      exact ⟨_, storeBody_next.mpr ⟨hk, rfl⟩, rfl⟩
  · next h =>
    constructor
    · intro h'; cases h'
    · rintro ⟨h1, h2, _⟩
      exact absurd ⟨h1, h2⟩ h

theorem coreReject_next {b : Byte} {a t : CoreState} :
    coreReject b a = .next t ↔
      a.atLastByte = true ∧ a.lenOk = false ∧
        t = raise .invalidLength { a with body := a.body.write 45 b } := by
  unfold coreReject
  split
  · next h =>
    rw [andThen_next]
    constructor
    · rintro ⟨u, hu, ht⟩
      obtain ⟨-, rfl⟩ := storeBody_next.mp hu
      cases ht
      exact ⟨h.1, h.2, rfl⟩
    · rintro ⟨-, -, rfl⟩
      exact ⟨_, storeBody_next.mpr ⟨by decide, rfl⟩, rfl⟩
  · next h =>
    constructor
    · intro h'; cases h'
    · rintro ⟨h1, h2, _⟩
      exact absurd ⟨h1, h2⟩ h

theorem coreCommit_next {c : Config} {b : Byte} {a t : CoreState} :
    coreCommit c b a = .next t ↔
      a.atLastByte = true ∧ a.lenOk = true ∧ a.count.toNat + 12 ≤ 456 ∧
        t = countPacket { a with
              body := a.body.write 45 b
              scan := a.scan.writeFrom a.count.toNat (points c (a.body.write 45 b).read) } := by
  unfold coreCommit
  split
  · next h =>
    rw [andThen_next]
    constructor
    · rintro ⟨u, hu, ht⟩
      obtain ⟨-, rfl⟩ := storeBody_next.mp hu
      obtain ⟨v, hv, hv'⟩ := andThen_next.mp ht
      obtain ⟨hc, rfl⟩ := storePoints_next.mp hv
      cases hv'
      exact ⟨h.1, h.2, by simpa using hc, rfl⟩
    · rintro ⟨-, -, hc, rfl⟩
      refine ⟨_, storeBody_next.mpr ⟨by decide, rfl⟩, andThen_next.mpr ⟨_, storePoints_next.mpr ⟨?_, rfl⟩, rfl⟩⟩
      simpa using hc
  · next h =>
    constructor
    · intro h'; cases h'
    · rintro ⟨h1, h2, _⟩
      exact absurd ⟨h1, h2⟩ h

theorem coreStart_next {a t : CoreState} :
    coreStart a = .next t ↔ t = if a.phase = .idle then beginAssembly a else a := by
  unfold coreStart
  split <;> simp [eq_comm]

/-! ### Their meanings -/

theorem execWait_next {s t : State} : execWait s = .next t ↔ t = s := by
  simp [execWait, onCore_next, coreWait_next]

theorem execAbort_next {s t : State} :
    execAbort s = .next t ↔ s.phase ≠ .idle ∧ t = { s with toCoreState := raise .ioError s.toCoreState } := by
  simp [execAbort, onCore_next, coreAbort_next, and_assoc]

theorem execSync_next {s t : State} :
    execSync s = .next t ↔ s.phase = .hunt ∧ t = { s with phase := .body, bidx := 0#6 } := by
  simp [execSync, onCore_next, coreSync_next, and_assoc]

theorem execDiscard_next {b : Byte} {s t : State} :
    execDiscard b s = .next t ↔ s.phase = .hunt ∧ b ≠ 0x54#8 ∧ t = s := by
  simp [execDiscard, onCore_next, coreDiscard_next, and_assoc]

theorem execLoad_next {b : Byte} {s t : State} :
    execLoad b s = .next t ↔
      s.phase = .body ∧ s.bidx ≠ 45#6 ∧ s.bidx.toNat < 46 ∧
        t = { s with body := s.body.write s.bidx.toNat b, bidx := s.bidx + 1#6 } := by
  simp [execLoad, onCore_next, coreLoad_next, and_assoc]

theorem execReject_next {b : Byte} {s t : State} :
    execReject b s = .next t ↔
      s.atLastByte = true ∧ s.lenOk = false ∧
        t = { s with toCoreState := raise .invalidLength { s.toCoreState with body := s.body.write 45 b } } := by
  simp [execReject, onCore_next, coreReject_next, and_assoc]

theorem commitUnder_next {c : Config} {b : Byte} {s t : State} :
    commitUnder c b s = .next t ↔
      s.atLastByte = true ∧ s.lenOk = true ∧ s.count.toNat + 12 ≤ 456 ∧
        t = { s with
              toCoreState := countPacket { s.toCoreState with
                body := s.body.write 45 b
                scan := s.scan.writeFrom s.count.toNat (points c (s.body.write 45 b).read) } } := by
  simp [commitUnder, onCore_next, coreCommit_next, and_assoc]

theorem execCommit_next {b : Byte} {s t : State} :
    execCommit b s = .next t ↔
      s.atLastByte = true ∧ s.lenOk = true ∧ s.count.toNat + 12 ≤ 456 ∧
        t = { s with
              toCoreState := countPacket { s.toCoreState with
                body := s.body.write 45 b
                scan := s.scan.writeFrom s.count.toNat (points Config.current (s.body.write 45 b).read) } } :=
  commitUnder_next

/-! ### Command, access, reset: they always answer -/

theorem execStart_next {s t : State} :
    execStart s = .next t ↔
      t = if s.phase = .idle then { s with toCoreState := beginAssembly s.toCoreState } else s := by
  simp only [execStart, onCore_next, coreStart_next, exists_eq_left]
  split <;> rfl

@[simp] theorem readable_iff {a : CoreState} {idx : BitVec 9} :
    a.readable idx = true ↔ a.scanValid = true ∧ idx.toNat < 456 := by
  change (a.scanValid && decide (idx.toNat < Config.cap)) = true ↔ a.scanValid = true ∧ idx.toNat < Config.cap
  rw [Bool.and_eq_true, decide_eq_true_iff]

theorem execRead_next {idx : BitVec 9} {s t : State} :
    execRead idx s = .next t ↔
      t = if s.scanValid = true ∧ idx.toNat < 456 then
            { s with readAnswer := some (s.scan.read idx.toNat) }
          else { s.drew 1 with readAnswer := some (Config.freePoint s.freeCtr) } := by
  have h : execRead idx s = .next (if s.scanValid = true ∧ idx.toNat < 456 then
            { s with readAnswer := some (s.scan.read idx.toNat) }
          else { s.drew 1 with readAnswer := some (Config.freePoint s.freeCtr) }) := by
    unfold execRead readDraws readPort
    simp only [readable_iff]
    split <;> rfl
  rw [h]
  exact ⟨fun e => (Host.Outcome.next.inj e).symm, fun e => e ▸ rfl⟩

theorem execReset_next {s t : State} :
    execReset s = .next t ↔ t = { s.drew resetDraws with toCoreState := resetCore s.freeCtr } := by
  simp [execReset, eq_comm]

/-! ### Answers and their sequences -/

@[simp] theorem takeByte_idle {c : Config} {b : Byte} {a : CoreState} (h : a.phase = .idle) : takeByte c b a = .next a := by
  simp [takeByte, h]

theorem takeByte_hunt {c : Config} {b : Byte} {a : CoreState} (h : a.phase = .hunt) :
    takeByte c b a = if b = 0x54#8 then .next { a with phase := .body, bidx := 0#6 } else .next a := by
  unfold takeByte
  rw [h]
  by_cases hb : b = 0x54#8
  · exact (if_pos (show b = Config.syncByte from hb)).trans ((if_pos h).trans (if_pos hb).symm)
  · exact (if_neg (show ¬ b = Config.syncByte from hb)).trans
      ((if_pos (show a.phase = .hunt ∧ b ≠ Config.syncByte from ⟨h, hb⟩)).trans (if_neg hb).symm)

theorem takeByte_body {c : Config} {b : Byte} {a : CoreState} (h : a.phase = .body) :
    takeByte c b a =
      if a.atLast then (if a.lenOk then coreCommit c b a else coreReject b a) else coreLoad b a := by
  simp [takeByte, h]

@[simp] theorem runWhile_zero {c : Config} {p : Phase} {s : State} : runWhile c p 0 s = .next s := rfl

theorem runWhile_succ {c : Config} {p : Phase} {n : Nat} {s : State} :
    runWhile c p (n + 1) s =
      andThen (onCore (takeAnswer c s.answerNow) (s.took 1)) fun t =>
        if t.phase = p then runWhile c p n t else .next t := rfl

/-- What a run takes: some number of the coming answers, all `m` if the phase lasts; the rest stay to come. -/
theorem runWhile_took {c : Config} {p : Phase} {m : Nat} {s t : State} (h : runWhile c p m s = .next t) :
    ∃ n, n ≤ m ∧ (t.phase = p → n = m) ∧ SameEnv (s.took n) t := by
  induction m generalizing s with
  | zero => cases h; exact ⟨0, Nat.le_refl _, fun _ => rfl, by simp [SameEnv]⟩
  | succ m ih =>
    obtain ⟨u, hu, ht⟩ := andThen_next.mp h
    obtain ⟨h1, h2, h3, h4, h5⟩ := onCore_env hu
    split at ht
    · obtain ⟨n, hn, hp, e1, e2, e3, e4, e5⟩ := ih ht
      refine ⟨1 + n, by omega, fun h => by rw [hp h, Nat.add_comm], ?_⟩
      rw [← took_took]
      exact ⟨e1.trans (by rw [took_src, h1]; rfl), e2.trans (by rw [took_srcLater, h1, h2]; rfl),
        e3.trans h3, e4.trans h4, e5.trans h5⟩
    · next hne => cases ht; exact ⟨1, by omega, fun h => absurd h hne, h1, h2, h3, h4, h5⟩

theorem deliver_idle {c : Config} {bs : List Byte} {s : State} (h : s.phase = .idle) :
    deliver c bs s = .next { s with src := bs.map SrcAnswer.byte ++ s.src } := by
  cases bs with
  | nil => rfl
  | cons b bs => simp [deliver, h]

theorem deliver_cons {c : Config} {b : Byte} {bs : List Byte} {s : State} (h : s.phase ≠ .idle) :
    deliver c (b :: bs) s = andThen (onCore (takeByte c b) s) (deliver c bs) := by
  simp [deliver, h]

/-! ### A step -/

theorem step_next {s t : State} :
    step s = .next t ↔ ∃ i, decode (fetchWord s) = .ok i ∧ exec i (consume s) = .next t := by
  unfold step
  cases decode (fetchWord s) <;> simp

theorem stepOn_next {c : Config} {inp : Inputs} {a : CoreState} {r : StepResult} :
    stepOn c inp a = .next r ↔ ∃ i, decode (wordOn inp a) = .ok i ∧ coreOp c inp.draw i a = .next r := by
  unfold stepOn
  cases decode (wordOn inp a) <;> simp

theorem plainStep_next {r : CoreResult} {q : StepResult} :
    plainStep r = .next q ↔ ∃ a, r = .next a ∧ q = { core := a, answer := none, draws := 0 } := by
  simp [plainStep, andThen_next, eq_comm (a := q)]

@[simp] theorem runOn_zero {c : Config} {env : Nat → Inputs} {a : CoreState} : runOn c env 0 a = .next a := rfl

theorem runOn_succ_next {c : Config} {env : Nat → Inputs} {n : Nat} {a b : CoreState} :
    runOn c env (n + 1) a = .next b ↔
      ∃ u r, runOn c env n a = .next u ∧ stepOn c (env n) u = .next r ∧ r.core = b := by
  simp [runOn, andThen_next]

end Sys2Proof.Machine
end

