-- ==== Sys2Proof/Laws/PerInstr.lean ====
section
/-! SUPPORT. Statements about every operation as syntax, one lemma per constructor. Family EncodedRow: the encoder's word
meets the match and mask of the operation's own row of spec/opcode_table.json. -/

namespace Sys2Proof.Laws.EncodedRow

/-- A DISPATCH14 word that meets a row's match under its mask, and that no row above it in R97's order takes. -/
def meetsRow (pattern mask : BitVec 14) (above : List (BitVec 14 × BitVec 14)) : Word → Bool
  | .dispatch14 dw => (dw &&& mask == pattern) && above.all fun r => dw &&& r.2 != r.1
  | _ => false

/-- The row of spec/opcode_table.json, read as a test on a word. -/
def row : Instr → Word → Bool
  | .wait, w => meetsRow 0x0000 0x0C00 [] w
  | .abort, w => meetsRow 0x0800 0x0C00 [(0x0000, 0x0C00)] w
  | .sync, w => meetsRow 0x1454 0x3CFF [(0x0000, 0x0C00), (0x0800, 0x0C00)] w
  | .discard _, w => meetsRow 0x1400 0x3C00 [(0x0000, 0x0C00), (0x0800, 0x0C00), (0x1454, 0x3CFF)] w
  | .load _, w => meetsRow 0x2400 0x3E00 [(0x0000, 0x0C00), (0x0800, 0x0C00), (0x1454, 0x3CFF), (0x1400, 0x3C00)] w
  | .commit _, w =>
    meetsRow 0x2700 0x3F00
      [(0x0000, 0x0C00), (0x0800, 0x0C00), (0x1454, 0x3CFF), (0x1400, 0x3C00), (0x2400, 0x3E00)] w
  | .reject _, w =>
    meetsRow 0x2600 0x3F00
      [(0x0000, 0x0C00), (0x0800, 0x0C00), (0x1454, 0x3CFF), (0x1400, 0x3C00), (0x2400, 0x3E00), (0x2700, 0x3F00)] w
  | .start, w => w == .cmd1 1
  | .read idx, w => w == .rdport9 idx
  | .reset, w => w == .resetin1 1
  | .findsync, w => match w with | .ops ws => (takeFindSync ws).any fun r => r.2.isEmpty | _ => false
  | .decodepacket, w => match w with | .ops ws => (takePacket 0 ws).any fun r => r.2.isEmpty | _ => false
  | .assemblescan, w =>
    match w with | .ops (.command cmd :: ws) => cmd == 1 && takeScan Config.pktsPerScan ws | _ => false
  | .packet _, w => match w with | .data47 (a :: b :: _) => a == 0x54 && b == 0x2C | _ => false
  | .sample _, w => match w with | .data3 bytes => bytes.length == 3 | _ => false

/-- The encoding of a well-formed operation meets its row of the table. -/
def Statement (i : Instr) : Prop := i.wellFormed = true → row i (encode i) = true

theorem wait : Statement .wait := fun _ => by decide

theorem abort : Statement .abort := fun _ => by decide

theorem sync : Statement .sync := fun _ => by decide

theorem discard (b : Byte) : Statement (.discard b) := by
  unfold Statement
  revert b
  decide

theorem load (b : Byte) : Statement (.load b) := by
  unfold Statement
  revert b
  decide

theorem commit (b : Byte) : Statement (.commit b) := by
  unfold Statement
  revert b
  decide

theorem reject (b : Byte) : Statement (.reject b) := by
  unfold Statement
  revert b
  decide

theorem start : Statement .start := fun _ => by decide

theorem read (idx : BitVec 9) : Statement (.read idx) := fun _ => by simp [row, encode]

theorem reset : Statement .reset := fun _ => by decide

theorem findsync : Statement .findsync := fun _ => by decide

theorem decodepacket : Statement .decodepacket := fun _ => by decide

/-- A FINDSYNC that meets its sync marker at once. -/
theorem takeFindSync_sync (ws : List OpWord) : takeFindSync (syncOp :: ws) = some (true, ws) := by
  have h : syncOp.decode = some (1, .sync) := by decide
  simp [takeFindSync, h]

/-- LOADs up to the last byte, then a COMMIT. -/
theorem takePacket_loads (ws : List OpWord) (n k : Nat) (h : n + k = 45) :
    takePacket n (List.replicate k loadOp ++ commitOp :: ws) = some (.committed, ws) := by
  have hl : loadOp.decode = some (2, .load 0) := by decide
  have hc : commitOp.decode = some (2, .commit 0) := by decide
  induction k generalizing n with
  | zero => simp [takePacket, hc, show n = 45 by omega]
  | succ k ih =>
    have hn : n < 45 := by omega
    simp [List.replicate_succ, takePacket, hl, hn, ih (n + 1) (by omega)]

/-- One sync marker and one packet that commits, as often as the scan asks. -/
theorem takeScan_packets (n : Nat) :
    takeScan n (List.replicate n (syncOp :: packetOps)).flatten = true := by
  induction n with
  | zero => rfl
  | succ n ih =>
    have := takePacket_loads (List.replicate n (syncOp :: packetOps)).flatten 0 45 rfl
    simp only [List.replicate_succ, List.flatten_cons, List.cons_append, takeScan, takeFindSync_sync]
    simp only [packetOps, List.append_assoc, List.singleton_append] at this ih ⊢
    rw [this]
    exact ih

theorem assemblescan : Statement .assemblescan := fun _ => by
  simp only [row, encode, takeScan_packets]
  decide

theorem packet (p : PacketFields) : Statement (.packet p) := fun _ => by
  simp [row, encode, PacketFields.bytes, PacketFields.bodyWith]

theorem sample (x : Sample) : Statement (.sample x) := fun _ => by
  simp [row, encode, Sample.bytes]

end Sys2Proof.Laws.EncodedRow
end

