-- ==== Sys2Proof/Tests/Slice0.lean ====
section
/-! SUPPORT. Tests: expected values from 95_test_vectors.md and the rules' examples, the well-formedness smoke test, and
for every statement with hypotheses a state and operands that meet them. -/

namespace Sys2Proof.Tests

open Sys2Proof Sys2Proof.Machine

/-! ### Helpers -/

/-- The state (phase, bidx, pkt, 12 × pkt, NONE, 0) with `BODY[0]` = b0 and the source's next answers `src`. -/
def at4 (p : Phase) (bidx pkt : Nat) (b0 : Byte) (src : List SrcAnswer) : State :=
  { State.reset with
    phase := p
    bidx := BitVec.ofNat 6 bidx
    pkt := BitVec.ofNat 6 pkt
    count := BitVec.ofNat 9 (12 * pkt)
    body := Memory.write [] 0 b0
    src := src }

/-- A failed assembly: (IDLE, 0, pkt, 12 × pkt, e, 0). -/
def failedAt (e : Err) (pkt : Nat) : State := { at4 .idle 0 pkt 0 [] with err := e }

/-- A complete scan: (IDLE, 0, 38, 456, NONE, 1), with `SCAN[17]` and `SCAN[455]` as after program P1. -/
def doneState : State :=
  { at4 .idle 0 38 0x2C [] with
    scanValid := true
    scan := [(17, { angle := 0x3FE4F1A6C638D03F, distance := 1000, intensity := 128 }),
             (455, { angle := 0x3FF709D10D3E7EAB, distance := 1000, intensity := 128 })] }

/-- The host's side of one step. -/
def hostDoes (i : HostInput) (s : State) : State := { s with host := [i] }

/-- A step in which the host asks for `r`. -/
def asks (r : HostReq) : HostInput := { reset := false, req := r }

/-- The body of S6: length 44, A0 = 0, twelve samples (1000, 128), A1 = 9000. -/
def bodyS6 : List Byte :=
  [0x2C, 0x00, 0x00, 0x00, 0x00, 0xE8, 0x03, 0x80, 0xE8, 0x03, 0x80, 0xE8, 0x03, 0x80, 0xE8, 0x03, 0x80, 0xE8, 0x03, 0x80,
   0xE8, 0x03, 0x80, 0xE8, 0x03, 0x80, 0xE8, 0x03, 0x80, 0xE8, 0x03, 0x80, 0xE8, 0x03, 0x80, 0xE8, 0x03, 0x80, 0xE8, 0x03,
   0x80, 0x28, 0x23, 0x00, 0x00, 0x00]

/-- BODY holding `bytes` from offset `k` on. -/
def loaded (k : Nat) : List Byte → Memory
  | [] => []
  | b :: bs => (loaded (k + 1) bs).write k b

/-- In BODY before the last byte of S6, `pkt` packets committed. -/
def lastOfS6 (pkt : Nat) (src : List SrcAnswer) : State :=
  { at4 .body 45 pkt 0 src with body := loaded 0 (bodyS6.take 45) }

/-- The next state, if there is one. -/
def after (r : Result) : Option State :=
  match r with
  | .next s => some s
  | .fault _ => none
  | .refused _ => none

/-- (PHASE, BIDX, PKT, COUNT, ERR, SCAN_VALID), as 95_test_vectors.md 2.2 writes a state. -/
structure Row where
  phase     : Phase
  bidx      : Nat
  pkt       : Nat
  count     : Nat
  err       : Err
  scanValid : Bool
deriving DecidableEq

/-- The row of a state. -/
def row (s : State) : Row := ⟨s.phase, s.bidx.toNat, s.pkt.toNat, s.count.toNat, s.err, s.scanValid⟩

/-- The row after a step. -/
def stepRow (s : State) : Option Row := (after (step s)).map row

/-- The unit `PKT(35900, 100, 300, 200)` of program P2. -/
def unitP2 : PacketFields := pktSame 35900 100 300 200

/-- The unit `PKT(0, 9000, 1000, 128)` of S6. -/
def unitS6 : PacketFields := pktSame 0 9000 1000 128

/-! ### Well-formedness -/

theorem test_discard_of_the_sync_marker_is_ill_formed : (Instr.discard 0x54).wellFormed = false := by decide

theorem test_packet_of_eleven_samples_is_ill_formed :
    (Instr.packet { unitS6 with samples := unitS6.samples.drop 1 }).wellFormed = false := by decide

/-! ### Decoding, from words written out by hand (R97, R98, R99, R270, R91, R92, R102) -/

theorem test_decode_wait : decode (.dispatch14 0b10001100000000) = .ok .wait := by rfl
theorem test_decode_abort : decode (.dispatch14 0b10101100000000) = .ok .abort := by rfl
theorem test_decode_sync : decode (.dispatch14 0b01010101010100) = .ok .sync := by rfl
theorem test_decode_discard : decode (.dispatch14 0b01010001010101) = .ok (.discard 0x55) := by rfl
theorem test_decode_load : decode (.dispatch14 0b10010101111111) = .ok (.load 0x7F) := by rfl
theorem test_decode_commit : decode (.dispatch14 0b10011100000000) = .ok (.commit 0) := by rfl
theorem test_decode_reject : decode (.dispatch14 0b10011000000001) = .ok (.reject 1) := by rfl
theorem test_decode_start : decodeTableWord 8 0b1 = some .start := by decide
theorem test_decode_read : decode (.rdport9 0b000010001) = .ok (.read 17) := by rfl
theorem test_decode_reset : decode (.resetin1 0b1) = .ok .reset := by rfl
theorem test_decode_findsync :
    decode (.ops [.dispatch 0b01010011111111, .dispatch 0b01100000000000]) = .ok .findsync := by rfl
theorem test_decode_decodepacket :
    decode (.ops [.dispatch 0b10010000101100, .dispatch 0b10000000000000, .dispatch 0b10100000000000]) = .ok .decodepacket := by
  rfl
theorem test_decode_assemblescan :
    decode (.ops [.command 1, .dispatch 0b01010001010100, .dispatch 0b10100000000000]) = .ok .assemblescan := by rfl
theorem test_decode_packet : decode (.data47 (0x54 :: bodyS6)) = .ok (.packet unitS6) := by rfl
theorem test_decode_sample : decodeTableWord 24 0x80_03E8 = some (.sample { distance := 1000, intensity := 128 }) := by decide

/-! ### One step (95_test_vectors.md 2.2; T<n> is the row there) -/

theorem test_wait_T12 : stepRow (at4 .body 45 0 0x2C [.noAnswer]) = some ⟨.body, 45, 0, 0, .noError, false⟩ := by decide

theorem test_abort_T8 : stepRow (at4 .hunt 0 3 0x2C [.fail]) = some ⟨.idle, 0, 3, 36, .ioError, false⟩ := by decide

theorem test_abort_T17 : stepRow (at4 .body 45 0 0x2D [.fail]) = some ⟨.idle, 0, 0, 0, .ioError, false⟩ := by decide

theorem test_sync_T7 : stepRow (at4 .hunt 0 3 0x2C [.byte 0x54]) = some ⟨.body, 0, 3, 36, .noError, false⟩ := by decide

theorem test_discard_T4 :
    after (step (at4 .hunt 0 0 0 [.byte 0x2C, .byte 1])) = some (at4 .hunt 0 0 0 [.byte 1]) := by decide

theorem test_load_T10 :
    stepRow (at4 .body 0 0 0 [.byte 0x54]) = some ⟨.body, 1, 0, 0, .noError, false⟩ ∧
      (after (step (at4 .body 0 0 0 [.byte 0x54]))).map (·.body.read 0) = some 0x54 := by decide

theorem test_load_T11 :
    stepRow (at4 .body 44 0 0x2C [.byte 0x7F]) = some ⟨.body, 45, 0, 0, .noError, false⟩ ∧
      (after (step (at4 .body 44 0 0x2C [.byte 0x7F]))).map (·.body.read 44) = some 0x7F := by decide

/-- R213's example: SCAN[5] = (0.6544984694978736, 1000, 128). -/
theorem test_commit_T13 :
    (after (step (lastOfS6 0 [.byte 0]))).map (fun t => (row t, t.scan.read 5)) =
      some (⟨.hunt, 0, 1, 12, .noError, false⟩, { angle := 0x3FE4F1A6C638D03F, distance := 1000, intensity := 128 }) := by
  decide +kernel

/-- The entry 455 is that of P1: (1.4398966328953218, 1000, 128). -/
theorem test_commit_T14 :
    (after (step (lastOfS6 37 [.byte 0xFF]))).map (fun t => (row t, t.scan.read 455)) =
      some (⟨.idle, 0, 38, 456, .noError, true⟩, { angle := 0x3FF709D10D3E7EAB, distance := 1000, intensity := 128 }) := by
  decide +kernel

theorem test_reject_T15 : stepRow (at4 .body 45 0 0x2D [.byte 0]) = some ⟨.idle, 0, 0, 0, .invalidLength, false⟩ := by decide

theorem test_reject_T16 : stepRow (at4 .body 45 37 0x00 [.byte 0x54]) = some ⟨.idle, 0, 37, 444, .invalidLength, false⟩ := by
  decide

theorem test_start_T21 : stepRow (hostDoes (asks .start) doneState) = some ⟨.hunt, 0, 0, 0, .noError, false⟩ := by decide

theorem test_start_T24 :
    stepRow (hostDoes (asks .start) (at4 .hunt 0 2 0 [])) = some ⟨.hunt, 0, 2, 24, .noError, false⟩ := by decide

/-- R217's example: READ(17) after program P1. -/
theorem test_read_of_P1 :
    (after (step (hostDoes (asks (.read 17)) doneState))).map State.readAnswer =
      some (some { angle := 0x3FE4F1A6C638D03F, distance := 1000, intensity := 128 }) := by decide

/-- R217: rd_idx 456 gives any value; the step goes on and draws a free value. -/
theorem test_read_past_the_end :
    step (hostDoes (asks (.read 456)) doneState) =
      .next { doneState with readAnswer := some (Config.freePoint 0), freeCtr := 1 } := by rfl

theorem test_reset_T26 :
    stepRow (hostDoes { reset := true, req := .start } (at4 .body 3 1 0x2C [.byte 9])) =
      some ⟨.idle, 0, 0, 0, .noError, false⟩ := by rfl

/-! ### Macro-operations and wire formats -/

/-- R130's example: three DISCARDs and one SYNC; the remaining stream starts at the `2C`. -/
theorem test_findsync_example :
    (after (exec .findsync (at4 .hunt 0 0 0 [.byte 0x00, .byte 0xFF, .byte 0x2C, .byte 0x54, .byte 0x2C]))).map
      (fun t => (row t, t.src)) = some (⟨.body, 0, 0, 0, .noError, false⟩, [.byte 0x2C]) := by decide

/-- R130 on a source whose answers all come later: it repeats `00 54`, and the next answer is the `00` again. -/
theorem test_findsync_on_a_source_without_end :
    exec .findsync { at4 .hunt 0 0 0 [] with srcLater := .again (.byte 0) [.byte 0x54] } =
      .next { at4 .body 0 0 0 [] with srcLater := .again (.byte 0) [.byte 0x54] } := by rfl

/-- R150 on a source that answers `2D` for ever: 46 bytes, then InvalidLength. -/
theorem test_decodepacket_on_a_source_without_end :
    (after (exec .decodepacket { at4 .body 0 0 0 [] with srcLater := .again (.byte 0x2D) [.noAnswer] })).map
      (fun t => (row t, t.body.read 44, t.srcLater)) =
      some (⟨.idle, 0, 0, 0, .invalidLength, false⟩, 0x2D, .again .noAnswer [.byte 0x2D]) := by decide +kernel

/-- R150's example and V1: Point 5 of `BODY(0, 9000, 1000, 128)`. -/
theorem test_decodepacket_example :
    (after (exec .decodepacket (at4 .body 0 0 0 (bodyS6.map .byte)))).map (fun t => (row t, t.scan.read 5, t.src)) =
      some (⟨.hunt, 0, 1, 12, .noError, false⟩, { angle := 0x3FE4F1A6C638D03F, distance := 1000, intensity := 128 }, []) := by
  decide +kernel

/-- Program P6: the error is IoError, not InvalidLength. -/
theorem test_assemblescan_P6 :
    (after (exec .assemblescan (at4 .idle 0 0 0 [.byte 0x54, .byte 0x2D, .byte 0, .byte 0, .fail]))).map row =
      some ⟨.idle, 0, 0, 0, .ioError, false⟩ := by decide

/-- Section 2.6: `PKTL(45, 0, 9000, 1000, 128)` ends by REJECT, the cursor after body byte 45. -/
theorem test_assemblescan_wrong_length :
    (after (exec .assemblescan (at4 .idle 0 0 0 (pktlItems 45 0 9000 1000 128 ++ [.byte 7])))).map (fun t => (row t, t.src)) =
      some (⟨.idle, 0, 0, 0, .invalidLength, false⟩, [.byte 7]) := by decide +kernel

/-- Program P2: SCAN[6] = (2·PI, 300, 200). -/
theorem test_packet_P2 :
    (after (exec (.packet unitP2) (at4 .hunt 0 0 0 []))).map (fun t => (row t, t.scan.read 6)) =
      some (⟨.hunt, 0, 1, 12, .noError, false⟩, { angle := 0x401921FB54442D18, distance := 300, intensity := 200 }) := by
  decide +kernel

/-- S6: the sample block `E8 03 80` at offset 5. -/
theorem test_sample_S6 :
    (after (exec (.sample { distance := 1000, intensity := 128 }) (at4 .body 5 0 0x2C []))).map
      (fun t => (row t, [t.body.read 5, t.body.read 6, t.body.read 7])) =
      some (⟨.body, 8, 0, 0, .noError, false⟩, [0xE8, 0x03, 0x80]) := by decide

/-- R138 (b): a source that delivers `00` for ever; each step consumes one and leaves it to come. -/
theorem test_discard_from_an_endless_source :
    after (step { at4 .hunt 0 0 0 [] with srcLater := .again (.byte 0) [] }) =
      some { at4 .hunt 0 0 0 [] with srcLater := .again (.byte 0) [] } := by decide

/-! ### Fields and angles -/

/-- Section 2.1: `28 23` is 9000. -/
theorem test_le16 : le16 0x28 0x23 = 9000 ∧ le16 0x3C 0x8C = 35900 := by decide

/-- Section 2.4: DEG_6 = 360.0 exactly, since each DEG_i is computed afresh (V3). -/
theorem test_angle_V3 : angle .binary64 35900 100 6 = 0x401921FB54442D18 := by decide +kernel

/-- Section 2.4: (DEG × PI) / 180, not DEG × (PI / 180). -/
theorem test_angle_conversion_order : angle .binary64 35900 100 0 = 0x4019101C0DA1DA7A := by decide +kernel

/-- V12, sample 7. -/
theorem test_angle_V12 :
    angle .binary64 1 0 7 = 0x400D527602E63991 ∧ angle .binary32 1 0 7 = 0x406A93B0 := by decide +kernel

/-! ### Witnesses: for every statement with hypotheses, something that meets them -/

theorem done_invariant : Invariant doneState := by constructor <;> decide

theorem hunt_invariant (src : List SrcAnswer) : Invariant (at4 .hunt 0 0 0 src) :=
  (show Invariant (at4 .hunt 0 0 0 []) by constructor <;> decide).with_inputs src .silent []

theorem hunt_last_invariant (src : List SrcAnswer) : Invariant (at4 .hunt 0 37 0 src) :=
  (show Invariant (at4 .hunt 0 37 0 []) by constructor <;> decide).with_inputs src .silent []

theorem idle_invariant (src : List SrcAnswer) : Invariant (at4 .idle 0 0 0 src) :=
  (show Invariant (at4 .idle 0 0 0 []) by constructor <;> decide).with_inputs src .silent []

theorem body_invariant (src : List SrcAnswer) : Invariant (at4 .body 0 0 0 src) :=
  (show Invariant (at4 .body 0 0 0 []) by constructor <;> decide).with_inputs src .silent []

theorem body_last_invariant (src : List SrcAnswer) : Invariant (at4 .body 0 37 0 src) :=
  (show Invariant (at4 .body 0 37 0 []) by constructor <;> decide).with_inputs src .silent []

theorem lastOfS6_invariant (src : List SrcAnswer) : Invariant (lastOfS6 0 src) :=
  (show Invariant (lastOfS6 0 []) by constructor <;> decide).with_inputs src .silent []

theorem lastOfS6_last_invariant (src : List SrcAnswer) : Invariant (lastOfS6 37 src) :=
  (show Invariant (lastOfS6 37 []) by constructor <;> decide).with_inputs src .silent []

theorem badLength_invariant (src : List SrcAnswer) : Invariant (at4 .body 45 37 0x2D src) :=
  (show Invariant (at4 .body 45 37 0x2D []) by constructor <;> decide).with_inputs src .silent []

theorem failed_invariant : Invariant (failedAt .invalidLength 37) := by constructor <;> decide

theorem witness_DecodingAnEncodedOperationGivesItBack :
    (Instr.packet unitS6).wellFormed = true ∧ (Instr.discard 0x55).wellFormed = true := by decide

theorem witness_DispatchRowsOverlapOnlyAtSyncAndDiscard :
    ∃ r q, dispatchRows[2]? = some r ∧ dispatchRows[3]? = some q ∧ r.takes 0x1454 = true ∧ q.takes 0x1454 = true :=
  ⟨_, _, rfl, rfl, by decide, by decide⟩

theorem witness_WordsThatNoRowTakesAreRejectedByName :
    dwEvent 0x0C00 = 3#2 ∧ (dwEvent 0x3400 = 1#2 ∧ dwPhase 0x3400 = 3#2) ∧ (dwEvent 0x0400 = 1#2 ∧ dwPhase 0x0400 = 0#2) ∧
      dwEvent 0x3000 = 0#2 ∧ dwEvent 0x0800 = 2#2 ∧ bodyS6.length ≠ 47 ∧
      (bodyS6.length = 46 ∧ (0x55 : Byte) ≠ 0x54#8) ∧ ((bodyS6.drop 1).length = 45 ∧ (45 : Byte) ≠ 44#8) ∧
      (bodyS6.take 2).length ≠ 3 := by decide

/-- A sequence that is the expansion of no macro-operation: one LOAD. -/
theorem witness_unknown_expansion : ∀ i, decode (.ops [loadOp]) ≠ .ok i := fun _ h => nomatch h

theorem witness_StepRunsTheDecodedOperation : decode (fetchWord (at4 .hunt 0 0 0 [.byte 0x54])) = .ok .sync := by rfl

theorem witness_PresentedWordIsFetched :
    (at4 .hunt 0 0 0 []).body.wf = true ∧ dwEvent 0x1454 ≠ 3#2 ∧ dwPhase 0x1454 ≠ 3#2 ∧ dwPhase 0x1454 ≠ 0#2 ∧
      dwEvent 0x1454 = 1#2 := by decide

theorem witness_StepKeepsTheInvariant :
    Invariant (lastOfS6 37 [.byte 0xFF]) ∧ ∃ t, step (lastOfS6 37 [.byte 0xFF]) = .next t :=
  ⟨lastOfS6_last_invariant _, _, rfl⟩

theorem witness_StepNeverStopsUnderTheInvariant : Invariant State.reset := by constructor <;> decide

theorem witness_WaitChangesNothing :
    (at4 .body 17 0 0 []).hostNow = quietInput ∧ (at4 .body 17 0 0 []).eventNow = .noAnswer := by decide

theorem witness_DiscardChangesNothing : (at4 .hunt 0 0 0 []).phase = .hunt ∧ (0x55 : Byte) ≠ 0x54#8 := by decide

theorem witness_SyncEntersBodyAtOffsetZero : (at4 .hunt 0 3 0x2C []).phase = .hunt := by decide

theorem witness_AbortRaisesIoError : (at4 .hunt 0 3 0 []).phase ≠ .idle ∧ (at4 .body 45 3 0 []).phase ≠ .idle := by decide

theorem witness_LoadStoresItsByteAndAdvances :
    (at4 .body 44 0 0x2C []).body.wf = true ∧ (at4 .body 44 0 0x2C []).phase = .body ∧
      (at4 .body 44 0 0x2C []).bidx.toNat < 45 := by decide

theorem witness_RejectRaisesInvalidLength :
    (at4 .body 45 0 0x2D []).body.wf = true ∧ (at4 .body 45 0 0x2D []).phase = .body ∧
      (at4 .body 45 0 0x2D []).bidx = 45#6 ∧ (at4 .body 45 0 0x2D []).body.read 0 ≠ 44#8 := by decide

/-- Both ends of the loop: the 38th packet and an earlier one. -/
theorem witness_CommitAppendsTwelvePoints :
    (Invariant (lastOfS6 37 []) ∧ (lastOfS6 37 []).bidx = 45#6 ∧ (lastOfS6 37 []).body.read 0 = 44#8 ∧
      (lastOfS6 37 []).pkt.toNat + 1 = 38) ∧
    (Invariant (lastOfS6 0 []) ∧ (lastOfS6 0 []).bidx = 45#6 ∧ (lastOfS6 0 []).body.read 0 = 44#8 ∧
      (lastOfS6 0 []).pkt.toNat + 1 ≠ 38) :=
  ⟨⟨lastOfS6_last_invariant _, by decide⟩, ⟨lastOfS6_invariant _, by decide⟩⟩

theorem witness_MicroOperationOrDecoderMacroOutsideItsConditionIsRefused :
    (at4 .idle 0 0 0 []).phase = .idle ∧ (at4 .idle 0 0 0 []).phase ≠ .hunt ∧ (at4 .body 45 0 0 []).bidx = 45#6 ∧
      (at4 .body 44 0 0 []).bidx ≠ 45#6 ∧ (at4 .body 45 0 43 []).body.read 0 ≠ 44#8 ∧
      (at4 .body 45 0 44 []).body.read 0 = 44#8 ∧ (at4 .hunt 0 0 0 []).phase ≠ .body := by decide

theorem witness_StoreOutsideItsBufferFaults :
    (at4 .body 46 0 0 []).phase = .body ∧ 46 ≤ (at4 .body 46 0 0 []).bidx.toNat ∧
      (at4 .body 45 38 44 []).bidx = 45#6 ∧ (at4 .body 45 38 44 []).body.read 0 = 44#8 ∧
      445 ≤ { at4 .body 45 38 44 [] with count := 445#9 }.count.toNat := by decide

theorem witness_StartBeginsFreshAssembly : (failedAt .invalidLength 1).phase = .idle ∧ doneState.phase = .idle := by decide

theorem witness_StartWhileBusyIsIgnored : (at4 .body 2 0 0 []).phase ≠ .idle ∧ (at4 .hunt 0 2 0 []).phase ≠ .idle := by decide

theorem witness_ReadReturnsTheStoredPoint : doneState.scanValid = true ∧ (455#9).toNat ≤ 455 := by decide

/-- The first index that names no entry, and no valid scan. -/
theorem witness_ReadOutsideItsConditionGivesAFreeValue :
    (doneState.scanValid = true ∧ 456 ≤ (456#9).toNat) ∧ State.reset.scanValid = false := by decide

theorem witness_AssertedResetOverridesItsStep :
    (hostDoes { reset := true, req := .quiet } (at4 .body 3 1 0 [])).hostNow.reset = true := by decide

theorem witness_FindsyncFollowsItsContract :
    (at4 .hunt 0 0 0 []).phase = .hunt ∧ findSync [.byte 1, .byte 0x54, .byte 2] = .ok [.byte 2] ∧
      findSync [.noAnswer, .fail, .byte 2] = .ioError [.byte 2] ∧ findSync [.byte 1] = .waiting := by decide

theorem witness_DecodepacketFollowsItsContract :
    (Invariant (at4 .body 0 37 0 (bodyS6.map .byte)) ∧ Invariant (at4 .body 0 0 0 (bodyS6.map .byte))) ∧
      (at4 .body 0 37 0 []).phase = .body ∧ (at4 .body 0 37 0 []).bidx = 0#6 ∧
      (∃ pts, decodePacket Config.current (bodyS6.map .byte) = .ok pts []) ∧
      decodePacket Config.current ((bodyS6.take 45).map .byte ++ [.fail]) = .ioError [] ∧
      decodePacket Config.current (.byte 0x2D :: (bodyS6.drop 1).map .byte) = .invalidLength [] ∧
      decodePacket Config.current ((bodyS6.take 45).map .byte) = .waiting :=
  ⟨⟨body_last_invariant _, body_invariant _⟩, by decide, by decide, ⟨_, rfl⟩, by decide, by decide, by decide⟩

/-- `ok` with the whole stream used. -/
def okAtEnd : AssembleResult → Bool
  | .ok _ rest => rest.isEmpty
  | .ioError _ => false
  | .invalidLength _ => false
  | .waiting => false

/-- Thirty-eight units of S6, and the four results of R210. -/
theorem witness_AssemblescanFollowsItsContract :
    (∀ src, Invariant (at4 .idle 0 0 0 src) ∧ (at4 .idle 0 0 0 src).phase = .idle) ∧
      okAtEnd (assembleScan Config.current (List.replicate 38 (pktItems unitS6)).flatten) = true ∧
      assembleScan Config.current [.byte 0x54, .fail] = .ioError [] ∧
      assembleScan Config.current (pktlItems 45 0 9000 1000 128) = .invalidLength [] ∧
      assembleScan Config.current [.byte 0x54] = .waiting :=
  ⟨fun _ => ⟨idle_invariant _, rfl⟩, by decide +kernel, by decide, by decide, by decide⟩

theorem witness_AssemblescanWhileBusyChangesNothing : (at4 .hunt 0 2 0 []).phase ≠ .idle := by decide

/-- The empty stream, and a stream with a whole unit, garbage and a failure inside the second body. -/
theorem witness_StepLevelRealisesContractLevel :
    (∀ src, Invariant { hostDoes (asks .start) doneState with src := src } ∧
        { hostDoes (asks .start) doneState with src := src }.phase = .idle ∧
        { hostDoes (asks .start) doneState with src := src }.host = [{ reset := false, req := .start }]) ∧
      assembleScan Config.current [] = .waiting ∧
      assembleScan Config.current (pktItems unitS6 ++ [.byte 7, .noAnswer, .byte 0x54, .byte 0x2C, .fail, .byte 9]) =
        .ioError [.byte 9] :=
  ⟨fun src => ⟨done_invariant.with_inputs src .silent _, rfl, rfl⟩, by decide, by decide +kernel⟩

theorem witness_CompoundOperationsAreStepSequences :
    (Invariant (at4 .hunt 0 37 0 [.fail]) ∧ (at4 .hunt 0 37 0 [.fail]).host = [] ∧ (at4 .hunt 0 37 0 [.fail]).phase = .hunt) ∧
      (Invariant (lastOfS6 0 [.byte 1]) ∧ (lastOfS6 0 [.byte 1]).host = [] ∧ (lastOfS6 0 [.byte 1]).phase = .body) :=
  ⟨⟨hunt_last_invariant _, by decide⟩, ⟨lastOfS6_invariant _, by decide⟩⟩

theorem witness_PacketInHuntGivesThePointsOfItsFields :
    (Invariant (at4 .hunt 0 37 0 []) ∧ (at4 .hunt 0 37 0 []).pkt.toNat + 1 = 38) ∧
      (Invariant (at4 .hunt 0 0 0 []) ∧ (at4 .hunt 0 0 0 []).pkt.toNat + 1 ≠ 38) ∧ unitP2.wellFormed = true :=
  ⟨⟨hunt_last_invariant _, by decide⟩, ⟨hunt_invariant _, by decide⟩, by decide⟩

/-- At offset 42, the last place a whole sample block can be loaded, and at 38 = 5 + 3 × 11. -/
theorem witness_SampleInBodyLoadsThreeBytes :
    (at4 .body 42 0 0x2C []).body.wf = true ∧ (at4 .body 42 0 0x2C []).phase = .body ∧
      (at4 .body 42 0 0x2C []).bidx.toNat + 3 ≤ 45 ∧ (at4 .body 38 0 0x2C []).bidx.toNat = 5 + 3 * 11 := by decide

theorem witness_WireBytesWaitWhileIdle : doneState.phase = .idle := by decide

/-- One step for each case of the statement. -/
theorem witness_ErrIsWrittenOnlyByFourOperations :
    running (at4 .hunt 0 0 0 [.fail]) = some .abort ∧ running (at4 .body 45 0 0x2D [.byte 0]) = some (.reject 0) ∧
      running (hostDoes (asks .start) (failedAt .ioError 3)) = some .start ∧
      running (hostDoes { reset := true, req := .quiet } doneState) = some .reset ∧
      running (failedAt .ioError 3) = some .wait ∧ ∃ t, step (failedAt .ioError 3) = .next t :=
  ⟨by decide, by decide, by decide, by decide, by decide, _, rfl⟩

theorem witness_ScanValidIsSetOnlyByTheLastCommit :
    (∃ t, step (lastOfS6 37 [.byte 0]) = .next t ∧ (lastOfS6 37 [.byte 0]).scanValid = false ∧ t.scanValid = true) ∧
      (∃ t, step (hostDoes (asks .start) doneState) = .next t ∧ doneState.scanValid = true ∧ t.scanValid = false) :=
  ⟨⟨_, rfl, rfl, rfl⟩, ⟨_, rfl, rfl, rfl⟩⟩

theorem witness_SnapshotHoldsUntilTheNextStart :
    Invariant (hostDoes (asks (.read 455)) doneState) ∧ doneState.scanValid = true ∧
      (∃ t, step (hostDoes (asks (.read 455)) doneState) = .next t) ∧
      running (hostDoes (asks (.read 455)) doneState) = some (.read 455) :=
  ⟨by constructor <;> decide, rfl, ⟨_, rfl⟩, by decide⟩

theorem witness_OnlyStartLeavesIdle :
    ∃ t, step (hostDoes (asks .start) (failedAt .ioError 3)) = .next t ∧ (failedAt .ioError 3).phase = .idle ∧
      t.phase ≠ .idle := ⟨_, rfl, rfl, by decide⟩

/-- One step for each of the four ways. -/
theorem witness_AssemblyEndsInOneOfFourWays :
    (Invariant (lastOfS6 37 [.byte 0]) ∧ (lastOfS6 37 [.byte 0]).busy = true ∧
      ∃ t, step (lastOfS6 37 [.byte 0]) = .next t ∧ t.busy = false) ∧
    (Invariant (at4 .hunt 0 37 0 [.fail]) ∧ ∃ t, step (at4 .hunt 0 37 0 [.fail]) = .next t ∧ t.busy = false) ∧
    (Invariant (at4 .body 45 37 0x2D [.byte 0]) ∧ ∃ t, step (at4 .body 45 37 0x2D [.byte 0]) = .next t ∧ t.busy = false) ∧
    (Invariant (hostDoes { reset := true, req := .quiet } (at4 .body 0 37 0 [])) ∧
      ∃ t, step (hostDoes { reset := true, req := .quiet } (at4 .body 0 37 0 [])) = .next t ∧ t.busy = false) :=
  ⟨⟨lastOfS6_last_invariant _, rfl, _, rfl, rfl⟩, ⟨hunt_last_invariant _, _, rfl, rfl⟩,
    ⟨badLength_invariant _, _, rfl, rfl⟩, ⟨by constructor <;> decide, _, rfl, rfl⟩⟩

theorem witness_EventsAreConsumedOnlyWhileBusy :
    (doneState.phase = .idle ∧ ∃ t, step doneState = .next t) ∧
      ((at4 .hunt 0 0 0 [.byte 1]).phase ≠ .idle ∧ (at4 .hunt 0 0 0 [.byte 1]).hostNow = quietInput ∧
        ∃ t, step (at4 .hunt 0 0 0 [.byte 1]) = .next t) :=
  ⟨⟨rfl, _, rfl⟩, ⟨by decide, by decide, _, rfl⟩⟩

theorem witness_PointsOfAnAssemblyAreImmutable :
    (Invariant (lastOfS6 37 [.byte 0]) ∧ (∃ t, step (lastOfS6 37 [.byte 0]) = .next t) ∧
      running (lastOfS6 37 [.byte 0]) ≠ some .reset ∧ 443 < (lastOfS6 37 [.byte 0]).count.toNat) ∧
    (Invariant (at4 .hunt 0 37 0 [.fail]) ∧ (∃ t, step (at4 .hunt 0 37 0 [.fail]) = .next t) ∧
      running (at4 .hunt 0 37 0 [.fail]) = some .abort) :=
  ⟨⟨lastOfS6_last_invariant _, ⟨_, rfl⟩, by decide, by decide⟩, ⟨hunt_last_invariant _, ⟨_, rfl⟩, by decide⟩⟩

/-- Two cores that differ in everything but the inputs, and one step of the first. -/
theorem witness_EarlierStateNeverReachesAResult :
    Invariant (hostDoes (asks .start) doneState) ∧ Invariant (hostDoes (asks .start) (failedAt .ioError 37)) ∧
      doneState.phase = .idle ∧ (failedAt .ioError 37).phase = .idle ∧ doneState.src = (failedAt .ioError 37).src ∧
      ∃ t : State, core.run (0 + 1) (hostDoes (asks .start) doneState) = .next t :=
  ⟨by constructor <;> decide, by constructor <;> decide, rfl, rfl, rfl, _, rfl⟩

/-- The bodies differ outside 3..42: byte 45 and PKT. -/
theorem witness_PointsDependOnlyOnAnglesAndSamples :
    Invariant (lastOfS6 0 []) ∧ Invariant (lastOfS6 37 []) ∧
      (∀ k, 3 ≤ k → k ≤ 42 → (lastOfS6 0 []).body.read k = (lastOfS6 37 []).body.read k) ∧
      (∃ t, exec (.commit 0) (lastOfS6 0 []) = .next t) ∧ (∃ t, exec (.commit 1) (lastOfS6 37 []) = .next t) :=
  ⟨lastOfS6_invariant _, lastOfS6_last_invariant _, fun _ _ _ => rfl, ⟨_, rfl⟩, ⟨_, rfl⟩⟩

theorem witness_GarbageBeforeTheSyncMarkerLeavesNoTrace :
    (at4 .hunt 0 0 0 []).phase = .hunt ∧ (at4 .hunt 0 0 0 []).host = [] ∧ ∀ b ∈ List.replicate 100 (0 : Byte), b ≠ 0x54#8 := by
  decide

/-- An environment that answers `a` in every step and whose host asks for START in every step. -/
def always (a : SrcAnswer) : Nat → Inputs := fun _ => { host := asks .start, answer := a, draw := 0 }

/-- One state for each of the five clauses. -/
theorem witness_NoTimeoutEndsAWait :
    ((at4 .body 3 0 0x2D []).phase ≠ .idle ∧ (at4 .body 3 0 0x2D []).host = [] ∧ (at4 .body 3 0 0x2D []).src = [] ∧
        (at4 .body 3 0 0x2D []).srcLater = .silent) ∧
      ((at4 .hunt 0 0 0 ([1, 0x55].map .byte)).phase = .hunt ∧
        (at4 .hunt 0 0 0 ([1, 0x55].map .byte)).src = [1, 0x55].map SrcAnswer.byte ∧ ∀ b ∈ [1, (0x55 : Byte)], b ≠ 0x54#8) ∧
      (({ at4 .hunt 0 0 0 [] with srcLater := .again (.byte 0) [.byte 0x2C] } : State).phase = .hunt ∧
        ∀ x ∈ [SrcAnswer.byte 0, .byte 0x2C], ∃ b, x = .byte b ∧ b ≠ 0x54#8) ∧
      (∀ k, (always .noAnswer k).host.reset = false ∧ (always .noAnswer k).answer = .noAnswer) ∧
      (∀ k, (always (.byte 0) k).host.reset = false ∧ ∃ b, (always (.byte 0) k).answer = .byte b ∧ b ≠ 0x54#8) :=
  ⟨by decide, by decide, ⟨rfl, by simp⟩, fun _ => ⟨rfl, rfl⟩, fun _ => ⟨rfl, 0, rfl, by decide⟩⟩

/-- Both clauses: 38 units, and 37 units and a `Fail`. -/
theorem witness_ThirtyEightUnitsYieldAScan :
    (∀ src, Invariant (hostDoes (asks .start) (at4 .idle 0 0 0 src)) ∧
        (hostDoes (asks .start) (at4 .idle 0 0 0 src)).phase = .idle ∧
        (hostDoes (asks .start) (at4 .idle 0 0 0 src)).src = src) ∧
      (∀ p ∈ List.replicate 38 unitS6, p.wellFormed = true) ∧ (List.replicate 38 unitS6).length = 38 ∧
      (List.replicate 37 unitS6).length = 37 :=
  ⟨fun src => ⟨(idle_invariant []).with_inputs src .silent _, rfl, rfl⟩, by decide, by decide, by decide⟩

theorem witness_DispatchWordSelectsTheMicroOperation : (at4 .body 45 0 0x2C [.byte 0]).hostNow = quietInput := by decide

/-- The three idle conditions. -/
theorem witness_ExactlyOneIdleConditionHolds :
    (Invariant State.reset ∧ State.reset.phase = .idle) ∧ (Invariant doneState ∧ doneState.phase = .idle) ∧
      (Invariant (failedAt .invalidLength 37) ∧ (failedAt .invalidLength 37).phase = .idle) :=
  ⟨⟨by constructor <;> decide, rfl⟩, ⟨done_invariant, rfl⟩, ⟨failed_invariant, rfl⟩⟩

theorem witness_ConversionsAreExact : 0 ≤ 65535 ∧ 65535 ≤ 65535 := by decide

theorem witness_SequenceWithoutRoundingGivesTheExactAngle : 0 < 12 ∧ 11 < 12 := by decide

theorem witness_StepIsTheStepRelationAtItsInputs :
    decode (wordOn { host := quietInput, answer := .byte 0x54, draw := 0 } (at4 .hunt 0 0 0 []).toCoreState) = .ok .sync := by decide

/-- Two configurations that differ, and a COMMIT. -/
theorem witness_AngleFunctionReachesOnlyTheAngles :
    (lastOfS6 37 []).scan.wf = true ∧
      (∃ t, stepOn (Config.ofFmt .binary64) { host := quietInput, answer := .byte 0, draw := 0 }
          (lastOfS6 37 []).toCoreState = .next t) ∧
      (Config.ofFmt .binary64).angle 0 9000 5 ≠ (Config.ofFmt .binary32).angle 0 9000 5 :=
  ⟨by decide, ⟨_, rfl⟩, by decide +kernel⟩

theorem witness_EveryAngleIsFiniteAndNotNegative : 0 < 12 ∧ 11 < 12 := by decide

end Sys2Proof.Tests
end

section
/-! SUPPORT. One step, seen from the micro-operation its word decodes to. -/

namespace Sys2Proof.Machine

/-! ### What a step consumes (R61) -/

theorem busy_iff {a : CoreState} : a.busy = true ↔ a.phase ≠ .idle := by simp [CoreState.busy]

theorem asks_iff {s : State} : s.asks = true ↔ (∃ dw, fetchWord s = .dispatch14 dw) ∧ s.phase ≠ .idle := by
  unfold State.asks
  cases fetchWord s <;> simp [busy_iff]

theorem step_of_decode {s : State} {i : Instr} (h : decode (fetchWord s) = .ok i) : step s = exec i (consume s) := by
  simp [step, h]

/-- Settles O7: the fields of `consume`, with `asks_iff` for when the source is asked. -/
theorem stepRunsTheDecodedOperation : Obligations.StepRunsTheDecodedOperation := by
  unfold Obligations.StepRunsTheDecodedOperation
  intro s i hi
  have hcore : SameCore s (consume s) := by simp [SameCore]
  have hsrc : (consume s).src = if (∃ dw, fetchWord s = .dispatch14 dw) ∧ s.phase ≠ .idle then s.src.tail else s.src := by
    simp only [consume_src, asks_iff]
  have hlater : (consume s).srcLater =
      if ((∃ dw, fetchWord s = .dispatch14 dw) ∧ s.phase ≠ .idle) ∧ s.src = [] then s.srcLater.next else s.srcLater := by
    simp only [consume_srcLater, Bool.and_eq_true, asks_iff, List.isEmpty_iff]
  exact ⟨step_of_decode hi, hcore, rfl, hsrc, hlater, rfl, rfl⟩

/-! ### The micro-operation a state and an event select (R97) -/

/-- The operation R97 selects for the event `x`; no byte is asked for in IDLE. -/
def CoreState.selects (a : CoreState) : SrcAnswer → Instr
  | .noAnswer => .wait
  | .fail => .abort
  | .byte b =>
    match a.phase with
    | .idle => .wait
    | .hunt => if b = 0x54#8 then .sync else .discard b
    | .body => if a.atLast then (if a.lenOk then .commit b else .reject b) else .load b

theorem decodeDispatch_noAnswer (p : Phase) (last lenok : Bool) :
    decodeDispatch (p.code ++ 0#2 ++ BitVec.ofBool last ++ BitVec.ofBool lenok ++ 0#8) = .ok .wait := by
  cases p <;> cases last <;> cases lenok <;> rfl

theorem decodeDispatch_fail (p : Phase) (last lenok : Bool) :
    decodeDispatch (p.code ++ 2#2 ++ BitVec.ofBool last ++ BitVec.ofBool lenok ++ 0#8) = .ok .abort := by
  cases p <;> cases last <;> cases lenok <;> rfl

theorem decodeDispatch_hunt_byte (last lenok : Bool) (b : Byte) :
    decodeDispatch (1#2 ++ 1#2 ++ BitVec.ofBool last ++ BitVec.ofBool lenok ++ b) =
      .ok (if b = 0x54#8 then .sync else .discard b) := by
  cases last <;> cases lenok <;> revert b <;> decide

theorem decodeDispatch_body_byte (last lenok : Bool) (b : Byte) :
    decodeDispatch (2#2 ++ 1#2 ++ BitVec.ofBool last ++ BitVec.ofBool lenok ++ b) =
      .ok (if last then (if lenok then .commit b else .reject b) else .load b) := by
  cases last <;> cases lenok <;> revert b <;> decide

theorem decode_dispatchWord {a : CoreState} (x : SrcAnswer) (h : a.phase = .idle → x = .noAnswer) :
    decode (.dispatch14 (a.dispatchWord x)) = .ok (a.selects x) := by
  cases x with
  | noAnswer => exact decodeDispatch_noAnswer _ _ _
  | fail => exact decodeDispatch_fail _ _ _
  | byte b =>
    simp only [CoreState.selects, decode, CoreState.dispatchWord, SrcAnswer.code, SrcAnswer.data]
    cases hp : a.phase with
    | idle => exact absurd (h hp) (by simp)
    | hunt => exact decodeDispatch_hunt_byte _ _ _
    | body => exact decodeDispatch_body_byte _ _ _

/-- The operation selected is the taking of the event. -/
theorem exec_selects {s : State} (x : SrcAnswer) (h : s.phase ≠ .idle) :
    exec (s.selects x) s = onCore (takeAnswer Config.current x) s := by
  cases x with
  | noAnswer => rfl
  | fail => rfl
  | byte b =>
    unfold onCore takeAnswer takeByte CoreState.selects
    cases hp : s.phase with
    | idle => exact absurd hp h
    | hunt => by_cases hb : b = 0x54#8 <;> simp only [Config.syncByte_eq, hb, if_true, if_false] <;> rfl
    | body => cases s.atLast <;> cases s.lenOk <;> rfl

/-! ### A step of a busy core whose host has gone quiet -/

theorem fetchWord_of_quiet {s : State} (h : s.host = []) : fetchWord s = .dispatch14 (s.dispatchWord s.eventNow) := by
  simp [fetchWord, wordOn, State.inputsNow, State.hostNow, State.eventNow, h]

theorem event_of_busy {a : CoreState} (h : a.phase ≠ .idle) (x : SrcAnswer) : a.event x = x := by
  unfold CoreState.event
  cases hp : a.phase <;> simp_all

theorem consume_of_quiet {s : State} (hh : s.host = []) (hp : s.phase ≠ .idle) : consume s = s.took 1 := by
  have hask : s.asks = true := asks_iff.mpr ⟨⟨_, fetchWord_of_quiet hh⟩, hp⟩
  simp [consume, hask, State.took, hh]

/-- It takes the next answer (R33, R61, R97). -/
theorem step_of_quiet {s : State} (hh : s.host = []) (hp : s.phase ≠ .idle) :
    step s = onCore (takeAnswer Config.current s.answerNow) (s.took 1) := by
  have hev : s.eventNow = s.answerNow := event_of_busy hp _
  have hdec : decode (fetchWord s) = .ok (s.selects s.answerNow) := by
    rw [fetchWord_of_quiet hh, hev, decode_dispatchWord _ fun h => absurd h hp]
  rw [step_of_decode hdec, consume_of_quiet hh hp]
  exact exec_selects (s := s.took 1) _ hp

/-- The state an accepted START comes to (R211). -/
def State.begun (s : State) : State := { s with toCoreState := beginAssembly s.toCoreState }

@[simp] theorem begun_toCoreState (s : State) : s.begun.toCoreState = beginAssembly s.toCoreState := rfl

/-- START takes no answer. -/
theorem step_of_start {s : State} {later : List HostInput} (hp : s.phase = .idle)
    (hh : s.host = { reset := false, req := .start } :: later) :
    step s = .next ({ s with host := later } : State).begun := by
  have hw : fetchWord s = .cmd1 1 := by simp [fetchWord, wordOn, State.inputsNow, State.hostNow, hh, hp]
  have hask : s.asks = false := by simp [State.asks, hw]
  have hdec : decode (fetchWord s) = .ok .start := by rw [hw]; rfl
  rw [step_of_decode hdec]
  refine execStart_next.mpr ?_
  simp [State.begun, consume, hask, hh, hp]

end Sys2Proof.Machine
end

section
/-! SUPPORT. What taking one answer can do to a busy core: one case for each micro-operation of R97. -/

namespace Sys2Proof.Machine

/-- A busy core `a` takes the answer `x` by one micro-operation, which leaves it as the last index says. -/
inductive AnswerStep (c : Config) : SrcAnswer → CoreState → CoreState → Prop where
  | wait {a : CoreState} : AnswerStep c .noAnswer a a
  | abort {a : CoreState} : AnswerStep c .fail a (raise .ioError a)
  | sync {a : CoreState} (hp : a.phase = .hunt) : AnswerStep c (.byte 0x54#8) a { a with phase := .body, bidx := 0#6 }
  | discard {a : CoreState} {b : Byte} (hp : a.phase = .hunt) (hb : b ≠ 0x54#8) : AnswerStep c (.byte b) a a
  | load {a : CoreState} {b : Byte} (hp : a.phase = .body) (hlast : a.bidx ≠ 45#6) (hlt : a.bidx.toNat < 46) :
    AnswerStep c (.byte b) a { a with body := a.body.write a.bidx.toNat b, bidx := a.bidx + 1#6 }
  | commit {a : CoreState} {b : Byte} (hp : a.phase = .body) (hlast : a.bidx = 45#6) (hlen : a.lenOk = true)
      (hcount : a.count.toNat + 12 ≤ 456) :
    AnswerStep c (.byte b) a (countPacket { a with
      body := a.body.write 45 b
      scan := a.scan.writeFrom a.count.toNat (points c (a.body.write 45 b).read) })
  | reject {a : CoreState} {b : Byte} (hp : a.phase = .body) (hlast : a.bidx = 45#6) (hlen : a.lenOk = false) :
    AnswerStep c (.byte b) a (raise .invalidLength { a with body := a.body.write 45 b })

theorem atLast_iff {a : CoreState} : a.atLast = true ↔ a.bidx = 45#6 := by simp [CoreState.atLast]

theorem atLastByte_iff {a : CoreState} : a.atLastByte = true ↔ a.phase = .body ∧ a.bidx = 45#6 := by
  simp [CoreState.atLastByte, CoreState.atLast]

/-- `AnswerStep` is what `takeAnswer` does to a busy core. -/
theorem takeAnswer_next {c : Config} {x : SrcAnswer} {a t : CoreState} (h : a.phase ≠ .idle) :
    takeAnswer c x a = .next t ↔ AnswerStep c x a t := by
  constructor
  · intro ht
    cases x with
    | noAnswer => rw [coreWait_next.mp ht]; exact .wait
    | fail => rw [(coreAbort_next.mp ht).2]; exact .abort
    | byte b =>
      change takeByte c b a = .next t at ht
      cases hp : a.phase with
      | idle => exact absurd hp h
      | hunt =>
        rw [takeByte_hunt hp] at ht
        split at ht
        · next hb => cases ht; exact hb ▸ .sync hp
        · next hb => cases ht; exact .discard hp hb
      | body =>
        rw [takeByte_body hp] at ht
        split at ht
        · next hl =>
          split at ht
          · next hlen =>
            obtain ⟨-, -, hcount, rfl⟩ := coreCommit_next.mp ht
            exact .commit hp (atLast_iff.mp hl) hlen hcount
          · next hlen =>
            obtain ⟨-, hlen, rfl⟩ := coreReject_next.mp ht
            exact .reject hp (atLast_iff.mp hl) hlen
        · next hl =>
          obtain ⟨-, hlast, hlt, rfl⟩ := coreLoad_next.mp ht
          exact .load hp hlast hlt
  · intro ht
    cases ht with
    | wait => rfl
    | abort => exact coreAbort_next.mpr ⟨h, rfl⟩
    | sync hp => exact (takeByte_hunt hp).trans (if_pos rfl)
    | discard hp hb => exact (takeByte_hunt hp).trans (if_neg hb)
    | load hp hlast hlt =>
      refine (takeByte_body hp).trans ((if_neg (mt atLast_iff.mp hlast)).trans ?_)
      exact coreLoad_next.mpr ⟨hp, hlast, hlt, rfl⟩
    | commit hp hlast hlen hcount =>
      refine (takeByte_body hp).trans ((if_pos (atLast_iff.mpr hlast)).trans ((if_pos hlen).trans ?_))
      exact coreCommit_next.mpr ⟨atLastByte_iff.mpr ⟨hp, hlast⟩, hlen, hcount, rfl⟩
    | reject hp hlast hlen =>
      refine (takeByte_body hp).trans ((if_pos (atLast_iff.mpr hlast)).trans ((if_neg (by simp [hlen])).trans ?_))
      exact coreReject_next.mpr ⟨atLastByte_iff.mpr ⟨hp, hlast⟩, hlen, rfl⟩

/-! ### It keeps R37 and never stops -/

theorem pkt_succ_toNat {p : BitVec 6} (h : p.toNat ≤ 37) : (p + 1#6).toNat = p.toNat + 1 := by bv_omega

theorem lastPacket_iff {p : BitVec 6} (h : p.toNat ≤ 37) : p + 1#6 = 38#6 ↔ p.toNat = 37 := by
  constructor <;> intro h' <;> bv_omega

theorem Invariant.pkt_le_of_busy {s : State} (hI : Invariant s) (hp : s.phase ≠ .idle) : s.pkt.toNat ≤ 37 :=
  (hI.running hp).2.2

/-- Under R37 (a), (d), (e) every answer is taken. -/
theorem Invariant.answerStep {s : State} (hI : Invariant s) (hp : s.phase ≠ .idle) (c : Config) (x : SrcAnswer) :
    ∃ a, AnswerStep c x s.toCoreState a := by
  cases x with
  | noAnswer => exact ⟨_, .wait⟩
  | fail => exact ⟨_, .abort⟩
  | byte b =>
    cases hph : s.phase with
    | idle => exact absurd hph hp
    | hunt =>
      by_cases hb : b = 0x54#8
      · exact hb ▸ ⟨_, .sync hph⟩
      · exact ⟨_, .discard hph hb⟩
    | body =>
      by_cases hl : s.bidx = 45#6
      · have hcount : s.count.toNat + 12 ≤ 456 := by
          have := hI.count_eq
          have := hI.pkt_le_of_busy hp
          omega
        cases hlen : s.lenOk with
        | true => exact ⟨_, .commit hph hl hlen hcount⟩
        | false => exact ⟨_, .reject hph hl hlen⟩
      · exact ⟨_, .load hph hl (Nat.lt_succ_of_le hI.bidx_le)⟩

theorem Invariant.raised {s : State} (hI : Invariant s) (hp : s.phase ≠ .idle) (e : Err) :
    Invariant { s with toCoreState := raise e s.toCoreState } := by
  obtain ⟨-, hvalid, hpkt⟩ := hI.running hp
  exact
    { count_eq := hI.count_eq, pkt_le := hI.pkt_le, body_wf := hI.body_wf, scan_wf := hI.scan_wf
      valid := fun h => absurd (hvalid.symm.trans h) (by decide)
      failed := fun _ => ⟨rfl, hvalid, hpkt⟩
      running := fun h => absurd rfl h
      bidx_zero := fun _ => rfl
      bidx_le := by simp }

theorem Invariant.synced {s : State} (hI : Invariant s) (hp : s.phase = .hunt) :
    Invariant { s with phase := .body, bidx := 0#6 } := by
  obtain ⟨herr, hvalid, hpkt⟩ := hI.running (by simp [hp])
  exact
    { count_eq := hI.count_eq, pkt_le := hI.pkt_le, body_wf := hI.body_wf, scan_wf := hI.scan_wf
      valid := fun h => absurd (hvalid.symm.trans h) (by decide)
      failed := fun h => absurd herr h
      running := fun _ => ⟨herr, hvalid, hpkt⟩
      bidx_zero := fun h => absurd rfl h
      bidx_le := by simp }

theorem Invariant.storedByte {s : State} (hI : Invariant s) {k : Nat} (hk : k < 46) (b : Byte) :
    Invariant { s with body := s.body.write k b } :=
  { hI with body_wf := Memory.write_wf hI.body_wf hk b }

theorem Invariant.advanced {s : State} (hI : Invariant s) (hp : s.phase = .body) (hl : s.bidx ≠ 45#6) :
    Invariant { s with bidx := s.bidx + 1#6 } :=
  { hI with
    bidx_zero := fun h => absurd hp h
    bidx_le := by
      have := hI.bidx_le
      change (s.bidx + 1#6).toNat ≤ 45
      bv_omega }

theorem Invariant.committed {s : State} (hI : Invariant s) (hp : s.phase ≠ .idle) {ps : List Point} (hps : ps.length = 12) :
    Invariant { s with
      toCoreState := countPacket { s.toCoreState with scan := s.scan.writeFrom s.count.toNat ps } } := by
  obtain ⟨herr, hvalid, hpkt⟩ := hI.running hp
  have hcount := hI.count_eq
  have hsucc := pkt_succ_toNat hpkt
  have hadd : (s.count + 12#9).toNat = s.count.toNat + 12 := by bv_omega
  constructor
  case count_eq => simp only [countPacket_count, countPacket_pkt, hadd, hsucc]; omega
  case pkt_le => simp only [countPacket_pkt, hsucc]; omega
  case valid =>
    by_cases h38 : s.pkt + 1#6 = 38#6
    · have h37 := (lastPacket_iff hpkt).mp h38
      have h456 : s.count + 12#9 = 456#9 := by bv_omega
      simp [h38, herr, h456]
    · simp [h38, hvalid]
  case failed => exact fun h => absurd (by simpa using herr) h
  case running =>
    by_cases h38 : s.pkt + 1#6 = 38#6
    · simp [h38]
    · have h37 := mt (lastPacket_iff hpkt).mpr h38
      simp only [countPacket_err, countPacket_scanValid, countPacket_pkt, h38, if_false, hsucc]
      exact fun _ => ⟨herr, hvalid, by omega⟩
  case bidx_zero => simp
  case bidx_le => simp
  case body_wf => simpa using hI.body_wf
  case scan_wf =>
    simp only [countPacket_scan]
    exact ScanMem.writeFrom_wf hI.scan_wf _ _ (by simp only [hps, Config.cap_eq]; omega)

theorem AnswerStep.keeps_invariant {c : Config} {x : SrcAnswer} {s : State} {a : CoreState}
    (h : AnswerStep c x s.toCoreState a) (hI : Invariant s) (hp : s.phase ≠ .idle) :
    Invariant { s with toCoreState := a } := by
  cases h with
  | wait => exact hI
  | abort => exact hI.raised hp .ioError
  | sync hph => exact hI.synced hph
  | discard => exact hI
  | load hph hl hlt => exact (hI.storedByte hlt _).advanced hph hl
  | commit => exact (hI.storedByte (by decide) _).committed hp (points_length _ _)
  | reject => exact (hI.storedByte (by decide) _).raised hp .invalidLength

/-- Between answers of one assembly PKT counts the ways from BODY back to HUNT. -/
theorem AnswerStep.pkt_eq {c : Config} {x : SrcAnswer} {s : State} {a : CoreState}
    (h : AnswerStep c x s.toCoreState a) (hI : Invariant s) (hp : s.phase ≠ .idle) (ha : a.phase ≠ .idle) :
    a.pkt.toNat = s.pkt.toNat + if s.phase = .body ∧ a.phase = .hunt then 1 else 0 := by
  cases h with
  | wait => simp +contextual
  | abort => simp at ha
  | sync hph => simp
  | discard hph => simp [hph]
  | load hph => simp [hph]
  | commit hph =>
    by_cases h38 : s.pkt + 1#6 = 38#6
    · simp [h38] at ha
    · simp [h38, hph, pkt_succ_toNat (hI.pkt_le_of_busy hp)]
  | reject => simp at ha

end Sys2Proof.Machine
end

section
/-! SUPPORT. Runs of the machine: their composition, and what it is for the steps to realise an operation. -/

namespace Sys2Proof.Machine

/-! ### The runs of any machine -/

section AnyMachine

variable {M : Host.Core} {s t u : M.State}

theorem run_succ_next {n : Nat} : M.run (n + 1) s = .next t ↔ ∃ u, M.step s = .next u ∧ M.run n u = .next t := by
  rw [Host.Core.run]
  cases M.step s with
  | next u => exact ⟨fun h => ⟨u, rfl, h⟩, fun ⟨_, rfl, h⟩ => h⟩
  | fault e => simp
  | refused e => simp

theorem run_of_step (h : M.step s = .next u) (n : Nat) : M.run (n + 1) s = M.run n u := by
  rw [Host.Core.run, h]

theorem run_of_run {m : Nat} (h : M.run m s = .next t) (n : Nat) : M.run (m + n) s = M.run n t := by
  induction m generalizing s with
  | zero => cases h; rw [Nat.zero_add]
  | succ m ih =>
    obtain ⟨u, hu, ht⟩ := run_succ_next.mp h
    rw [Nat.succ_add, run_of_step hu]
    exact ih ht

end AnyMachine

/-! ### The inputs along a run -/

theorem SameEnv.of_took_trans {s t u : State} {m n : Nat} (hst : SameEnv (s.took m) t) (htu : SameEnv (t.took n) u) :
    SameEnv (s.took (m + n)) u := by
  obtain ⟨h1, h2, h3, h4, h5⟩ := hst
  obtain ⟨k1, k2, k3, k4, k5⟩ := htu
  rw [← took_took]
  exact ⟨k1.trans (by simp [h1]), k2.trans (by rw [took_srcLater, took_srcLater, h1, h2]), k3.trans h3, k4.trans h4,
    k5.trans h5⟩

/-! ### Realisation -/

/-- Running the step level from `s` takes `n` answers in `n` steps and comes to `t`; before that every state meets `P`. -/
structure Realises (P : State → Prop) (s : State) (n : Nat) (t : State) : Prop where
  inputs : SameEnv (s.took n) t
  runs   : core.run n s = .next t
  before : ∀ m, m < n → ∃ u : State, core.run m s = .next u ∧ P u

/-- However many steps are run from `s`, each comes to a state that meets `P`. -/
def RunsForever (P : State → Prop) (s : State) : Prop := ∀ m, ∃ u : State, core.run m s = .next u ∧ P u

variable {P Q : State → Prop} {s t u : State} {m n : Nat}

theorem Realises.refl (P : State → Prop) (s : State) : Realises P s 0 s :=
  ⟨by simp [SameEnv], rfl, fun _ h => absurd h (Nat.not_lt_zero _)⟩

theorem Realises.trans (hst : Realises P s m t) (htu : Realises P t n u) : Realises P s (m + n) u where
  inputs := hst.inputs.of_took_trans htu.inputs
  runs := (run_of_run hst.runs n).trans htu.runs
  before k hk := by
    by_cases hkm : k < m
    · exact hst.before k hkm
    · obtain ⟨j, rfl⟩ := Nat.exists_eq_add_of_le (Nat.le_of_not_lt hkm)
      rw [run_of_run hst.runs j]
      exact htu.before j (by omega)

theorem Realises.mono (h : Realises P s n t) (hPQ : ∀ v, P v → Q v) : Realises Q s n t :=
  ⟨h.inputs, h.runs, fun m hm => (h.before m hm).imp fun _ hu => ⟨hu.1, hPQ _ hu.2⟩⟩

theorem RunsForever.mono (h : RunsForever P s) (hPQ : ∀ v, P v → Q v) : RunsForever Q s :=
  fun m => (h m).imp fun _ hu => ⟨hu.1, hPQ _ hu.2⟩

theorem Realises.host_nil (h : Realises P s n t) (hh : s.host = []) : t.host = [] := by
  obtain ⟨-, -, hhost, -⟩ := h.inputs
  exact hhost.trans hh

theorem Realises.then_forever (hst : Realises P s n t) (ht : RunsForever P t) : RunsForever P s := by
  intro m
  by_cases hm : m < n
  · exact hst.before m hm
  · obtain ⟨j, rfl⟩ := Nat.exists_eq_add_of_le (Nat.le_of_not_lt hm)
    rw [run_of_run hst.runs j]
    exact ht j

/-! ### One answer -/

/-- The state after the next answer was taken and left the core as `a`. -/
def State.answered (s : State) (a : CoreState) : State := { s.took 1 with toCoreState := a }

@[simp] theorem answered_toCoreState (s : State) (a : CoreState) : (s.answered a).toCoreState = a := rfl
@[simp] theorem answered_host (s : State) (a : CoreState) : (s.answered a).host = s.host := rfl
@[simp] theorem answered_answers (s : State) (a : CoreState) (n : Nat) :
    (s.answered a).answers n = (s.took 1).answers n := rfl

theorem took_succ (s : State) (n : Nat) : s.took (n + 1) = (s.took n).answered s.toCoreState :=
  (took_took s n 1).symm

theorem onCore_takeAnswer {c : Config} {s : State} {a : CoreState} (hp : s.phase ≠ .idle)
    (h : AnswerStep c s.answerNow s.toCoreState a) :
    onCore (takeAnswer c s.answerNow) (s.took 1) = .next (s.answered a) :=
  onCore_of_next (s := s.took 1) ((takeAnswer_next hp).mpr h)

/-- The step that takes the next answer of a busy core. -/
theorem realises_answer {a : CoreState} (hh : s.host = []) (hp : s.phase ≠ .idle)
    (h : AnswerStep Config.current s.answerNow s.toCoreState a) (hP : P s) : Realises P s 1 (s.answered a) where
  inputs := ⟨rfl, rfl, rfl, rfl, rfl⟩
  runs := run_of_step (M := core) ((step_of_quiet hh hp).trans (onCore_takeAnswer hp h)) 0
  before m hm := by
    obtain rfl : m = 0 := by omega
    exact ⟨s, rfl, hP⟩

/-- A busy core that no answer to come changes waits for ever. -/
theorem realises_of_unchanging (hh : s.host = []) (hp : s.phase ≠ .idle)
    (h : ∀ k, AnswerStep Config.current (s.took k).answerNow s.toCoreState s.toCoreState) (n : Nat) :
    Realises (fun v => v.phase = s.phase) s n (s.took n) := by
  induction n with
  | zero => rw [took_zero]; exact .refl _ s
  | succ n ih =>
    rw [took_succ]
    exact ih.trans (realises_answer (s := s.took n) hh hp (h n) rfl)

theorem runsForever_of_unchanging (hh : s.host = []) (hp : s.phase ≠ .idle)
    (h : ∀ k, AnswerStep Config.current (s.took k).answerNow s.toCoreState s.toCoreState) :
    RunsForever (fun v => v.phase = s.phase) s :=
  fun m => ⟨s.took m, (realises_of_unchanging hh hp h m).runs, rfl⟩

end Sys2Proof.Machine
end

section
/-! SUPPORT. The steps realise FINDSYNC and DECODEPACKET (R102, R138). -/

namespace Sys2Proof.Machine

/-- The answers that bring a phase to its end: a mark ends HUNT, each event is one of the at most 46 of BODY. -/
def Phase.counts : Phase → SrcAnswer → Bool
  | .idle, _ => false
  | .hunt, x => x.isMark
  | .body, x => x.isEvent

/-- How many such answers a core that is still in the phase has taken in it. -/
def CoreState.counted (a : CoreState) : Nat :=
  match a.phase with
  | .idle => 0
  | .hunt => 0
  | .body => a.bidx.toNat

theorem AnswerStep.counted_eq {c : Config} {x : SrcAnswer} {a b : CoreState} (h : AnswerStep c x a b)
    (hp : a.phase ≠ .idle) (hab : b.phase = a.phase) :
    b.counted = a.counted + if a.phase.counts x then 1 else 0 := by
  cases h with
  | wait => cases hph : a.phase <;> simp [Phase.counts, SrcAnswer.isMark, SrcAnswer.isEvent]
  | abort => exact absurd hab.symm hp
  | sync hph => exact Phase.noConfusion (hab.trans hph)
  | discard hph hb => simp [hph, Phase.counts, SrcAnswer.isMark, hb]
  | load hph hlast hlt =>
    have : (a.bidx + 1#6).toNat = a.bidx.toNat + 1 := by bv_omega
    simp [CoreState.counted, hph, Phase.counts, SrcAnswer.isEvent, this]
  | commit hph => rw [hph, countPacket_phase] at hab; split at hab <;> exact absurd hab (by decide)
  | reject => exact absurd hab.symm hp

/-- An answer that does not count changes nothing. -/
theorem answerStep_of_not_counts {c : Config} {x : SrcAnswer} {a : CoreState} (hp : a.phase ≠ .idle)
    (hx : a.phase.counts x = false) : AnswerStep c x a a := by
  cases hph : a.phase with
  | idle => exact absurd hph hp
  | hunt =>
    rw [hph] at hx
    cases x with
    | noAnswer => exact .wait
    | fail => cases hx
    | byte b => exact .discard hph (by simpa [Phase.counts, SrcAnswer.isMark] using hx)
  | body =>
    rw [hph] at hx
    cases x with
    | noAnswer => exact .wait
    | fail => cases hx
    | byte b => cases hx

/-- `runWhile` goes on while the phase lasts. -/
theorem runWhile_of_answer {c : Config} {p : Phase} {n : Nat} {s : State} {a : CoreState} (hp : s.phase ≠ .idle)
    (h : AnswerStep c s.answerNow s.toCoreState a) :
    runWhile c p (n + 1) s = if a.phase = p then runWhile c p n (s.answered a) else .next (s.answered a) := by
  rw [runWhile_succ, onCore_takeAnswer hp h, andThen_of_next, answered_toCoreState]

/-- What taking `m` answers at most in the phase `p` comes to, after `n` of them. -/
structure PhaseRun (p : Phase) (m : Nat) (s : State) (n : Nat) (t : State) : Prop where
  steps   : Realises (fun v => v.phase = p) s n t
  inv     : Invariant t
  pkt     : t.phase ≠ .idle → t.pkt.toNat = s.pkt.toNat + if p = .body ∧ t.phase = .hunt then 1 else 0
  lasting : t.phase = p → n = m ∧ t.counted = s.counted + (s.answers m).countP p.counts

theorem PhaseRun.zero {p : Phase} {s : State} (hI : Invariant s) (hp : s.phase = p) : PhaseRun p 0 s 0 s where
  steps := .refl _ s
  inv := hI
  pkt _ := by simp +contextual [← hp]
  lasting _ := ⟨rfl, by simp [State.answers, SrcLater.answers]⟩

theorem Invariant.answered {s : State} {a : CoreState} (hI : Invariant s) (hb : s.phase ≠ .idle)
    (h : AnswerStep Config.current s.answerNow s.toCoreState a) : Invariant (s.answered a) :=
  (h.keeps_invariant hI hb).with_inputs _ _ _

/-- The answer that ends the phase. -/
theorem PhaseRun.last {p : Phase} {m : Nat} {s : State} {a : CoreState} (hI : Invariant s) (hh : s.host = [])
    (hp : s.phase = p) (hb : p ≠ .idle) (h : AnswerStep Config.current s.answerNow s.toCoreState a)
    (hend : a.phase ≠ p) : PhaseRun p (m + 1) s 1 (s.answered a) := by
  subst hp
  exact ⟨realises_answer hh hb h rfl, hI.answered hb h, h.pkt_eq hI hb, fun hlast => absurd hlast hend⟩

/-- An answer with which the phase lasts. -/
theorem PhaseRun.cons {p : Phase} {m n : Nat} {s t : State} {a : CoreState} (hI : Invariant s) (hh : s.host = [])
    (hp : s.phase = p) (hb : p ≠ .idle) (h : AnswerStep Config.current s.answerNow s.toCoreState a)
    (hstay : a.phase = p) (hrun : PhaseRun p m (s.answered a) n t) : PhaseRun p (m + 1) s (1 + n) t := by
  subst hp
  refine ⟨(realises_answer (P := fun v => v.phase = s.phase) hh hb h rfl).trans hrun.steps, hrun.inv,
    fun ht => ?_, fun ht => ?_⟩
  · have hpkt : a.pkt.toNat = s.pkt.toNat := by
      rw [h.pkt_eq hI hb (hstay ▸ hb), hstay]
      simp +contextual
    rw [hrun.pkt ht, answered_toCoreState, hpkt]
  · obtain ⟨hn, hcount⟩ := hrun.lasting ht
    refine ⟨by omega, ?_⟩
    rw [hcount, answered_toCoreState, h.counted_eq hb hstay, answered_answers, State.answers_succ, List.countP_cons]
    omega

theorem runWhile_realised {p : Phase} (hb : p ≠ .idle) (m : Nat) {s : State} (hI : Invariant s) (hh : s.host = [])
    (hp : s.phase = p) : ∃ t n, runWhile Config.current p m s = .next t ∧ PhaseRun p m s n t := by
  induction m generalizing s with
  | zero => exact ⟨s, 0, rfl, .zero hI hp⟩
  | succ m ih =>
    have hbusy : s.phase ≠ .idle := hp ▸ hb
    obtain ⟨a, ha⟩ := hI.answerStep hbusy Config.current s.answerNow
    rw [runWhile_of_answer hbusy ha]
    by_cases hstay : a.phase = p
    · rw [if_pos hstay]
      obtain ⟨t, n, ht, hrun⟩ := ih (hI.answered hbusy ha) hh hstay
      exact ⟨t, 1 + n, ht, hrun.cons hI hh hp hb ha hstay⟩
    · rw [if_neg hstay]
      exact ⟨_, 1, rfl, .last hI hh hp hb ha hstay⟩

/-! ### A phase that outlasts the reach lasts for ever (R138) -/

/-- The most answers that count which a core still in the phase can have taken. -/
def Phase.limit : Phase → Nat
  | .idle => 0
  | .hunt => 0
  | .body => 45

theorem Invariant.counted_le {s : State} (hI : Invariant s) : s.counted ≤ s.phase.limit := by
  unfold CoreState.counted Phase.limit
  cases s.phase <;> simp [hI.bidx_le]

/-- If an answer that counts comes beyond reach, more of them than the phase can take come within. -/
theorem counts_within_reach {p : Phase} {l : SrcLater} {k : Nat} (hk : l.reach ≤ k)
    (h : p.counts (l.after k).now = true) : p.limit < (l.answers l.reach).countP p.counts := by
  cases p with
  | idle => cases h
  | hunt =>
    obtain ⟨j, hj, hmark⟩ := mark_within_reach l k h
    exact List.countP_pos_iff.mpr ⟨_, List.mem_of_getElem? (answers_getElem? l hj), hmark⟩
  | body => exact events_within_reach l k hk h

theorem answers_past_listed (s : State) (r : Nat) : s.answers (s.src.length + r) = s.src ++ s.srcLater.answers r := by
  simp [State.answers]

/-- What is left to come once the listed answers and `r` more are taken. -/
theorem answerNow_past_listed {s t : State} {r : Nat} (h : SameEnv (s.took (s.src.length + r)) t) (k : Nat) :
    (t.took k).answerNow = (s.srcLater.after (r + k)).now := by
  obtain ⟨hsrc, hlater, -⟩ := h
  have hnil : t.src = [] := by simp [hsrc]
  simp [State.answerNow, hnil, hlater, after_add]

theorem PhaseRun.forever {p : Phase} {s t : State} {n : Nat} (hb : p ≠ .idle) (hh : s.host = [])
    (hrun : PhaseRun p (s.src.length + s.srcLater.reach) s n t) (ht : t.phase = p) :
    RunsForever (fun v => v.phase = p) t := by
  obtain ⟨rfl, hcount⟩ := hrun.lasting ht
  have hfew : (s.srcLater.answers s.srcLater.reach).countP p.counts ≤ p.limit := by
    have hle := hrun.inv.counted_le
    rw [ht, hcount, answers_past_listed, List.countP_append] at hle
    omega
  subst ht
  refine runsForever_of_unchanging (hrun.steps.host_nil hh) hb fun k => answerStep_of_not_counts hb ?_
  rw [answerNow_past_listed hrun.steps.inputs, ← Bool.not_eq_true]
  exact fun hcounts => absurd (counts_within_reach (Nat.le_add_right _ k) hcounts) (Nat.not_lt.mpr hfew)

/-- The steps realise the operation on one phase, and where the operation waits they stay in the phase. -/
theorem runPhase_realised {p : Phase} {s : State} (hI : Invariant s) (hh : s.host = []) (hp : s.phase = p) (hb : p ≠ .idle) :
    ∃ t n, runPhase Config.current p s = .next t ∧ Invariant t ∧ Realises (fun v => v.phase = p) s n t ∧
      (t.phase ≠ .idle → t.pkt.toNat = s.pkt.toNat + if p = .body ∧ t.phase = .hunt then 1 else 0) ∧
      (t.phase = p → RunsForever (fun v => v.phase = p) t) := by
  obtain ⟨t, n, ht, hrun⟩ := runWhile_realised hb (s.src.length + s.srcLater.reach) hI hh hp
  exact ⟨t, n, ht, hrun.inv, hrun.steps, hrun.pkt, hrun.forever hb hh⟩

end Sys2Proof.Machine
end

section
/-! SUPPORT. The steps realise ASSEMBLESCAN (R8, R102, R210). -/

namespace Sys2Proof.Machine

/-- The core is busy, as a property of the machine's state. -/
def Busy (s : State) : Prop := s.phase ≠ .idle

/-- The operation answers `t` after `n` steps of a busy core; where it answers a busy state, the steps stay busy. -/
def RealisesBusy (r : Result) (s : State) : Prop :=
  ∃ t n, r = .next t ∧ Realises Busy s n t ∧ (Busy t → RunsForever Busy t)

theorem RealisesBusy.refl_of_idle {s : State} (h : s.phase = .idle) : RealisesBusy (.next s) s :=
  ⟨s, 0, rfl, .refl _ s, fun hb => absurd h hb⟩

theorem RealisesBusy.after {r : Result} {s u : State} {n : Nat} (hsu : Realises Busy s n u) (hu : RealisesBusy r u) :
    RealisesBusy r s := by
  obtain ⟨t, k, ht, hrun, hforever⟩ := hu
  exact ⟨t, n + k, ht, hsu.trans hrun, hforever⟩

/-- The operation on one phase, and then `f`, which goes on only where the phase was left for the other busy one. -/
theorem RealisesBusy.phase {p : Phase} {s : State} (hI : Invariant s) (hh : s.host = []) (hp : s.phase = p)
    (hb : p ≠ .idle) {f : State → Result} (hstop : ∀ u : State, u.phase = p ∨ u.phase = .idle → f u = .next u)
    (hgo : ∀ u : State, Invariant u → u.host = [] → u.phase ≠ p → Busy u →
      u.pkt.toNat = s.pkt.toNat + (if p = .body ∧ u.phase = .hunt then 1 else 0) → RealisesBusy (f u) u) :
    RealisesBusy (andThen (runPhase Config.current p s) f) s := by
  obtain ⟨u, n, hu, hIu, hsteps, hpkt, hwait⟩ := runPhase_realised hI hh hp hb
  have hbusy : ∀ v : State, v.phase = p → Busy v := fun v hv => by rw [Busy, hv]; exact hb
  rw [hu, andThen_of_next]
  refine .after (hsteps.mono hbusy) ?_
  by_cases hidle : u.phase = .idle
  · rw [hstop u (.inr hidle)]
    exact .refl_of_idle hidle
  · by_cases hstay : u.phase = p
    · rw [hstop u (.inl hstay)]
      exact ⟨u, 0, rfl, .refl _ u, fun _ => (hwait hstay).mono hbusy⟩
    · exact hgo u hIu (hsteps.host_nil hh) hstay hidle (hpkt hidle)

theorem phase_eq_body {p : Phase} (hidle : p ≠ .idle) (hhunt : p ≠ .hunt) : p = .body := by
  cases p <;> simp_all

theorem phase_eq_hunt {p : Phase} (hidle : p ≠ .idle) (hbody : p ≠ .body) : p = .hunt := by
  cases p <;> simp_all

theorem assembleLoop_succ (c : Config) (n : Nat) (s : State) :
    assembleLoop c (n + 1) s = andThen (findsyncUnder c s) fun t =>
      if t.phase = .body then
        andThen (decodepacketUnder c t) fun u => if u.phase = .hunt then assembleLoop c n u else .next u
      else .next t := rfl

/-- The loop with `n` packets to go: PKT says that the `n`-th COMMIT is the one that ends the assembly. -/
theorem assembleLoop_realised (n : Nat) {s : State} (hI : Invariant s) (hh : s.host = []) (hp : s.phase = .hunt)
    (hn : s.pkt.toNat + n = 38) : RealisesBusy (assembleLoop Config.current n s) s := by
  induction n generalizing s with
  | zero =>
    have := hI.pkt_le_of_busy (by simp [hp])
    omega
  | succ n ih =>
    rw [assembleLoop_succ, findsyncUnder, if_pos hp]
    refine .phase hI hh hp (by decide) (fun u hu => if_neg (by rcases hu with hu | hu <;> simp [hu])) ?_
    intro t hIt hht hnhunt hbt hpt
    have htp : t.phase = .body := phase_eq_body hbt hnhunt
    rw [if_pos htp, decodepacketUnder, if_pos htp]
    refine .phase hIt hht htp (by decide) (fun u hu => if_neg (by rcases hu with hu | hu <;> simp [hu])) ?_
    intro u hIu hhu hnbody hbu hpu
    have hup : u.phase = .hunt := phase_eq_hunt hbu hnbody
    rw [if_pos hup]
    have hpkt : u.pkt.toNat = s.pkt.toNat + 1 := by simpa [hup, hpt] using hpu
    exact ih hIu hhu hup (by omega)

theorem Invariant.begun {s : State} (hI : Invariant s) : Invariant s.begun where
  count_eq := by simp
  pkt_le := by simp
  valid h := by cases h
  failed h := absurd rfl h
  running _ := ⟨rfl, rfl, by simp⟩
  bidx_zero _ := rfl
  bidx_le := by simp
  body_wf := hI.body_wf
  scan_wf := hI.scan_wf

theorem execAssemblescan_of_idle {s : State} (h : s.phase = .idle) :
    exec .assemblescan s = assembleLoop Config.current 38 s.begun := by
  change assemblescanUnder Config.current s = _
  have hstart : execStart s = .next s.begun := execStart_next.mpr (if_pos h).symm
  rw [assemblescanUnder, if_pos h, hstart, andThen_of_next, Config.pktsPerScan_eq]

/-- Settles O34: START's step begins the assembly that `assembleLoop` runs, and each of the loop's two phases is the run
of the steps in that phase. -/
theorem stepLevelRealisesContractLevel : Obligations.StepLevelRealisesContractLevel := by
  unfold Obligations.StepLevelRealisesContractLevel
  intro s hI hp hh
  have hfirst (m : Nat) : core.run (1 + m) s = core.run m ({ s with host := [] } : State).begun := by
    rw [Nat.add_comm]
    exact run_of_step (M := core) (step_of_start hp hh) m
  have hI' : Invariant ({ s with host := [] } : State).begun := (hI.with_inputs _ _ []).begun
  obtain ⟨t, n, ht, hsteps, hforever⟩ := assembleLoop_realised 38 hI' rfl rfl rfl
  have hexec : exec .assemblescan { s with host := [] } = .next t :=
    (execAssemblescan_of_idle (s := { s with host := [] }) hp).trans ht
  obtain ⟨hsrc, hlater, -⟩ := hsteps.inputs
  refine ⟨t, n, hexec, hsrc, hlater, (hfirst n).trans hsteps.runs, fun m hm => ?_, fun hb m => ?_⟩
  · rw [hfirst]
    exact hsteps.before m hm
  · rw [hfirst]
    exact hsteps.then_forever (hforever hb) m

end Sys2Proof.Machine
end

section
/-! SUPPORT. One step as the step relation sees it: which operation the inputs select, what it comes to, and that the
machine's step is no more than that (R34). -/

namespace Sys2Proof.Machine

/-! ### The word of a step (R98, R99, R212, R243, R270) -/

section Word

variable {inp : Inputs} {a : CoreState}

theorem wordOn_of_reset (hr : inp.host.reset = true) : wordOn inp a = .resetin1 1 := by simp [wordOn, hr]

theorem wordOn_of_read {idx : BitVec 9} (hr : inp.host.reset = false) (hq : inp.host.req = .read idx) :
    wordOn inp a = .rdport9 idx := by simp [wordOn, hr, hq]

theorem wordOn_of_start (hr : inp.host.reset = false) (hq : inp.host.req = .start) (hp : a.phase = .idle) :
    wordOn inp a = .cmd1 1 := by simp [wordOn, hr, hq, hp]

theorem wordOn_of_quiet_idle (hr : inp.host.reset = false) (hq : inp.host.req = .quiet) (hp : a.phase = .idle) :
    wordOn inp a = .dispatch14 (a.dispatchWord .noAnswer) := by simp [wordOn, hr, hq, CoreState.event, hp]

theorem wordOn_of_busy (hr : inp.host.reset = false) (hq : ∀ idx, inp.host.req ≠ .read idx) (hp : a.phase ≠ .idle) :
    wordOn inp a = .dispatch14 (a.dispatchWord inp.answer) := by
  cases h : inp.host.req with
  | quiet => simp [wordOn, hr, h, event_of_busy hp]
  | start => simp [wordOn, hr, h, hp, event_of_busy hp]
  | read idx => exact absurd h (hq idx)

end Word

/-! ### The five forms of a step -/

/-- In configuration `c` with inputs `inp`, a step of the core `a` runs `i`, which comes to the last index. -/
inductive CoreStep (c : Config) (inp : Inputs) (a : CoreState) : Instr → CoreResult → Prop where
  | reset (hr : inp.host.reset = true) : CoreStep c inp a .reset (.next (resetCore inp.draw))
  | read {idx : BitVec 9} (hr : inp.host.reset = false) (hq : inp.host.req = .read idx) :
    CoreStep c inp a (.read idx) (.next a)
  | start (hr : inp.host.reset = false) (hq : inp.host.req = .start) (hp : a.phase = .idle) :
    CoreStep c inp a .start (.next (beginAssembly a))
  | wait (hr : inp.host.reset = false) (hq : inp.host.req = .quiet) (hp : a.phase = .idle) :
    CoreStep c inp a .wait (.next a)
  | answer {r : CoreResult} (hr : inp.host.reset = false) (hq : ∀ idx, inp.host.req ≠ .read idx) (hp : a.phase ≠ .idle)
    (h : takeAnswer c inp.answer a = r) : CoreStep c inp a (a.selects inp.answer) r

theorem coreStep_total (c : Config) (inp : Inputs) (a : CoreState) : ∃ i r, CoreStep c inp a i r := by
  by_cases hr : inp.host.reset = true
  · exact ⟨_, _, .reset hr⟩
  · rw [Bool.not_eq_true] at hr
    by_cases hp : a.phase = .idle
    · cases hq : inp.host.req with
      | quiet => exact ⟨_, _, .wait hr hq hp⟩
      | start => exact ⟨_, _, .start hr hq hp⟩
      | read idx => exact ⟨_, _, .read hr hq⟩
    · by_cases hq : ∃ idx, inp.host.req = .read idx
      · obtain ⟨idx, hq⟩ := hq
        exact ⟨_, _, .read hr hq⟩
      · exact ⟨_, _, .answer hr (not_exists.mp hq) hp rfl⟩

/-- An operation that is one step of the core: none of the sequences of R102 and no wire format (R98). -/
def isOneStep : Instr → Bool
  | .findsync => false
  | .decodepacket => false
  | .assemblescan => false
  | .packet _ => false
  | .sample _ => false
  | _ => true

theorem isOneStep_selects (a : CoreState) (x : SrcAnswer) : isOneStep (a.selects x) = true := by
  cases x with
  | noAnswer => rfl
  | fail => rfl
  | byte b =>
    unfold CoreState.selects
    cases a.phase with
    | idle => rfl
    | hunt => by_cases hb : b = 0x54#8 <;> simp only [hb, if_true, if_false] <;> rfl
    | body => cases a.atLast <;> cases a.lenOk <;> rfl

/-- The operation selected is the taking of the event. -/
theorem coreOp_selects {c : Config} {draw : Nat} {a : CoreState} (x : SrcAnswer) (h : a.phase ≠ .idle) :
    coreOp c draw (a.selects x) a = plainStep (takeAnswer c x a) := by
  cases x with
  | noAnswer => rfl
  | fail => rfl
  | byte b =>
    unfold takeAnswer takeByte CoreState.selects
    cases hp : a.phase with
    | idle => exact absurd hp h
    | hunt => by_cases hb : b = 0x54#8 <;> simp only [Config.syncByte_eq, hb, if_true, if_false] <;> rfl
    | body => cases a.atLast <;> cases a.lenOk <;> rfl

/-- What a step gives, of which only the core is kept. -/
def coreOf (r : Host.Outcome StepResult Fault Refusal) : CoreResult := andThen r fun q => .next q.core

theorem coreOf_next {r : Host.Outcome StepResult Fault Refusal} {b : CoreState} :
    coreOf r = .next b ↔ ∃ q, r = .next q ∧ q.core = b := by
  simp [coreOf, andThen_next]

@[simp] theorem coreOf_plainStep (r : CoreResult) : coreOf (plainStep r) = r := by cases r <;> rfl

section Step

variable {c : Config} {inp : Inputs} {a b : CoreState} {i : Instr} {r : CoreResult}

theorem CoreStep.decode_eq (h : CoreStep c inp a i r) : decode (wordOn inp a) = .ok i := by
  cases h with
  | reset hr => rw [wordOn_of_reset hr]; rfl
  | read hr hq => rw [wordOn_of_read hr hq]; rfl
  | start hr hq hp => rw [wordOn_of_start hr hq hp]; rfl
  | wait hr hq hp => rw [wordOn_of_quiet_idle hr hq hp]; exact decode_dispatchWord _ fun _ => rfl
  | answer hr hq hp => rw [wordOn_of_busy hr hq hp]; exact decode_dispatchWord _ fun h => absurd h hp

theorem CoreStep.oneStep (h : CoreStep c inp a i r) : isOneStep i = true := by
  cases h with
  | answer => exact isOneStep_selects a inp.answer
  | _ => rfl

theorem CoreStep.coreOp_eq (h : CoreStep c inp a i r) : coreOf (coreOp c inp.draw i a) = r := by
  cases h with
  | start hr hq hp => exact (coreOf_plainStep _).trans (if_pos hp)
  | answer hr hq hp h => rw [coreOp_selects _ hp, coreOf_plainStep, h]
  | _ => rfl

theorem isOneStep_of_decode (h : decode (wordOn inp a) = .ok i) : isOneStep i = true := by
  obtain ⟨j, r, hstep⟩ := coreStep_total Config.current inp a
  obtain rfl : j = i := Except.ok.inj (hstep.decode_eq.symm.trans h)
  exact hstep.oneStep

/-- `CoreStep` is what `stepOn` does to the core. -/
theorem coreStep_iff :
    CoreStep c inp a i (.next b) ↔ decode (wordOn inp a) = .ok i ∧ ∃ q, stepOn c inp a = .next q ∧ q.core = b := by
  constructor
  · intro h
    obtain ⟨q, hq, hb⟩ := coreOf_next.mp h.coreOp_eq
    exact ⟨h.decode_eq, q, stepOn_next.mpr ⟨i, h.decode_eq, hq⟩, hb⟩
  · rintro ⟨hi, q, hq, hb⟩
    obtain ⟨j, r, hstep⟩ := coreStep_total c inp a
    obtain rfl : j = i := Except.ok.inj (hstep.decode_eq.symm.trans hi)
    obtain ⟨k, hk, hop⟩ := stepOn_next.mp hq
    obtain rfl : j = k := Except.ok.inj (hi.symm.trans hk)
    obtain rfl : r = .next b := hstep.coreOp_eq.symm.trans (coreOf_next.mpr ⟨q, hop, hb⟩)
    exact hstep

end Step

/-! ### The machine's step is the step relation at its inputs -/

/-- The closed machine after a step that gave `r`. -/
def State.stepped (s : State) (r : StepResult) : State :=
  { s with toCoreState := r.core, readAnswer := r.answer <|> s.readAnswer, freeCtr := s.freeCtr + r.draws }

@[simp] theorem stepped_toCoreState (s : State) (r : StepResult) : (s.stepped r).toCoreState = r.core := rfl

theorem onCore_eq_plainStep (f : CoreState → CoreResult) (s : State) :
    onCore f s = andThen (plainStep (f s.toCoreState)) fun r => .next (s.stepped r) := by
  unfold onCore
  cases f s.toCoreState <;> rfl

theorem execUnder_eq_coreOp {i : Instr} (hi : isOneStep i = true) (c : Config) (s : State) :
    execUnder c i s = andThen (coreOp c s.freeCtr i s.toCoreState) fun r => .next (s.stepped r) := by
  cases i with
  | wait => exact onCore_eq_plainStep coreWait s
  | abort | sync | discard | load | commit | reject | start => exact onCore_eq_plainStep _ s
  | read | reset => rfl
  | findsync | decodepacket | assemblescan | packet | sample => cases hi

theorem step_eq_stepOn (s : State) :
    step s = andThen (stepOn Config.current s.inputsNow s.toCoreState) fun r => .next ((consume s).stepped r) := by
  obtain ⟨i, r, hstep⟩ := coreStep_total Config.current s.inputsNow s.toCoreState
  have hdec := hstep.decode_eq
  have hon : stepOn Config.current s.inputsNow s.toCoreState = coreOp Config.current s.freeCtr i s.toCoreState := by
    unfold stepOn
    rw [hdec]
    rfl
  rw [step_of_decode hdec, hon, ← execUnder_current]
  exact execUnder_eq_coreOp hstep.oneStep Config.current (consume s)

/-- Settles O8: an operation of one step is `coreOp` on the core, and a word that a step fetches is such an operation. -/
theorem stepIsTheStepRelationAtItsInputs : Obligations.StepIsTheStepRelationAtItsInputs := by
  unfold Obligations.StepIsTheStepRelationAtItsInputs
  exact ⟨fun i s => (execUnder_current i s).symm, step_eq_stepOn,
    fun c _ _ s hi => execUnder_eq_coreOp (isOneStep_of_decode hi) c s⟩

theorem step_next_stepped {s t : State} :
    step s = .next t ↔ ∃ r, stepOn Config.current s.inputsNow s.toCoreState = .next r ∧ t = (consume s).stepped r := by
  simp [step_eq_stepOn, andThen_next, eq_comm (a := t)]

/-- A step of the machine, inverted. -/
theorem coreStep_of_step {s t : State} (h : step s = .next t) :
    ∃ i, running s = some i ∧ CoreStep Config.current s.inputsNow s.toCoreState i (.next t.toCoreState) := by
  obtain ⟨r, hr, rfl⟩ := step_next_stepped.mp h
  obtain ⟨i, hi, -⟩ := stepOn_next.mp hr
  have hdec : decode (fetchWord s) = .ok i := hi
  exact ⟨i, by simp [running, hdec], coreStep_iff.mpr ⟨hi, r, hr, rfl⟩⟩

theorem step_of_coreStep {s : State} {i : Instr} {b : CoreState}
    (h : CoreStep Config.current s.inputsNow s.toCoreState i (.next b)) : ∃ t, step s = .next t ∧ t.toCoreState = b := by
  obtain ⟨-, r, hr, hb⟩ := coreStep_iff.mp h
  exact ⟨_, step_next_stepped.mpr ⟨r, hr, rfl⟩, hb⟩

/-- The inputs left after a step are those that `consume` leaves. -/
theorem step_inputs {s t : State} (h : step s = .next t) :
    t.src = (consume s).src ∧ t.srcLater = (consume s).srcLater ∧ t.host = s.host.tail := by
  obtain ⟨r, -, rfl⟩ := step_next_stepped.mp h
  exact ⟨rfl, rfl, rfl⟩

/-- Whether a step asks the source is a matter of the host's side and the phase. -/
theorem asks_iff_host {s : State} :
    s.asks = true ↔ s.hostNow.reset = false ∧ (∀ idx, s.hostNow.req ≠ .read idx) ∧ s.phase ≠ .idle := by
  rw [asks_iff]
  constructor
  · rintro ⟨⟨dw, hw⟩, hp⟩
    have hr : s.hostNow.reset = false := by
      by_contra hr
      have := (wordOn_of_reset (inp := s.inputsNow) (a := s.toCoreState) (Bool.eq_true_of_not_eq_false hr)).symm.trans hw
      cases this
    refine ⟨hr, fun idx hq => ?_, hp⟩
    have := (wordOn_of_read (inp := s.inputsNow) (a := s.toCoreState) hr hq).symm.trans hw
    cases this
  · rintro ⟨hr, hq, hp⟩
    exact ⟨⟨_, wordOn_of_busy (inp := s.inputsNow) hr hq hp⟩, hp⟩

end Sys2Proof.Machine
end

section
/-! SUPPORT. Every step keeps R37 and none stops under it; the idle conditions and the status outputs. -/

namespace Sys2Proof.Machine

/-- The invariant is about the core alone. -/
theorem Invariant.of_core {s t : State} (hI : Invariant s) (h : t.toCoreState = s.toCoreState) : Invariant t := by
  obtain ⟨a, src, later, host, answer, ctr⟩ := t
  subst h
  exact ⟨hI.count_eq, hI.pkt_le, hI.valid, hI.failed, hI.running, hI.bidx_zero, hI.bidx_le, hI.body_wf, hI.scan_wf⟩

/-- The control elements at their reset values meet R37, whatever the buffers hold. -/
theorem invariant_of_reset_values {s : State} (hphase : s.phase = .idle) (hbidx : s.bidx = 0#6) (hpkt : s.pkt = 0#6)
    (hcount : s.count = 0#9) (herr : s.err = .noError) (hvalid : s.scanValid = false) (hbody : s.body.wf = true)
    (hscan : s.scan.wf = true) : Invariant s where
  count_eq := by simp [hcount, hpkt]
  pkt_le := by simp [hpkt]
  valid h := absurd (hvalid.symm.trans h) (by decide)
  failed h := absurd herr h
  running h := absurd hphase h
  bidx_zero _ := hbidx
  bidx_le := by simp [hbidx]
  body_wf := hbody
  scan_wf := hscan

theorem resetCore_body_wf (n : Nat) : (resetCore n).body.wf = true := by
  rw [resetCore_body]; exact Memory.fill_wf _

theorem resetCore_scan_wf (n : Nat) : (resetCore n).scan.wf = true := by
  rw [resetCore_scan]; exact ScanMem.fill_wf _

theorem resetCore_body_read (n : Nat) {k : Nat} (hk : k < 46) : (resetCore n).body.read k = Config.freeByte (n + k) := by
  rw [resetCore_body]; exact Memory.read_fill _ hk

theorem resetCore_scan_read (n : Nat) {k : Nat} (hk : k < 456) : (resetCore n).scan.read k = Config.freePoint (n + k) := by
  rw [resetCore_scan]; exact ScanMem.read_fill _ hk

/-- Settles O10, by evaluation of the reset state. -/
theorem resetStateHasTheSpecsValues : Obligations.ResetStateHasTheSpecsValues := by
  unfold Obligations.ResetStateHasTheSpecsValues
  decide

/-- Settles O11: the control elements have their reset values and both buffers list nothing. -/
theorem resetStateMeetsTheInvariant : Obligations.ResetStateMeetsTheInvariant := by
  unfold Obligations.ResetStateMeetsTheInvariant
  exact invariant_of_reset_values rfl rfl rfl rfl rfl rfl reset_body_wf reset_scan_wf

theorem CoreStep.keeps_invariant {c : Config} {inp : Inputs} {s : State} {i : Instr} {b : CoreState}
    (h : CoreStep c inp s.toCoreState i (.next b)) (hI : Invariant s) : Invariant { s with toCoreState := b } := by
  cases h with
  | reset => exact invariant_of_reset_values rfl rfl rfl rfl rfl rfl (resetCore_body_wf _) (resetCore_scan_wf _)
  | read => exact hI
  | start => exact hI.begun
  | wait => exact hI
  | answer hr hq hp h => exact ((takeAnswer_next hp).mp h).keeps_invariant hI hp

theorem Invariant.after_step {s t : State} (hI : Invariant s) (h : step s = .next t) : Invariant t := by
  obtain ⟨i, -, hstep⟩ := coreStep_of_step h
  exact (hstep.keeps_invariant hI).of_core rfl

/-- Settles O12: a step is of one of five forms, and the taking of an answer of one of seven; each keeps R37. -/
theorem stepKeepsTheInvariant : Obligations.StepKeepsTheInvariant := by
  unfold Obligations.StepKeepsTheInvariant
  exact fun _ _ hI h => hI.after_step h

/-- Under the invariant whatever a step runs comes to a next state. -/
theorem CoreStep.progress {c : Config} {inp : Inputs} {s : State} {i : Instr} {r : CoreResult}
    (h : CoreStep c inp s.toCoreState i r) (hI : Invariant s) : ∃ b, r = .next b := by
  cases h with
  | answer hr hq hp h =>
    obtain ⟨b, hb⟩ := hI.answerStep hp c inp.answer
    exact ⟨b, h.symm.trans ((takeAnswer_next hp).mpr hb)⟩
  | _ => exact ⟨_, rfl⟩

/-- Settles O13: of the five forms of a step only the taking of an answer could stop, and under R37 (a), (d), (e) it
does not. -/
theorem stepNeverStopsUnderTheInvariant : Obligations.StepNeverStopsUnderTheInvariant := by
  unfold Obligations.StepNeverStopsUnderTheInvariant
  intro s hI
  obtain ⟨i, r, hstep⟩ := coreStep_total Config.current s.inputsNow s.toCoreState
  obtain ⟨b, rfl⟩ := hstep.progress hI
  obtain ⟨t, ht, -⟩ := step_of_coreStep hstep
  exact ⟨t, ht⟩

/-- Settles O28: RESET fills both buffers with the free values from the draw counter on. -/
theorem resetLeavesTheBuffersUnspecified : Obligations.ResetLeavesTheBuffersUnspecified := by
  unfold Obligations.ResetLeavesTheBuffersUnspecified
  intro s
  exact ⟨_, execReset_next.mpr rfl, fun _ hk => resetCore_body_read _ hk, fun _ hk => resetCore_scan_read _ hk,
    resetCore_body_wf _, resetCore_scan_wf _, rfl⟩

/-! ### The status outputs (R30) and the idle conditions (R38) -/

section Status

variable (a : CoreState)

theorem busy_eq : a.busy = decide (a.phase ≠ .idle) := by
  rw [Bool.eq_iff_iff]; simp [busy_iff]

theorem done_eq : a.done = decide (a.phase = .idle ∧ a.scanValid = true) := by
  rw [Bool.eq_iff_iff]; simp [CoreState.done]

theorem failed_eq : a.failed = decide (a.phase = .idle ∧ a.err ≠ .noError) := by
  rw [Bool.eq_iff_iff]; simp [CoreState.failed]

end Status

/-- Settles O52, output by output. -/
theorem statusOutputsAreFunctionsOfTheState : Obligations.StatusOutputsAreFunctionsOfTheState := by
  unfold Obligations.StatusOutputsAreFunctionsOfTheState
  intro a
  rw [status, busy_eq, done_eq, failed_eq]
  cases a.err <;> rfl

/-- Settles O53: R37 (b) excludes SCAN_VALID = 1 beside an error. -/
theorem exactlyOneIdleConditionHolds : Obligations.ExactlyOneIdleConditionHolds := by
  unfold Obligations.ExactlyOneIdleConditionHolds
  intro s hI hp
  rw [done_eq, failed_eq]
  cases hv : s.scanValid with
  | true => simp [hp, (hI.valid hv).2.1]
  | false => by_cases he : s.err = .noError <;> simp [hp, he]

end Sys2Proof.Machine
end

section
/-! SUPPORT. What a step can do to ERR, SCAN_VALID and SCAN, by the operation it runs (R25, R26, R28). -/

namespace Sys2Proof.Machine

/-! ### The operation selected, case by case (R97) -/

section Selects

variable {a : CoreState} {b : Byte}

@[simp] theorem selects_noAnswer : a.selects .noAnswer = .wait := rfl

@[simp] theorem selects_fail : a.selects .fail = .abort := rfl

theorem selects_sync (hp : a.phase = .hunt) : a.selects (.byte 0x54#8) = .sync := by simp [CoreState.selects, hp]

theorem selects_discard (hp : a.phase = .hunt) (hb : b ≠ 0x54#8) : a.selects (.byte b) = .discard b := by
  simp [CoreState.selects, hp, hb]

theorem selects_load (hp : a.phase = .body) (hl : a.bidx ≠ 45#6) : a.selects (.byte b) = .load b := by
  simp [CoreState.selects, hp, atLast_iff, hl]

theorem selects_commit (hp : a.phase = .body) (hl : a.bidx = 45#6) (hlen : a.lenOk = true) :
    a.selects (.byte b) = .commit b := by
  simp [CoreState.selects, hp, atLast_iff, hl, hlen]

theorem selects_reject (hp : a.phase = .body) (hl : a.bidx = 45#6) (hlen : a.lenOk = false) :
    a.selects (.byte b) = .reject b := by
  simp [CoreState.selects, hp, atLast_iff, hl, hlen]

end Selects

/-- ERR after a step that runs the operation and found `e` in it (R25). -/
def errAfter (e : Err) : Instr → Err
  | .abort => .ioError
  | .reject _ => .invalidLength
  | .start => .noError
  | .reset => .noError
  | _ => e

section Step

variable {c : Config} {inp : Inputs} {x : SrcAnswer} {a b : CoreState} {i : Instr}

/-! ### ERR -/

theorem AnswerStep.err_eq (h : AnswerStep c x a b) : b.err = errAfter a.err (a.selects x) := by
  cases h with
  | wait => rfl
  | abort => rfl
  | sync hp => rw [selects_sync hp]; rfl
  | discard hp hb => rw [selects_discard hp hb]; rfl
  | load hp hl => rw [selects_load hp hl]; rfl
  | commit hp hl hlen => rw [selects_commit hp hl hlen, countPacket_err]; rfl
  | reject hp hl hlen => rw [selects_reject hp hl hlen]; rfl

theorem CoreStep.err_eq (h : CoreStep c inp a i (.next b)) : b.err = errAfter a.err i := by
  cases h with
  | answer hr hq hp h => exact ((takeAnswer_next hp).mp h).err_eq
  | _ => rfl

/-! ### SCAN_VALID -/

/-- The COMMIT of the 38th packet sets it; no other answer writes it. -/
theorem AnswerStep.scanValid_cases (h : AnswerStep c x a b) :
    b.scanValid = a.scanValid ∨ (∃ y, a.selects x = .commit y) ∧ a.pkt = 37#6 ∧ b.scanValid = true := by
  cases h with
  | commit hp hl hlen =>
    rw [countPacket_scanValid]
    by_cases h38 : a.pkt + 1#6 = 38#6
    · exact .inr ⟨⟨_, selects_commit hp hl hlen⟩, by bv_omega, if_pos h38⟩
    · exact .inl (if_neg h38)
  | _ => exact .inl rfl

theorem CoreStep.scanValid_cases (h : CoreStep c inp a i (.next b)) :
    b.scanValid = a.scanValid ∨ ((∃ y, i = .commit y) ∧ a.pkt = 37#6 ∧ b.scanValid = true) ∨
      ((i = .start ∨ i = .reset) ∧ b.scanValid = false) := by
  cases h with
  | reset => exact .inr (.inr ⟨.inr rfl, rfl⟩)
  | read => exact .inl rfl
  | start => exact .inr (.inr ⟨.inl rfl, rfl⟩)
  | wait => exact .inl rfl
  | answer hr hq hp h => exact ((takeAnswer_next hp).mp h).scanValid_cases.imp_right .inl

/-! ### SCAN -/

/-- A COMMIT writes from COUNT on; no other answer writes SCAN. -/
theorem AnswerStep.scan_cases (h : AnswerStep c x a b) :
    b.scan = a.scan ∨ ∃ y ps, a.selects x = .commit y ∧ b.scan = a.scan.writeFrom a.count.toNat ps := by
  cases h with
  | commit hp hl hlen => exact .inr ⟨_, _, selects_commit hp hl hlen, countPacket_scan _⟩
  | _ => exact .inl rfl

theorem CoreStep.scan_cases (h : CoreStep c inp a i (.next b)) :
    b.scan = a.scan ∨ i = .reset ∨ ∃ y ps, i = .commit y ∧ b.scan = a.scan.writeFrom a.count.toNat ps := by
  cases h with
  | reset => exact .inr (.inl rfl)
  | answer hr hq hp h => exact ((takeAnswer_next hp).mp h).scan_cases.imp_right .inr
  | _ => exact .inl rfl

end Step

/-- Settles O39: ERR after a step is a function of the operation and ERR before it. -/
theorem errIsWrittenOnlyByFourOperations : Obligations.ErrIsWrittenOnlyByFourOperations := by
  unfold Obligations.ErrIsWrittenOnlyByFourOperations
  intro s t h
  obtain ⟨i, hrun, hstep⟩ := coreStep_of_step h
  have herr := hstep.err_eq
  rw [hrun]
  cases i <;> exact herr

/-- Settles O40: a step keeps SCAN_VALID, or is the 38th COMMIT, or is START or RESET. -/
theorem scanValidIsSetOnlyByTheLastCommit : Obligations.ScanValidIsSetOnlyByTheLastCommit := by
  unfold Obligations.ScanValidIsSetOnlyByTheLastCommit
  intro s t h
  obtain ⟨i, hrun, hstep⟩ := coreStep_of_step h
  rw [hrun]
  rcases hstep.scanValid_cases with hsame | ⟨⟨y, rfl⟩, hpkt, hset⟩ | ⟨hi, hclear⟩
  · simp +contextual [hsame]
  · exact ⟨fun _ _ => ⟨y, rfl, hpkt⟩, by simp [hset]⟩
  · exact ⟨by simp [hclear], fun _ _ => hi.imp (congrArg some) (congrArg some)⟩

/-- Settles O45: a step keeps SCAN, or is RESET, or is a COMMIT, which writes from COUNT on. -/
theorem pointsOfAnAssemblyAreImmutable : Obligations.PointsOfAnAssemblyAreImmutable := by
  unfold Obligations.PointsOfAnAssemblyAreImmutable
  intro s t _ h
  obtain ⟨i, hrun, hstep⟩ := coreStep_of_step h
  rw [hrun]
  rcases hstep.scan_cases with hsame | rfl | ⟨y, ps, rfl, hscan⟩
  · exact ⟨fun _ k _ => by rw [hsame], fun _ _ => hsame⟩
  · exact ⟨fun hne => absurd rfl hne, fun _ hne => absurd rfl hne⟩
  · exact ⟨fun _ k hk => by rw [hscan, ScanMem.read_writeFrom_below _ ps hk], fun hne => absurd rfl (hne y)⟩

end Sys2Proof.Machine
end

section
/-! SUPPORT. Two cores that started an assembly together take it alike, whatever their buffers held (R35). -/

namespace Sys2Proof.Machine

/-! ### Writes over memories that agree below an address -/

/-- Bodies that agree below `n` agree below `n + 1` once the same byte stands at `n`. -/
theorem Memory.read_write_agree {m m' : Memory} (hm : m.wf = true) (hm' : m'.wf = true) {n : Nat} (b : Byte)
    (h : ∀ k, k < n → m'.read k = m.read k) {k : Nat} (hk : k < n + 1) : (m'.write n b).read k = (m.write n b).read k := by
  by_cases hkn : k = n
  · rw [hkn, Memory.read_write_same hm', Memory.read_write_same hm]
  · rw [Memory.read_write_ne m' hkn, Memory.read_write_ne m hkn, h k (by omega)]

/-- Canonical bodies that agree at the offsets 0..45 are the same. -/
theorem Memory.eq_of_read {m m' : Memory} (hm : m.wf = true) (hm' : m'.wf = true)
    (h : ∀ k, k < 46 → m'.read k = m.read k) : m' = m := by
  refine Cells.ext_of_read hm' hm fun k => ?_
  by_cases hk : k < 46
  · exact h k hk
  · exact (Memory.read_outside hm' (Nat.le_of_not_lt hk)).trans (Memory.read_outside hm (Nat.le_of_not_lt hk)).symm

/-- Scans that agree below `n` agree below the end of the same Points written from `n` on. -/
theorem ScanMem.read_writeFrom_agree {m m' : ScanMem} (hm : m.wf = true) (hm' : m'.wf = true) {n : Nat} {ps : List Point}
    (hn : n + ps.length ≤ 456) (h : ∀ k, k < n → m'.read k = m.read k) {k : Nat} (hk : k < n + ps.length) :
    (m'.writeFrom n ps).read k = (m.writeFrom n ps).read k := by
  by_cases hkn : k < n
  · rw [ScanMem.read_writeFrom_below m' ps hkn, ScanMem.read_writeFrom_below m ps hkn, h k hkn]
  · obtain ⟨i, rfl⟩ := Nat.exists_eq_add_of_le (Nat.le_of_not_lt hkn)
    rw [ScanMem.read_writeFrom hm' n ps hn i (by omega), ScanMem.read_writeFrom hm n ps hn i (by omega)]

/-! ### Cores that agree in what the running assembly has written -/

/-- The control elements agree; BODY agrees in the bytes loaded of the body under way, SCAN in the entries below COUNT. -/
structure AgreeSoFar (a b : CoreState) : Prop where
  phase     : b.phase = a.phase
  bidx      : b.bidx = a.bidx
  pkt       : b.pkt = a.pkt
  count     : b.count = a.count
  err       : b.err = a.err
  scanValid : b.scanValid = a.scanValid
  body      : a.phase = .body → ∀ k, k < a.bidx.toNat → b.body.read k = a.body.read k
  scan      : ∀ k, k < a.count.toNat → b.scan.read k = a.scan.read k

section Agree

variable {a b : CoreState}

/-- At the start of an assembly and after reset nothing is written yet. -/
theorem AgreeSoFar.begun (a b : CoreState) : AgreeSoFar (beginAssembly a) (beginAssembly b) where
  phase := rfl
  bidx := rfl
  pkt := rfl
  count := rfl
  err := rfl
  scanValid := rfl
  body _ k hk := absurd hk (Nat.not_lt_zero k)
  scan k hk := absurd hk (Nat.not_lt_zero k)

theorem agreeSoFar_resetCore (m n : Nat) : AgreeSoFar (resetCore m) (resetCore n) where
  phase := rfl
  bidx := rfl
  pkt := rfl
  count := rfl
  err := rfl
  scanValid := rfl
  body _ k hk := absurd hk (Nat.not_lt_zero k)
  scan k hk := absurd hk (Nat.not_lt_zero k)

/-- An error forgets the body under way. -/
theorem AgreeSoFar.raised (h : AgreeSoFar a b) (e : Err) (m m' : Memory) :
    AgreeSoFar (raise e { a with body := m }) (raise e { b with body := m' }) where
  phase := rfl
  bidx := rfl
  pkt := h.pkt
  count := h.count
  err := rfl
  scanValid := h.scanValid
  body _ k hk := absurd hk (Nat.not_lt_zero k)
  scan := h.scan

theorem AgreeSoFar.synced (h : AgreeSoFar a b) :
    AgreeSoFar { a with phase := .body, bidx := 0#6 } { b with phase := .body, bidx := 0#6 } where
  phase := rfl
  bidx := rfl
  pkt := h.pkt
  count := h.count
  err := h.err
  scanValid := h.scanValid
  body _ k hk := absurd hk (Nat.not_lt_zero k)
  scan := h.scan

theorem AgreeSoFar.loaded (h : AgreeSoFar a b) (hp : a.phase = .body) (hlt : a.bidx.toNat < 46) (ha : a.body.wf = true)
    (hb : b.body.wf = true) (y : Byte) :
    AgreeSoFar { a with body := a.body.write a.bidx.toNat y, bidx := a.bidx + 1#6 }
      { b with body := b.body.write b.bidx.toNat y, bidx := b.bidx + 1#6 } where
  phase := h.phase
  bidx := congrArg (· + 1#6) h.bidx
  pkt := h.pkt
  count := h.count
  err := h.err
  scanValid := h.scanValid
  body _ k hk := by
    have hsucc : (a.bidx + 1#6).toNat = a.bidx.toNat + 1 := by bv_omega
    rw [h.bidx]
    exact Memory.read_write_agree ha hb y (h.body hp) (hsucc ▸ hk)
  scan := h.scan

/-- The last byte completes a body that both cores have loaded in full. -/
theorem AgreeSoFar.body_complete (h : AgreeSoFar a b) (hp : a.phase = .body) (hl : a.bidx = 45#6) (ha : a.body.wf = true)
    (hb : b.body.wf = true) (y : Byte) : b.body.write 45 y = a.body.write 45 y := by
  refine Memory.eq_of_read (Memory.write_wf ha (by decide) y) (Memory.write_wf hb (by decide) y) fun k hk => ?_
  exact Memory.read_write_agree ha hb y (fun j hj => h.body hp j (by simpa [hl] using hj)) hk

theorem AgreeSoFar.lenOk_eq (h : AgreeSoFar a b) (hp : a.phase = .body) (hl : a.bidx = 45#6) : b.lenOk = a.lenOk := by
  unfold CoreState.lenOk
  rw [h.body hp Config.offLen (by simp [hl])]

theorem AgreeSoFar.counted (h : AgreeSoFar a b) (m : Memory) {ps : List Point} (hps : ps.length = 12)
    (hcount : a.count.toNat + 12 ≤ 456) (ha : a.scan.wf = true) (hb : b.scan.wf = true) :
    AgreeSoFar (countPacket { a with body := m, scan := a.scan.writeFrom a.count.toNat ps })
      (countPacket { b with body := m, scan := b.scan.writeFrom b.count.toNat ps }) where
  phase := by simp [h.pkt]
  bidx := by simp
  pkt := by simp [h.pkt]
  count := by simp [h.count]
  err := by simp [h.err]
  scanValid := by simp [h.pkt, h.scanValid]
  body _ k hk := absurd hk (by simp)
  scan k hk := by
    have hadd : (a.count + 12#9).toNat = a.count.toNat + ps.length := by rw [hps]; bv_omega
    rw [countPacket_count] at hk
    simp only [countPacket_scan, h.count]
    exact ScanMem.read_writeFrom_agree ha hb (hps ▸ hcount) h.scan (hadd ▸ hk)

end Agree

/-- Both cores take an answer by the same micro-operation. -/
theorem AgreeSoFar.after_answer {c : Config} {x : SrcAnswer} {s t : State} {a : CoreState}
    (h : AgreeSoFar s.toCoreState t.toCoreState) (hs : Invariant s) (ht : Invariant t)
    (ha : AnswerStep c x s.toCoreState a) : ∃ b, AnswerStep c x t.toCoreState b ∧ AgreeSoFar a b := by
  cases ha with
  | wait => exact ⟨_, .wait, h⟩
  | abort => exact ⟨_, .abort, h.raised .ioError _ _⟩
  | sync hp => exact ⟨_, .sync (h.phase.trans hp), h.synced⟩
  | discard hp hb => exact ⟨_, .discard (h.phase.trans hp) hb, h⟩
  | load hp hl hlt =>
    exact ⟨_, .load (h.phase.trans hp) (h.bidx ▸ hl) (h.bidx ▸ hlt), h.loaded hp hlt hs.body_wf ht.body_wf _⟩
  | commit hp hl hlen hcount =>
    refine ⟨_, .commit (h.phase.trans hp) (h.bidx.trans hl) ((h.lenOk_eq hp hl).trans hlen) (h.count ▸ hcount), ?_⟩
    rw [h.body_complete hp hl hs.body_wf ht.body_wf]
    exact h.counted _ (points_length _ _) hcount hs.scan_wf ht.scan_wf
  | reject hp hl hlen =>
    exact ⟨_, .reject (h.phase.trans hp) (h.bidx.trans hl) ((h.lenOk_eq hp hl).trans hlen), h.raised .invalidLength _ _⟩

/-- Both cores take a step of the same form at inputs that differ in the free value only. -/
theorem AgreeSoFar.after_coreStep {c : Config} {inp inp' : Inputs} {s t : State} {i : Instr} {a : CoreState}
    (h : AgreeSoFar s.toCoreState t.toCoreState) (hs : Invariant s) (ht : Invariant t) (hhost : inp'.host = inp.host)
    (hanswer : inp'.answer = inp.answer) (ha : CoreStep c inp s.toCoreState i (.next a)) :
    ∃ j b, CoreStep c inp' t.toCoreState j (.next b) ∧ AgreeSoFar a b := by
  cases ha with
  | reset hr => exact ⟨_, _, .reset (hhost ▸ hr), agreeSoFar_resetCore _ _⟩
  | read hr hq => exact ⟨_, _, .read (hhost ▸ hr) (hhost ▸ hq), h⟩
  | start hr hq hp => exact ⟨_, _, .start (hhost ▸ hr) (hhost ▸ hq) (h.phase.trans hp), .begun _ _⟩
  | wait hr hq hp => exact ⟨_, _, .wait (hhost ▸ hr) (hhost ▸ hq) (h.phase.trans hp), h⟩
  | answer hr hq hp hx =>
    have hp' : t.phase ≠ .idle := h.phase ▸ hp
    obtain ⟨b, hb, hab⟩ := h.after_answer hs ht ((takeAnswer_next hp).mp hx)
    exact ⟨_, b, .answer (hhost ▸ hr) (hhost ▸ hq) hp' ((takeAnswer_next hp').mpr (hanswer ▸ hb)), hab⟩

/-! ### Their machines, at the same inputs -/

/-- Two machines that meet R37 with the same inputs to come, whose cores agree in what the assembly has written. -/
structure RunAlike (s t : State) : Prop where
  inv₁     : Invariant s
  inv₂     : Invariant t
  agree    : AgreeSoFar s.toCoreState t.toCoreState
  src      : t.src = s.src
  srcLater : t.srcLater = s.srcLater
  host     : t.host = s.host

section Alike

variable {s t s' : State}

theorem RunAlike.hostNow_eq (h : RunAlike s t) : t.hostNow = s.hostNow := by rw [State.hostNow, h.host, State.hostNow]

theorem RunAlike.answerNow_eq (h : RunAlike s t) : t.answerNow = s.answerNow := by
  rw [State.answerNow, h.src, h.srcLater, State.answerNow]

theorem RunAlike.asks_eq (h : RunAlike s t) : t.asks = s.asks := by
  rw [Bool.eq_iff_iff, asks_iff_host, asks_iff_host, h.hostNow_eq, h.agree.phase]

theorem RunAlike.after_step (h : RunAlike s t) (hs : step s = .next s') : ∃ t', step t = .next t' ∧ RunAlike s' t' := by
  obtain ⟨i, -, hstep⟩ := coreStep_of_step hs
  obtain ⟨j, b, hstep', hb⟩ :=
    h.agree.after_coreStep (inp := s.inputsNow) (inp' := t.inputsNow) h.inv₁ h.inv₂ h.hostNow_eq h.answerNow_eq hstep
  obtain ⟨t', ht, rfl⟩ := step_of_coreStep hstep'
  obtain ⟨hsrc, hlater, hhost⟩ := step_inputs hs
  obtain ⟨hsrc', hlater', hhost'⟩ := step_inputs ht
  exact ⟨t', ht,
    { inv₁ := h.inv₁.after_step hs
      inv₂ := h.inv₂.after_step ht
      agree := hb
      src := by rw [hsrc', hsrc, consume_src, consume_src, h.asks_eq, h.src]
      srcLater := by rw [hlater', hlater, consume_srcLater, consume_srcLater, h.asks_eq, h.src, h.srcLater]
      host := by rw [hhost', hhost, h.host] }⟩

theorem RunAlike.after_run {n : Nat} (h : RunAlike s t) (hs : core.run n s = .next s') :
    ∃ t' : State, core.run n t = .next t' ∧ RunAlike s' t' := by
  induction n generalizing s t with
  | zero => cases hs; exact ⟨t, rfl, h⟩
  | succ n ih =>
    obtain ⟨u, hu, hrun⟩ := run_succ_next.mp hs
    obtain ⟨v, hv, huv⟩ := h.after_step hu
    obtain ⟨t', ht', h'⟩ := ih huv hrun
    exact ⟨t', run_succ_next.mpr ⟨v, hv, ht'⟩, h'⟩

end Alike

/-- Settles O46: START makes the two machines run alike, every step keeps that, and at SCAN_VALID = 1 the entries below
COUNT are all 456 (R37 (b)). -/
theorem earlierStateNeverReachesAResult : Obligations.EarlierStateNeverReachesAResult := by
  unfold Obligations.EarlierStateNeverReachesAResult
  intro s₁ s₂ later n t₁ hI₁ hI₂ hp₁ hp₂ hsrc hlater hh₁ hh₂ hrun
  rw [run_of_step (M := core) (step_of_start hp₁ hh₁)] at hrun
  rw [run_of_step (M := core) (step_of_start hp₂ (hh₂.trans hh₁))]
  have hbegun : RunAlike ({ s₁ with host := later } : State).begun ({ s₂ with host := later } : State).begun :=
    { inv₁ := (hI₁.with_inputs _ _ later).begun
      inv₂ := (hI₂.with_inputs _ _ later).begun
      agree := .begun _ _
      src := hsrc.symm
      srcLater := hlater.symm
      host := rfl }
  obtain ⟨t₂, hrun₂, h⟩ := hbegun.after_run hrun
  refine ⟨t₂, hrun₂, h.agree.phase, h.agree.bidx, h.agree.pkt, h.agree.count, h.agree.err, h.agree.scanValid, h.src, h.srcLater,
    h.host, fun hvalid k hk => h.agree.scan k ?_⟩
  obtain ⟨-, -, -, hcount⟩ := h.inv₁.valid hvalid
  simpa [hcount] using hk

end Sys2Proof.Machine
end

section
/-! SUPPORT. The memories and the byte stream: two-byte fields, stores outside a buffer, and what a step takes of the
stream. -/

namespace Sys2Proof.Machine

/-! ### A step takes an answer only while busy (R61) -/

theorem asks_of_idle {s : State} (hp : s.phase = .idle) : s.asks = false := by
  rw [← Bool.not_eq_true, asks_iff_host]
  exact fun ⟨_, _, hbusy⟩ => hbusy hp

theorem asks_of_quietInput {s : State} (hp : s.phase ≠ .idle) (hq : s.hostNow = quietInput) : s.asks = true := by
  rw [asks_iff_host, hq]
  exact ⟨rfl, fun _ => nofun, hp⟩

/-- Settles O44: a step leaves the stream that `consume` leaves, and that turns on whether the step asks. -/
theorem eventsAreConsumedOnlyWhileBusy : Obligations.EventsAreConsumedOnlyWhileBusy := by
  unfold Obligations.EventsAreConsumedOnlyWhileBusy
  intro s t h
  obtain ⟨hsrc, hlater, -⟩ := step_inputs h
  rw [hsrc, hlater, consume_src, consume_srcLater]
  refine ⟨fun hp => ?_, fun hp hq => ?_⟩
  · simp [asks_of_idle hp]
  · simp [asks_of_quietInput hp hq]

/-! ### A store outside its buffer (R60) -/

theorem storeBody_outside {k : Nat} (hk : 46 ≤ k) (b : Byte) (a : CoreState) :
    storeBody k b a = .fault (.bodyOffset k) :=
  if_neg (Nat.not_lt.mpr hk)

theorem storePoints_outside {ps : List Point} {a : CoreState} (h : 456 < a.count.toNat + ps.length) :
    storePoints ps a = .fault (.scanIndex (a.count.toNat + ps.length - 1)) :=
  if_neg (Nat.not_le.mpr h)

theorem onCore_of_fault {f : CoreState → CoreResult} {s : State} {e : Fault} (h : f s.toCoreState = .fault e) :
    onCore f s = .fault e := by
  simp [onCore, h]

theorem lenOk_iff {a : CoreState} : a.lenOk = true ↔ a.body.read 0 = 44#8 := by simp [CoreState.lenOk]

theorem coreLoad_outside {a : CoreState} (b : Byte) (hp : a.phase = .body) (hk : 46 ≤ a.bidx.toNat) :
    coreLoad b a = .fault (.bodyOffset a.bidx.toNat) := by
  have hlast : a.bidx ≠ 45#6 := by bv_omega
  rw [coreLoad, if_pos ⟨hp, hlast⟩, storeBody_outside hk, andThen_of_fault]

theorem coreCommit_outside (c : Config) {a : CoreState} (b : Byte) (hlast : a.atLastByte = true) (hlen : a.lenOk = true)
    (hcount : 445 ≤ a.count.toNat) : coreCommit c b a = .fault (.scanIndex (a.count.toNat + 11)) := by
  have hbody : storeBody 45 b a = .next { a with body := a.body.write 45 b } := storeBody_next.mpr ⟨by decide, rfl⟩
  rw [coreCommit, if_pos ⟨hlast, hlen⟩, hbody, andThen_of_next, storePoints_outside (by simpa using by omega),
    andThen_of_fault, points_length]
  rfl

/-- Settles O22: the store of LOAD, and the second store of COMMIT, is outside its buffer. -/
theorem storeOutsideItsBufferFaults : Obligations.StoreOutsideItsBufferFaults := by
  unfold Obligations.StoreOutsideItsBufferFaults
  intro s b hp
  refine ⟨fun hk => ?_, fun hlast hlen hcount => ?_⟩
  · exact onCore_of_fault (coreLoad_outside b hp hk)
  · exact onCore_of_fault (coreCommit_outside _ b (atLastByte_iff.mpr ⟨hp, hlast⟩) (lenOk_iff.mpr hlen) hcount)

/-! ### Bytes delivered to an idle core (R33, R61) -/

/-- Settles O38: PACKET and SAMPLE are the delivery of their bytes, and an idle core takes none. -/
theorem wireBytesWaitWhileIdle : Obligations.WireBytesWaitWhileIdle := by
  unfold Obligations.WireBytesWaitWhileIdle
  intro s p x hp
  exact ⟨deliver_idle hp, deliver_idle hp⟩

/-! ### Two-byte fields (R63) -/

theorem le16_toNat (l h : Byte) : (le16 l h).toNat = l.toNat + 256 * h.toNat := by
  rw [le16, BitVec.toNat_append, ← Nat.shiftLeft_add_eq_or_of_lt l.isLt, Nat.shiftLeft_eq]
  omega

@[simp] theorem lo_le16 (l h : Byte) : lo (le16 l h) = l := BitVec.extractLsb'_append_eq_right

@[simp] theorem hi_le16 (l h : Byte) : hi (le16 l h) = h := BitVec.extractLsb'_append_eq_left

/-- Settles O54: a two-byte read is `le16` of its two bytes by definition. -/
theorem twoByteFieldsAreLittleEndian : Obligations.TwoByteFieldsAreLittleEndian := by
  unfold Obligations.TwoByteFieldsAreLittleEndian
  intro l h
  exact ⟨le16_toNat l h, lo_le16 l h, hi_le16 l h, fun get k => le16_toNat (get k) (get (k + 1))⟩

end Sys2Proof.Machine
end

section
/-! SUPPORT. The dispatch word (R97): its fields, the rows that take it, the word of a step, and how one is presented. -/

namespace Sys2Proof.Machine

/-! ### The fields of a dispatch word -/

theorem append_zero_or {v w : Nat} (x : BitVec v) (y : BitVec w) : (x ++ 0#w) ||| y.setWidth (v + w) = x ++ y := by
  ext i hi
  by_cases h : i < w
  · simp [BitVec.getElem_append, h]
  · simp [BitVec.getElem_append, h, BitVec.getLsbD_of_ge y i (Nat.le_of_not_lt h)]

/-- The bits above the byte are bits of the other four fields. -/
theorem extract_above_byte (x : BitVec 6) (b : Byte) (k len : Nat) :
    (x ++ b).extractLsb' (8 + k) len = x.extractLsb' k len := by
  rw [BitVec.extractLsb'_append_eq_of_le (Nat.le_add_right 8 k), Nat.add_sub_cancel_left]

section Fields

variable (p e : BitVec 2) (last lenok : Bool) (b : Byte)

theorem dwPhase_append : dwPhase (p ++ e ++ BitVec.ofBool last ++ BitVec.ofBool lenok ++ b) = p :=
  (extract_above_byte _ b 4 2).trans (by revert p e last lenok; decide)

theorem dwEvent_append : dwEvent (p ++ e ++ BitVec.ofBool last ++ BitVec.ofBool lenok ++ b) = e :=
  (extract_above_byte _ b 2 2).trans (by revert p e last lenok; decide)

theorem dwLast_append : dwLast (p ++ e ++ BitVec.ofBool last ++ BitVec.ofBool lenok ++ b) = last :=
  (congrArg (· == 1) (extract_above_byte _ b 1 1)).trans (by revert p e last lenok; decide)

theorem dwLenOk_append : dwLenOk (p ++ e ++ BitVec.ofBool last ++ BitVec.ofBool lenok ++ b) = lenok :=
  (congrArg (· == 1) (extract_above_byte _ b 0 1)).trans (by revert p e last lenok; decide)

theorem dwByte_append : dwByte (p ++ e ++ BitVec.ofBool last ++ BitVec.ofBool lenok ++ b) = b :=
  BitVec.extractLsb'_append_eq_right

/-- The encoder's word has the pattern's other four fields, and the operand as its byte. -/
theorem dispatchWith_append :
    dispatchWith (p ++ e ++ BitVec.ofBool last ++ BitVec.ofBool lenok ++ 0#8) b =
      p ++ e ++ BitVec.ofBool last ++ BitVec.ofBool lenok ++ b :=
  append_zero_or _ b

end Fields

/-- A word is its five fields. -/
theorem dispatchFields_append (dw : BitVec 14) :
    dwPhase dw ++ dwEvent dw ++ BitVec.ofBool (dwLast dw) ++ BitVec.ofBool (dwLenOk dw) ++ dwByte dw = dw := by
  have hbit (x : BitVec 1) : BitVec.ofBool (x == 1) = x := by revert x; decide
  simp only [dwPhase, dwEvent, dwLast, dwLenOk, dwByte, hbit]
  rw [BitVec.extractLsb'_append_extractLsb'_eq_extractLsb' (start₂ := 12) (start₁ := 10) rfl,
    BitVec.extractLsb'_append_extractLsb'_eq_extractLsb' (start₂ := 10) (start₁ := 9) rfl,
    BitVec.extractLsb'_append_extractLsb'_eq_extractLsb' (start₂ := 9) (start₁ := 8) rfl,
    BitVec.extractLsb'_append_extractLsb'_eq_extractLsb' (start₂ := 8) (start₁ := 0) rfl]
  exact BitVec.extractLsb'_eq_self

/-- The mask of WAIT and ABORT leaves the event field. -/
theorem and_eventMask (dw : BitVec 14) : dw &&& 0x0C00 = 0#2 ++ dwEvent dw ++ 0#1 ++ 0#1 ++ 0#8 := by
  have hmask : (0x0C00 : BitVec 14) = 0#2 ++ BitVec.allOnes 2 ++ 0#1 ++ 0#1 ++ 0#8 := by decide
  conv => lhs; rw [← dispatchFields_append dw, hmask]
  rw [BitVec.and_append, BitVec.and_append, BitVec.and_append, BitVec.and_append, BitVec.and_allOnes]
  simp only [BitVec.and_zero]

/-! ### The rows that take a word -/

section Rows

variable {dw : BitVec 14} {r q : DispatchRow}

theorem takes_iff : r.takes dw = true ↔ dw &&& r.mask = r.pattern := by simp [DispatchRow.takes]

/-- Rows that take one word agree where both masks look. -/
theorem patterns_agree_of_takes (hr : r.takes dw = true) (hq : q.takes dw = true) :
    r.pattern &&& q.mask = q.pattern &&& r.mask := by
  rw [← takes_iff.mp hr, ← takes_iff.mp hq, BitVec.and_assoc, BitVec.and_assoc, BitVec.and_comm r.mask]

/-- Every row looks at the whole event field. -/
theorem event_eq_of_takes (hmem : r ∈ dispatchRows) (h : r.takes dw = true) : dwEvent dw = dwEvent r.pattern := by
  have hmask : ∀ q ∈ dispatchRows, dwEvent q.mask = BitVec.allOnes 2 := by decide
  rw [← takes_iff.mp h, dwEvent, dwEvent, BitVec.extractLsb'_and, ← dwEvent, ← dwEvent, hmask r hmem, BitVec.and_allOnes]

/-- Every row of a byte event looks at the whole phase field. -/
theorem phase_eq_of_takes (hmem : r ∈ dispatchRows) (h : r.takes dw = true) (hb : dwEvent dw = 1#2) :
    dwPhase dw = dwPhase r.pattern := by
  have hmask : ∀ q ∈ dispatchRows, dwEvent q.pattern = 1#2 → dwPhase q.mask = BitVec.allOnes 2 := by decide
  have hones := hmask r hmem ((event_eq_of_takes hmem h).symm.trans hb)
  rw [← takes_iff.mp h, dwPhase, dwPhase, BitVec.extractLsb'_and, ← dwPhase, ← dwPhase, hones, BitVec.and_allOnes]

end Rows

/-- Settles O3: rows that take one word agree where both masks look, and no other two rows do. -/
theorem dispatchRowsOverlapOnlyAtSyncAndDiscard : Obligations.DispatchRowsOverlapOnlyAtSyncAndDiscard := by
  unfold Obligations.DispatchRowsOverlapOnlyAtSyncAndDiscard
  intro dw i j r q hi hj hij hr hq
  have hpairs : ∀ j < 7, ∀ i < j, ∀ r ∈ dispatchRows[i]?, ∀ q ∈ dispatchRows[j]?,
      r.pattern &&& q.mask = q.pattern &&& r.mask → i = 2 ∧ j = 3 := by decide
  obtain ⟨hj7, -⟩ := List.getElem?_eq_some_iff.mp hj
  exact hpairs j hj7 i hij r hi q hj (patterns_agree_of_takes hr hq)

/-! ### The operation of a word -/

/-- What the rows, tried from the top, make of the word. -/
def firstOf (dw : BitVec 14) (rows : List DispatchRow) : Option Instr :=
  (rows.find? fun r => r.takes dw).map fun r => r.make (dwByte dw)

theorem firstOf_cons (dw : BitVec 14) (r : DispatchRow) (rows : List DispatchRow) :
    firstOf dw (r :: rows) = if dw &&& r.mask = r.pattern then some (r.make (dwByte dw)) else firstOf dw rows := by
  by_cases h : r.takes dw = true
  · simp [firstOf, h, takes_iff.mp h]
  · simp [firstOf, h, mt takes_iff.mpr h]

section Word

variable {dw : BitVec 14}

theorem decodeDispatch_toOption (dw : BitVec 14) : (decodeDispatch dw).toOption = firstOf dw dispatchRows := by
  unfold decodeDispatch firstOf
  cases dispatchRows.find? fun r => r.takes dw <;> rfl

theorem decodeDispatch_ok {i : Instr} : decodeDispatch dw = .ok i ↔ firstOf dw dispatchRows = some i := by
  rw [← decodeDispatch_toOption]
  cases decodeDispatch dw <;> simp [Except.toOption]

theorem decodeDispatch_of_no_row (h : ∀ r ∈ dispatchRows, r.takes dw ≠ true) :
    decodeDispatch dw = .error (dispatchError dw) := by
  rw [decodeDispatch, List.find?_eq_none.mpr h]

theorem decodeDispatch_of_noEvent (h : dwEvent dw = 0#2) : decodeDispatch dw = .ok .wait := by
  have hmask : dw &&& 0x0C00 = 0x0000 := by rw [and_eventMask, h]; rfl
  rw [decodeDispatch_ok, dispatchRows, firstOf_cons, if_pos hmask]

theorem decodeDispatch_of_failEvent (h : dwEvent dw = 2#2) : decodeDispatch dw = .ok .abort := by
  have hmask : dw &&& 0x0C00 = 0x0800 := by rw [and_eventMask, h]; rfl
  have hwait : dw &&& 0x0C00 ≠ 0x0000 := by rw [hmask]; decide
  rw [decodeDispatch_ok, dispatchRows, firstOf_cons, if_neg hwait, firstOf_cons, if_pos hmask]

theorem decodeDispatch_of_reservedEvent (h : dwEvent dw = 3#2) : decodeDispatch dw = .error .eventReserved := by
  have hrows : ∀ r ∈ dispatchRows, dwEvent r.pattern ≠ 3#2 := by decide
  have hno : ∀ r ∈ dispatchRows, r.takes dw ≠ true := fun r hmem htakes =>
    hrows r hmem ((event_eq_of_takes hmem htakes).symm.trans h)
  rw [decodeDispatch_of_no_row hno, dispatchError, if_pos h]

/-- Only in HUNT and BODY does a row take a byte event. -/
theorem decodeDispatch_of_byteElsewhere (h : dwEvent dw = 1#2) (hhunt : dwPhase dw ≠ 1#2) (hbody : dwPhase dw ≠ 2#2) :
    decodeDispatch dw = .error (if dwPhase dw = 3#2 then .phaseReserved else .byteWhileIdle) := by
  have hrows : ∀ r ∈ dispatchRows, dwEvent r.pattern = 1#2 → dwPhase r.pattern = 1#2 ∨ dwPhase r.pattern = 2#2 := by
    decide
  have hno : ∀ r ∈ dispatchRows, r.takes dw ≠ true := by
    intro r hmem htakes
    have hphase := phase_eq_of_takes hmem htakes h
    rcases hrows r hmem ((event_eq_of_takes hmem htakes).symm.trans h) with hp | hp
    · exact hhunt (hphase.trans hp)
    · exact hbody (hphase.trans hp)
  rw [decodeDispatch_of_no_row hno, dispatchError, if_neg (by rw [h]; decide)]

end Word

/-! ### The word of a step -/

theorem selects_wellFormed (a : CoreState) (x : SrcAnswer) : (a.selects x).wellFormed = true := by
  cases x with
  | noAnswer => rfl
  | fail => rfl
  | byte b =>
    unfold CoreState.selects
    cases a.phase with
    | idle => rfl
    | hunt => by_cases hb : b = 0x54#8 <;> simp [hb, Instr.wellFormed]
    | body => cases a.atLast <;> cases a.lenOk <;> rfl

theorem CoreStep.wellFormed {c : Config} {inp : Inputs} {a : CoreState} {i : Instr} {r : CoreResult}
    (h : CoreStep c inp a i r) : i.wellFormed = true := by
  cases h with
  | answer => exact selects_wellFormed a inp.answer
  | _ => rfl

/-- Settles O6: a step is of one of five forms, and the operation of each is well-formed. -/
theorem everyFetchedWordIsAnOperation : Obligations.EveryFetchedWordIsAnOperation := by
  unfold Obligations.EveryFetchedWordIsAnOperation
  intro s
  obtain ⟨i, r, hstep⟩ := coreStep_total Config.current s.inputsNow s.toCoreState
  exact ⟨i, hstep.decode_eq, hstep.wellFormed⟩

theorem fetchWord_of_quietInput {s : State} (h : s.hostNow = quietInput) :
    fetchWord s = .dispatch14 (s.dispatchWord s.eventNow) := by
  simp [fetchWord, wordOn, State.inputsNow, State.eventNow, h]

theorem event_of_idle {a : CoreState} (hp : a.phase = .idle) (x : SrcAnswer) : a.event x = .noAnswer := by
  simp [CoreState.event, hp]

theorem Phase.code_ne (p : Phase) : p.code ≠ 3#2 := by cases p <;> decide

theorem SrcAnswer.code_ne (x : SrcAnswer) : x.code ≠ 3#2 := by cases x <;> simp [SrcAnswer.code]

/-- The operation selected, by R97's conditions in words. -/
theorem selects_eq (a : CoreState) (x : SrcAnswer) :
    a.selects x = match a.phase, x with
      | _, .noAnswer => .wait
      | _, .fail => .abort
      | .idle, .byte _ => .wait
      | .hunt, .byte b => if b = 0x54#8 then .sync else .discard b
      | .body, .byte b => if a.bidx ≠ 45#6 then .load b else if a.body.read 0 = 44#8 then .commit b else .reject b := by
  cases x with
  | noAnswer => rfl
  | fail => rfl
  | byte b =>
    cases hp : a.phase with
    | idle => simp [CoreState.selects, hp]
    | hunt => simp [CoreState.selects, hp]
    | body => by_cases hl : a.bidx = 45#6 <;> simp [CoreState.selects, hp, atLast_iff, lenOk_iff, hl]

/-- Settles O5: the rows from the top are `firstOf`, the fields of a step's word are those it is put together from, and
its operation is the one that the state and the event select. -/
theorem dispatchWordSelectsTheMicroOperation : Obligations.DispatchWordSelectsTheMicroOperation := by
  unfold Obligations.DispatchWordSelectsTheMicroOperation
  refine ⟨fun dw => ?_, fun s => ?_⟩
  · rw [decode, decodeDispatch_toOption]
    simp only [dispatchRows, firstOf_cons]
    rfl
  have hidle (hp : s.phase = .idle) : s.eventNow = .noAnswer := event_of_idle hp _
  have hphase : dwPhase (s.dispatchWord s.eventNow) = s.phase.code := dwPhase_append _ _ _ _ _
  have hevent : dwEvent (s.dispatchWord s.eventNow) = s.eventNow.code := dwEvent_append _ _ _ _ _
  refine ⟨⟨hphase, hevent, dwLast_append _ _ _ _ _, dwLenOk_append _ _ _ _ _, dwByte_append _ _ _ _ _⟩,
    ⟨?_, ?_, fun hp => ?_⟩, fetchWord_of_quietInput, ?_⟩
  · rw [hevent]
    exact SrcAnswer.code_ne _
  · rw [hphase]
    exact Phase.code_ne _
  · rw [hevent, hidle hp]
    rfl
  · exact (decode_dispatchWord _ hidle).trans (congrArg Except.ok (selects_eq _ _))

/-! ### Presenting a word (log 11) -/

theorem tableWord_dispatch (dw : BitVec 14) : tableWord 16 dw.toNat = some (.dispatch14 dw) := by
  have := dw.isLt
  simp [tableWord, this]

theorem presentBidx_last (last : Bool) (bidx : BitVec 6) : (presentBidx last bidx == 45#6) = last := by
  cases last with
  | true => rfl
  | false => by_cases h : bidx = 45#6 <;> simp [presentBidx, h]

theorem presentBody_lenOk (lenok : Bool) {m : Memory} (hm : m.wf = true) :
    ((presentBody lenok m).read 0 == 44#8) = lenok := by
  cases lenok with
  | true => simp [presentBody, Memory.read_write_same hm]
  | false => by_cases h : m.read 0 = 44#8 <;> simp [presentBody, h, Memory.read_write_same hm]

section Present

variable {dw : BitVec 14}

theorem presentPhase_code (hphase : dwPhase dw ≠ 3#2) (hidle : dwPhase dw = 0#2 → dwEvent dw = 0#2) :
    (presentPhase dw).code = dwPhase dw := by
  have hcases : ∀ p : BitVec 2, p ≠ 3#2 → p = 0#2 ∨ p = 1#2 ∨ p = 2#2 := by decide
  rcases hcases _ hphase with h | h | h
  · simp [presentPhase, h, hidle h, Phase.code]
  · simp [presentPhase, h, Phase.code]
  · simp [presentPhase, h, Phase.code]

theorem presentPhase_idle (h : presentPhase dw = .idle) : dwEvent dw = 0#2 := by
  by_contra hevent
  by_cases hbody : dwPhase dw = 2#2
  · simp [presentPhase, hbody] at h
  · by_cases hhunt : dwPhase dw = 1#2 <;> simp [presentPhase, hbody, hhunt, hevent] at h

theorem presentAnswer_code (hevent : dwEvent dw ≠ 3#2) : (presentAnswer dw).code = dwEvent dw := by
  have hcases : ∀ e : BitVec 2, e ≠ 3#2 → e = 0#2 ∨ e = 1#2 ∨ e = 2#2 := by decide
  rcases hcases _ hevent with h | h | h <;> simp [presentAnswer, h, SrcAnswer.code]

theorem presentAnswer_data (hbyte : dwEvent dw ≠ 1#2 → dwByte dw = 0#8) : (presentAnswer dw).data = dwByte dw := by
  by_cases h : dwEvent dw = 1#2
  · simp [presentAnswer, h, SrcAnswer.data]
  · rw [hbyte h]
    by_cases hfail : dwEvent dw = 2#2 <;> simp [presentAnswer, h, hfail, SrcAnswer.data]

theorem eventNow_presentDispatch (s : State) : (presentDispatch dw s).eventNow = presentAnswer dw := by
  by_cases hp : presentPhase dw = .idle
  · rw [State.eventNow, event_of_idle (a := (presentDispatch dw s).toCoreState) hp]
    simp [presentAnswer, presentPhase_idle hp]
  · rw [State.eventNow, event_of_busy (a := (presentDispatch dw s).toCoreState) hp]
    simp [State.inputsNow, State.answerNow, presentDispatch, hp]

end Present

/-- Settles O9: each of the five fields of the word fetched is that of the word presented. -/
theorem presentedWordIsFetched : Obligations.PresentedWordIsFetched := by
  unfold Obligations.PresentedWordIsFetched
  refine ⟨fun s dw hwf hevent hphase hidle hbyte => ?_, fun s => rfl⟩
  have hpresent : s.withFetchWord 16 dw.toNat = presentDispatch dw s := by
    rw [State.withFetchWord, presentTableWord, tableWord_dispatch]
    rfl
  rw [hpresent, fetchWord_of_quietInput rfl, eventNow_presentDispatch]
  congr 1
  calc (presentDispatch dw s).dispatchWord (presentAnswer dw)
    _ = (presentPhase dw).code ++ (presentAnswer dw).code ++ BitVec.ofBool (presentBidx (dwLast dw) s.bidx == 45#6) ++
          BitVec.ofBool ((presentBody (dwLenOk dw) s.body).read 0 == 44#8) ++ (presentAnswer dw).data := rfl
    _ = dwPhase dw ++ dwEvent dw ++ BitVec.ofBool (dwLast dw) ++ BitVec.ofBool (dwLenOk dw) ++ dwByte dw := by
      rw [presentPhase_code hphase hidle, presentAnswer_code hevent, presentBidx_last, presentBody_lenOk _ hwf,
        presentAnswer_data hbyte]
    _ = dw := dispatchFields_append dw

end Sys2Proof.Machine
end

section
/-! SUPPORT. The bytes of a sample block and of a unit (R91, R92), field by field. -/

namespace Sys2Proof

@[simp] theorem le16_lo_hi (v : U16) : le16 (lo v) (hi v) = v :=
  (BitVec.extractLsb'_append_extractLsb'_eq_extractLsb' (start₂ := 8) (start₁ := 0) rfl).trans BitVec.extractLsb'_eq_self

@[simp] theorem Sample.bytes_length (x : Sample) : x.bytes.length = 3 := rfl

/-- Byte `j` of the `i`-th of a sequence of sample blocks. -/
theorem getD_flatMap_bytes {xs : List Sample} {x : Sample} {i j : Nat} (h : xs[i]? = some x) (hj : j < 3) :
    (xs.flatMap Sample.bytes).getD (3 * i + j) 0 = x.bytes.getD j 0 := by
  induction xs generalizing i with
  | nil => cases h
  | cons y ys ih =>
    rw [List.flatMap_cons]
    cases i with
    | zero =>
      cases h
      rw [List.getD_append _ _ _ _ (by simpa using hj), Nat.mul_zero, Nat.zero_add]
    | succ i =>
      rw [List.getD_append_right _ _ _ _ (by simp; omega), Sample.bytes_length,
        show 3 * (i + 1) + j - 3 = 3 * i + j by omega, ih h]

namespace PacketFields

variable {p : PacketFields} (len : Byte)

theorem wellFormed_iff : p.wellFormed = true ↔ p.samples.length = 12 := by simp [PacketFields.wellFormed]

theorem bodyWith_length (hp : p.wellFormed = true) : (p.bodyWith len).length = 46 := by
  simp [bodyWith, wellFormed_iff.mp hp]

/-- Sample `i` stands at offset 5 + 3i of the body. -/
theorem getD_bodyWith_sample {x : Sample} {i j : Nat} (hx : p.samples[i]? = some x) (hj : j < 3) :
    (p.bodyWith len).getD (5 + 3 * i + j) 0 = x.bytes.getD j 0 := by
  obtain ⟨hi, -⟩ := List.getElem?_eq_some_iff.mp hx
  rw [bodyWith, List.getD_append _ _ _ _ (by simp; omega), List.getD_append_right _ _ _ _ (by simp; omega)]
  exact (congrArg ((p.samples.flatMap Sample.bytes).getD · 0) (by simp; omega)).trans (getD_flatMap_bytes hx hj)

/-- The fields after the twelve samples stand from offset 41 on. -/
theorem getD_bodyWith_tail (hp : p.wellFormed = true) (j : Nat) :
    (p.bodyWith len).getD (41 + j) 0 = [lo p.a1, hi p.a1, p.tail0, p.tail1, p.tail2].getD j 0 := by
  rw [bodyWith, List.getD_append_right _ _ _ _ (by simp [wellFormed_iff.mp hp])]
  simp [wellFormed_iff.mp hp]

theorem sampleAt_bodyWith {x : Sample} {i : Nat} (hx : p.samples[i]? = some x) :
    sampleAt (fun k => (p.bodyWith len).getD k 0) (5 + 3 * i) = x := by
  have hlow := getD_bodyWith_sample len hx (j := 0) (by decide)
  have hhigh := getD_bodyWith_sample len hx (j := 1) (by decide)
  have hintensity := getD_bodyWith_sample len hx (j := 2) (by decide)
  rw [Nat.add_zero] at hlow
  simp only [sampleAt, hlow, hhigh, hintensity]
  simp [Sample.bytes]

theorem le16_bodyWith_a1 (hp : p.wellFormed = true) :
    le16 ((p.bodyWith len).getD 41 0) ((p.bodyWith len).getD 42 0) = p.a1 := by
  rw [getD_bodyWith_tail len hp 0, getD_bodyWith_tail len hp 1]
  exact le16_lo_hi p.a1

/-- The fields of a unit's bytes are the fields it was made of. -/
theorem packetFields_bytes (hp : p.wellFormed = true) : packetFields (fun k => p.bytes.getD k 0) = p := by
  have hsamples : ((List.range 12).map fun i => sampleAt (fun k => p.bytes.getD k 0) (6 + 3 * i)) = p.samples := by
    refine List.ext_getElem (by simp [wellFormed_iff.mp hp]) fun i _ hi => ?_
    rw [List.getElem_map, List.getElem_range, show 6 + 3 * i = 5 + 3 * i + 1 by omega]
    exact sampleAt_bodyWith Config.lenConst (List.getElem?_eq_getElem hi)
  have htail (j : Nat) : p.bytes.getD (41 + j + 1) 0 = [lo p.a1, hi p.a1, p.tail0, p.tail1, p.tail2].getD j 0 :=
    getD_bodyWith_tail Config.lenConst hp j
  have hspeed : le16 (p.bytes.getD 2 0) (p.bytes.getD 3 0) = p.speed := le16_lo_hi p.speed
  have ha0 : le16 (p.bytes.getD 4 0) (p.bytes.getD 5 0) = p.a0 := le16_lo_hi p.a0
  have ha1 : le16 (p.bytes.getD 42 0) (p.bytes.getD 43 0) = p.a1 := le16_bodyWith_a1 Config.lenConst hp
  simp only [packetFields, Config.ptsPerPkt_eq, hsamples, hspeed, ha0, ha1, htail 2, htail 3, htail 4]
  rfl

end PacketFields

end Sys2Proof
end

section
/-! SUPPORT. The decoder: what it accepts of the encoder's words, and what it rejects (log 10). -/

namespace Sys2Proof.Machine

/-- An operation of BODY at the byte `b` is read back from its row's pattern. -/
theorem decodeDispatch_dispatchWith_body (last lenok : Bool) (b : Byte) :
    decodeDispatch (dispatchWith (2#2 ++ 1#2 ++ BitVec.ofBool last ++ BitVec.ofBool lenok ++ 0#8) b) =
      .ok (if last then (if lenok then .commit b else .reject b) else .load b) := by
  rw [dispatchWith_append]
  exact decodeDispatch_body_byte last lenok b

theorem decodeDispatch_dispatchWith_hunt {b : Byte} (hb : b ≠ 0x54#8) :
    decodeDispatch (dispatchWith (1#2 ++ 1#2 ++ BitVec.ofBool false ++ BitVec.ofBool false ++ 0#8) b) = .ok (.discard b) := by
  rw [dispatchWith_append, decodeDispatch_hunt_byte, if_neg hb]

theorem decodeUnit_bytes {p : PacketFields} (hp : p.wellFormed = true) : decodeUnit p.bytes = .ok (.packet p) := by
  have hlen : p.bytes.length = Config.unitBytes := congrArg (· + 1) (p.bodyWith_length _ hp)
  have hsync : p.bytes.getD 0 0 = Config.syncByte := rfl
  have hlenByte : p.bytes.getD 1 0 = Config.lenConst := rfl
  rw [decodeUnit, PacketFields.packetFields_bytes hp, hlen, hsync, hlenByte]
  rfl

theorem decodeSample_bytes (x : Sample) : decodeSample x.bytes = .ok (.sample x) := by
  simp [decodeSample, sampleAt, Sample.bytes]

/-- Settles O1, operation by operation: a micro-operation's word has the fields of its row, the words of a sequence of R102
are one of its expansions, and the fields of a wire format stand in its bytes. -/
theorem decodingAnEncodedOperationGivesItBack : Obligations.DecodingAnEncodedOperationGivesItBack := by
  unfold Obligations.DecodingAnEncodedOperationGivesItBack
  intro i hi
  cases i with
  | wait | abort | sync | start | read | reset | findsync | decodepacket => rfl
  | discard b => exact decodeDispatch_dispatchWith_hunt (by simpa [Instr.wellFormed] using hi)
  | load b => exact decodeDispatch_dispatchWith_body false false b
  | commit b => exact decodeDispatch_dispatchWith_body true true b
  | reject b => exact decodeDispatch_dispatchWith_body true false b
  | assemblescan =>
    simp only [encode, decode, decodeOps, Laws.EncodedRow.takeScan_packets]
    rfl
  | packet p => exact decodeUnit_bytes hi
  | sample x => exact decodeSample_bytes x

/-- Settles O2, by evaluation of the decoder. -/
theorem writtenOutWordsDecode : Obligations.WrittenOutWordsDecode := by
  unfold Obligations.WrittenOutWordsDecode
  exact ⟨rfl, rfl, rfl, rfl, rfl, rfl, rfl, rfl, rfl, rfl, rfl, rfl, rfl⟩

theorem decodeOps_error {ws : List OpWord} {e : DecodeError} (h : decodeOps ws = .error e) : e = .unknownExpansion := by
  unfold decodeOps at h
  split at h
  · cases h
  · split at h
    · cases h
    · split at h
      · split at h
        · cases h
        · exact (Except.error.inj h).symm
      · exact (Except.error.inj h).symm

/-- Settles O4: a dispatch word is rejected by its event and phase fields, a wire format by the first of its checks that
fails, and a sequence by the one error that the decoder has for it. -/
theorem wordsThatNoRowTakesAreRejectedByName : Obligations.WordsThatNoRowTakesAreRejectedByName := by
  unfold Obligations.WordsThatNoRowTakesAreRejectedByName
  have hops (ws : List OpWord) (h : ∀ i, decode (.ops ws) ≠ .ok i) : decode (.ops ws) = .error .unknownExpansion := by
    cases hd : decode (.ops ws) with
    | ok i => exact absurd hd (h i)
    | error e => rw [decodeOps_error hd]
  refine ⟨fun _ => decodeDispatch_of_reservedEvent, fun dw he hp => ?_, fun dw he hp => ?_,
    fun _ => decodeDispatch_of_noEvent, fun _ => decodeDispatch_of_failEvent, rfl, rfl, fun bytes h => ?_,
    fun b rest hlen hb => ?_, fun b rest hlen hb => ?_, fun bytes h => ?_, hops, rfl⟩
  · rw [decode, decodeDispatch_of_byteElsewhere he (by simp [hp]) (by simp [hp]), if_pos hp]
  · rw [decode, decodeDispatch_of_byteElsewhere he (by simp [hp]) (by simp [hp]), if_neg (by simp [hp])]
  · simp [decode, decodeUnit, h]
  · simp [decode, decodeUnit, hlen, hb]
  · simp [decode, decodeUnit, hlen, hb]
  · simp [decode, decodeSample, h]

end Sys2Proof.Machine
end

section
/-! SUPPORT. Operations outside their condition; the sequences of R102 and the wire formats as the steps they are (R138). -/

namespace Sys2Proof.Machine

/-! ### Outside the condition (R97, R212; log 9) -/

theorem onCore_of_refused {f : CoreState → CoreResult} {s : State} {e : Refusal} (h : f s.toCoreState = .refused e) :
    onCore f s = .refused e := by
  simp [onCore, h]

/-- Settles O21: the condition of each operation is the one its meaning tests. -/
theorem microOperationOrDecoderMacroOutsideItsConditionIsRefused :
    Obligations.MicroOperationOrDecoderMacroOutsideItsConditionIsRefused := by
  unfold Obligations.MicroOperationOrDecoderMacroOutsideItsConditionIsRefused
  intro s b
  refine ⟨fun h => onCore_of_refused (if_neg (not_not.mpr h)), fun h => onCore_of_refused (if_neg h),
    fun h => onCore_of_refused (if_neg ?_), fun h => onCore_of_refused (if_neg ?_), fun h => onCore_of_refused (if_neg ?_),
    fun h => onCore_of_refused (if_neg ?_), fun h => if_neg h, fun h => if_neg h⟩
  · rintro ⟨hp, hb⟩
    exact h.elim (· hp) hb
  · rintro ⟨hp, hl⟩
    exact h.elim (· hp) hl
  · rw [atLastByte_iff, lenOk_iff]
    rintro ⟨⟨hp, hl⟩, hlen⟩
    exact h.elim (· hp) (·.elim (· hl) (· hlen))
  · rw [atLastByte_iff, ← Bool.not_eq_true, lenOk_iff]
    rintro ⟨⟨hp, hl⟩, hlen⟩
    exact h.elim (· hp) (·.elim (· hl) hlen)

/-- Settles O33: ASSEMBLESCAN tests for IDLE. -/
theorem assemblescanWhileBusyChangesNothing : Obligations.AssemblescanWhileBusyChangesNothing := by
  unfold Obligations.AssemblescanWhileBusyChangesNothing
  exact fun s hp => if_neg hp

/-! ### Delivered bytes -/

/-- The machine with the bytes put in front of the answers to come. -/
def State.fed (s : State) (bs : List Byte) : State := { s with src := bs.map .byte ++ s.src }

@[simp] theorem fed_toCoreState (s : State) (bs : List Byte) : (s.fed bs).toCoreState = s.toCoreState := rfl
@[simp] theorem fed_src (s : State) (bs : List Byte) : (s.fed bs).src = bs.map .byte ++ s.src := rfl
@[simp] theorem fed_host (s : State) (bs : List Byte) : (s.fed bs).host = s.host := rfl

theorem fed_answered (s : State) (b : Byte) (bs : List Byte) (a : CoreState) :
    (s.fed (b :: bs)).answered a = ({ s with toCoreState := a } : State).fed bs := by
  simp [State.answered, State.took, State.fed]

/-- A byte delivered to a busy core is taken by one micro-operation. -/
theorem deliver_of_answerStep {c : Config} {b : Byte} {s : State} {a : CoreState} (hp : s.phase ≠ .idle)
    (h : AnswerStep c (.byte b) s.toCoreState a) (bs : List Byte) :
    deliver c (b :: bs) s = deliver c bs { s with toCoreState := a } := by
  rw [deliver_cons hp, onCore_of_next (f := takeByte c b) ((takeAnswer_next hp).mpr h), andThen_of_next]

/-- Delivery is the run of the steps that take the bytes, up to the first byte that the core does not ask for. -/
theorem deliver_realised (bs : List Byte) {s : State} (hI : Invariant s) (hh : s.host = []) :
    ∃ t n, deliver Config.current bs s = .next t ∧ t.src.length + n = bs.length + s.src.length ∧
      core.run n (s.fed bs) = .next t := by
  induction bs generalizing s with
  | nil => exact ⟨s, 0, rfl, Nat.add_comm .., rfl⟩
  | cons b bs ih =>
    by_cases hp : s.phase = .idle
    · exact ⟨s.fed (b :: bs), 0, deliver_idle hp, by simp [Nat.add_right_comm], rfl⟩
    · obtain ⟨a, ha⟩ := hI.answerStep hp Config.current (.byte b)
      obtain ⟨t, n, ht, hlen, hrun⟩ := ih (s := { s with toCoreState := a }) (ha.keeps_invariant hI hp) hh
      have hstep := realises_answer (P := Busy) (s := s.fed (b :: bs)) hh hp ha hp
      refine ⟨t, 1 + n, (deliver_of_answerStep hp ha bs).trans ht, ?_, ?_⟩
      · have : t.src.length + n = bs.length + s.src.length := hlen
        rw [List.length_cons]
        omega
      · rw [run_of_run hstep.runs n, fed_answered]
        exact hrun

/-! ### The operations are their steps -/

section Steps

variable {s : State} (hI : Invariant s) (hh : s.host = [])
include hI hh

theorem runPhase_is_steps {p : Phase} (hp : s.phase = p) (hb : p ≠ .idle) :
    ∃ t n, runPhase Config.current p s = .next t ∧ t.src = s.src.drop n ∧
      t.srcLater = s.srcLater.after (n - s.src.length) ∧ core.run n s = .next t ∧
      (∀ m, m < n → ∃ u : State, core.run m s = .next u ∧ u.phase = p) ∧
      (t.phase = p → ∀ m, ∃ u : State, core.run m s = .next u ∧ u.phase = p) := by
  obtain ⟨t, n, ht, -, hsteps, -, hforever⟩ := runPhase_realised hI hh hp hb
  obtain ⟨hsrc, hlater, -⟩ := hsteps.inputs
  exact ⟨t, n, ht, hsrc, hlater, hsteps.runs, hsteps.before, fun hstay => hsteps.then_forever (hforever hstay)⟩

theorem deliver_is_steps (bs : List Byte) :
    ∃ t, deliver Config.current bs s = .next t ∧ t.src.length ≤ bs.length + s.src.length ∧
      core.run (bs.length + s.src.length - t.src.length) (s.fed bs) = .next t := by
  obtain ⟨t, n, ht, hlen, hrun⟩ := deliver_realised bs hI hh
  exact ⟨t, ht, by omega, by rwa [← hlen, Nat.add_sub_cancel_left]⟩

end Steps

/-- Settles O35: FINDSYNC and DECODEPACKET are the run of one phase, PACKET and SAMPLE the delivery of their bytes, and
both of these are steps. -/
theorem compoundOperationsAreStepSequences : Obligations.CompoundOperationsAreStepSequences := by
  unfold Obligations.CompoundOperationsAreStepSequences
  intro s hI hh
  refine ⟨fun hp => ?_, fun hp => ?_, fun p => deliver_is_steps hI hh p.bytes, fun x => deliver_is_steps hI hh x.bytes⟩
  · rw [show exec .findsync s = runPhase Config.current .hunt s from if_pos hp]
    exact runPhase_is_steps hI hh hp (by decide)
  · rw [show exec .decodepacket s = runPhase Config.current .body s from if_pos hp]
    exact runPhase_is_steps hI hh hp (by decide)

end Sys2Proof.Machine
end

section
/-! SUPPORT. A sample block and a unit taken by a core that asks for them: the bytes loaded, and the Points committed. -/

namespace Sys2Proof.Machine

/-! ### Bytes stored one after another -/

/-- `m'` is `m` with the bytes `bs` at the offsets `k`, `k + 1`, .. -/
structure BytesStored (m : Memory) (k : Nat) (bs : List Byte) (m' : Memory) : Prop where
  wf : m'.wf = true
  read_stored : ∀ i (h : i < bs.length), m'.read (k + i) = bs[i]
  read_other : ∀ j, j < k ∨ k + bs.length ≤ j → m'.read j = m.read j

section BytesStored

variable {m m' : Memory} {k : Nat} {b : Byte} {bs : List Byte}

theorem BytesStored.nil (k : Nat) (hm : m.wf = true) : BytesStored m k [] m where
  wf := hm
  read_stored _ h := absurd h (Nat.not_lt_zero _)
  read_other _ _ := rfl

theorem BytesStored.cons (hm : m.wf = true) (h : BytesStored (m.write k b) (k + 1) bs m') :
    BytesStored m k (b :: bs) m' where
  wf := h.wf
  read_stored i hi := by
    cases i with
    | zero => exact (h.read_other k (.inl (Nat.lt_succ_self k))).trans (Memory.read_write_same hm k b)
    | succ i =>
      rw [← Nat.add_assoc, Nat.add_right_comm]
      exact h.read_stored i (Nat.lt_of_succ_lt_succ hi)
  read_other j hj := by
    rw [List.length_cons] at hj
    exact (h.read_other j (by omega)).trans (Memory.read_write_ne m (by omega) b)

theorem BytesStored.concat (h : BytesStored m k bs m') (b : Byte) (hlt : k + bs.length < 46) :
    BytesStored m k (bs ++ [b]) (m'.write (k + bs.length) b) where
  wf := Memory.write_wf h.wf hlt b
  read_stored i hi := by
    rw [List.length_append, List.length_singleton] at hi
    by_cases heq : i = bs.length
    · subst heq
      rw [Memory.read_write_same h.wf, List.getElem_concat_length rfl]
    · rw [Memory.read_write_ne _ (by omega), List.getElem_append_left (by omega)]
      exact h.read_stored i (by omega)
  read_other j hj := by
    rw [List.length_append, List.length_singleton] at hj
    rw [Memory.read_write_ne _ (by omega)]
    exact h.read_other j (by omega)

/-- A whole body stored from offset 0 on is all of BODY. -/
theorem BytesStored.read_complete (h : BytesStored m 0 bs m') (hlen : bs.length = 46) :
    m'.read = fun k => bs.getD k 0 := by
  funext k
  by_cases hk : k < bs.length
  · rw [List.getD_eq_getElem _ _ hk, ← h.read_stored k hk, Nat.zero_add]
  · rw [List.getD_eq_default _ _ (Nat.le_of_not_lt hk), Memory.read_outside h.wf (by simp; omega)]
    rfl

end BytesStored

/-! ### Bytes delivered in BODY (R151, R213) -/

/-- Bytes delivered before the last offset are loaded one after another; then the rest is delivered. -/
theorem deliver_loads (c : Config) (bs rest : List Byte) {s : State} (hwf : s.body.wf = true) (hp : s.phase = .body)
    (hfit : s.bidx.toNat + bs.length ≤ 45) :
    ∃ m, BytesStored s.body s.bidx.toNat bs m ∧
      deliver c (bs ++ rest) s = deliver c rest { s with body := m, bidx := s.bidx + BitVec.ofNat 6 bs.length } := by
  induction bs generalizing s with
  | nil => exact ⟨s.body, .nil _ hwf, by simp⟩
  | cons b bs ih =>
    rw [List.length_cons] at hfit
    have hlast : s.bidx ≠ 45#6 := by bv_omega
    have hnext : (s.bidx + 1#6).toNat = s.bidx.toNat + 1 := by bv_omega
    have hsum : s.bidx + 1#6 + BitVec.ofNat 6 bs.length = s.bidx + BitVec.ofNat 6 (bs.length + 1) := by
      rw [BitVec.add_assoc, ← BitVec.ofNat_add, Nat.add_comm 1]
    have hload : AnswerStep c (.byte b) s.toCoreState
      { s.toCoreState with body := s.body.write s.bidx.toNat b, bidx := s.bidx + 1#6 } := .load hp hlast (by omega)
    obtain ⟨m, hm, hrest⟩ := ih (s := { s with body := s.body.write s.bidx.toNat b, bidx := s.bidx + 1#6 })
      (Memory.write_wf hwf (show s.bidx.toNat < 46 by omega) b) hp (by rw [hnext]; omega)
    rw [hnext] at hm
    refine ⟨m, hm.cons hwf, ?_⟩
    rw [List.cons_append, deliver_of_answerStep (by simp [hp]) hload, hrest, List.length_cons, ← hsum]

/-- A body of length byte 44, delivered from offset 0 on, is loaded and committed. -/
theorem deliver_body (c : Config) {bs : List Byte} (hlen : bs.length = 46) (hlenByte : bs.getD 0 0 = 44#8) {s : State}
    (hI : Invariant s) (hp : s.phase = .body) (h0 : s.bidx = 0#6) :
    ∃ m, BytesStored s.body 0 bs m ∧ deliver c bs s = .next { s with
      toCoreState := countPacket { s.toCoreState with
        bidx := 45#6
        body := m
        scan := s.scan.writeFrom s.count.toNat (points c fun k => bs.getD k 0) } } := by
  obtain ⟨front, b, rfl⟩ : ∃ front b, bs = front ++ [b] :=
    (List.eq_nil_or_concat' bs).resolve_left (by rintro rfl; cases hlen)
  have hfront : front.length = 45 := by simpa using hlen
  obtain ⟨m, hm, hrun⟩ := deliver_loads c front [b] hI.body_wf hp (by simp [h0, hfront])
  have hall : BytesStored s.body 0 (front ++ [b]) (m.write 45 b) := by
    rw [h0] at hm
    simpa [hfront] using hm.concat b (by simp [hfront])
  have hread := hall.read_complete hlen
  have h44 : m.read 0 = 44#8 := by
    rw [← Memory.read_write_ne m (show 0 ≠ 45 by decide) b, hread]
    exact hlenByte
  have hcount : s.count.toNat + 12 ≤ 456 := by
    have := hI.count_eq
    have := hI.pkt_le_of_busy (by simp [hp])
    omega
  have hcommit : AnswerStep c (.byte b) { s.toCoreState with body := m, bidx := 45#6 } _ :=
    .commit hp rfl (lenOk_iff.mpr h44) hcount
  have hlast : s.bidx + BitVec.ofNat 6 front.length = 45#6 := by rw [h0, hfront]; rfl
  rw [hread] at hcommit
  rw [hlast] at hrun
  exact ⟨_, hall, hrun.trans
    (deliver_of_answerStep (s := { s with body := m, bidx := 45#6 }) (by simp [hp]) hcommit [])⟩

/-- Settles O37: the three bytes of the block are loaded at BIDX. -/
theorem sampleInBodyLoadsThreeBytes : Obligations.SampleInBodyLoadsThreeBytes := by
  unfold Obligations.SampleInBodyLoadsThreeBytes
  intro s x hwf hp hfit
  obtain ⟨m, hm, hrun⟩ := deliver_loads Config.current x.bytes [] hwf hp hfit
  have hlow : m.read s.bidx.toNat = lo x.distance := hm.read_stored 0 (by simp)
  have hhigh : m.read (s.bidx.toNat + 1) = hi x.distance := hm.read_stored 1 (by simp)
  have hintensity : m.read (s.bidx.toNat + 2) = x.intensity := hm.read_stored 2 (by simp)
  have hbidx : (s.bidx + BitVec.ofNat 6 3).toNat = s.bidx.toNat + 3 := by bv_omega
  refine ⟨_, hrun, hlow, hhigh, hintensity, hm.read_other, fun i hi => ?_, hbidx, hp, rfl, rfl, rfl, rfl, fun _ => rfl,
    rfl, rfl, rfl, rfl, rfl⟩
  rw [hi] at hlow hhigh hintensity
  exact ⟨(congrArg₂ le16 hlow hhigh).trans (le16_lo_hi x.distance), hintensity⟩

/-! ### The Points of a unit (R93, R157) -/

theorem pointAt_bodyWith (c : Config) {p : PacketFields} (len : Byte) (hp : p.wellFormed = true) {x : Sample} {i : Nat}
    (hx : p.samples[i]? = some x) :
    pointAt c (fun k => (p.bodyWith len).getD k 0) i =
      { angle := c.angle p.a0 p.a1 i, distance := x.distance, intensity := x.intensity } := by
  have ha0 : fieldA0 (fun k => (p.bodyWith len).getD k 0) = p.a0 := le16_lo_hi p.a0
  have ha1 : fieldA1 (fun k => (p.bodyWith len).getD k 0) = p.a1 := p.le16_bodyWith_a1 len hp
  rw [pointAt, ha0, ha1]
  exact congrArg (fun y : Sample => Point.mk _ y.distance y.intensity) (p.sampleAt_bodyWith len hx)

/-- Settles O36: SYNC, then the body loaded and committed, whose Points are those of the unit's fields. -/
theorem packetInHuntGivesThePointsOfItsFields : Obligations.PacketInHuntGivesThePointsOfItsFields := by
  unfold Obligations.PacketInHuntGivesThePointsOfItsFields
  intro s p hI hp hwf
  have hbusy : s.phase ≠ .idle := by simp [hp]
  obtain ⟨-, hvalid, hpkt⟩ := hI.running hbusy
  have hcount : s.count.toNat + 12 ≤ 456 := by
    have := hI.count_eq
    omega
  have hlen := p.bodyWith_length Config.lenConst hwf
  have hsync := deliver_of_answerStep (c := Config.current) hbusy (.sync hp) (p.bodyWith Config.lenConst)
  obtain ⟨m, hm, hrun⟩ := deliver_body Config.current hlen rfl (hI.synced hp) rfl rfl
  refine ⟨_, hsync.trans hrun, fun i hi => ?_, fun k hk => ?_, fun k _ => ?_, ?_, ?_, countPacket_bidx _,
    countPacket_err _, fun h => ?_, fun h => ?_, rfl, rfl, rfl, rfl, rfl⟩
  · have hx : p.samples[i]? = some _ := List.getElem?_eq_getElem (by rwa [PacketFields.wellFormed_iff.mp hwf])
    rw [countPacket_scan, ScanMem.read_writeFrom hI.scan_wf _ _ (by simpa using hcount) i (by simpa using hi),
      points_getElem, pointAt_bodyWith _ _ hwf hx, hx]
    rfl
  · rw [countPacket_scan]
    rcases hk with hk | hk
    · exact ScanMem.read_writeFrom_below _ _ hk
    · exact ScanMem.read_writeFrom_above _ _ (by simpa using hk)
  · rw [countPacket_body]
    exact congrFun (hm.read_complete hlen) k
  · rw [countPacket_count]
    bv_omega
  · rw [countPacket_pkt]
    exact pkt_succ_toNat hpkt
  · have h38 : s.pkt + 1#6 = 38#6 := (lastPacket_iff hpkt).mpr (by omega)
    rw [countPacket_phase, countPacket_scanValid, if_pos h38, if_pos h38]
    exact ⟨rfl, rfl⟩
  · have h38 : s.pkt + 1#6 ≠ 38#6 := mt (lastPacket_iff hpkt).mp (by omega)
    rw [countPacket_phase, countPacket_scanValid, if_neg h38, if_neg h38]
    exact ⟨rfl, hvalid⟩

end Sys2Proof.Machine
end

section
/-! SUPPORT. The Frame Synchronizer: its four micro-operations, the answers that no core waiting or hunting notices
(R131, R133, R136, R138), and FINDSYNC against `findSync` (R130). -/

namespace Sys2Proof.Machine

/-! ### FINDSYNC and its contract (R130, R138) -/

section FindSync

variable {x : SrcAnswer} {l : List SrcAnswer}

theorem findSync_cons_of_not_mark (hx : x.isMark = false) : findSync (x :: l) = findSync l := by
  cases x with
  | noAnswer => rfl
  | byte b =>
    have hb : ¬ b = Config.syncByte := by simpa [SrcAnswer.isMark] using hx
    exact if_neg hb
  | fail => cases hx

theorem findSync_cons_of_mark (hx : x.isMark = true) : findSync (x :: l) ≠ .waiting := by
  cases x with
  | noAnswer => cases hx
  | byte b =>
    have hb : b = Config.syncByte := by simpa [SrcAnswer.isMark] using hx
    simp [findSync, hb]
  | fail => simp [findSync]

theorem findSync_waiting_iff : findSync l = .waiting ↔ ∀ x ∈ l, x.isMark = false := by
  induction l with
  | nil => simp [findSync]
  | cons x l ih =>
    cases hx : x.isMark with
    | false => simp [findSync_cons_of_not_mark hx, ih, hx]
    | true => simp [findSync_cons_of_mark hx, hx]

end FindSync

/-- What a hunting core comes to when `findSync` says `r` of the answers it takes. -/
def CoreState.hunted (a : CoreState) : FindSyncResult → CoreState
  | .ok _ => { a with phase := .body, bidx := 0#6 }
  | .ioError _ => raise .ioError a
  | .waiting => a

theorem hunted_frame (a : CoreState) (r : FindSyncResult) :
    (a.hunted r).pkt = a.pkt ∧ (a.hunted r).count = a.count ∧ (a.hunted r).scanValid = a.scanValid ∧
      (a.hunted r).body = a.body ∧ (a.hunted r).scan = a.scan := by
  cases r <;> exact ⟨rfl, rfl, rfl, rfl, rfl⟩

/-- A mark ends the hunt as `findSync` says of it. -/
theorem answerStep_of_mark {c : Config} {x : SrcAnswer} {a : CoreState} (hp : a.phase = .hunt) (hx : x.isMark = true) :
    AnswerStep c x a (a.hunted (findSync [x])) ∧ (a.hunted (findSync [x])).phase ≠ .hunt ∧
      (findSync [x] = .ok [] ∨ findSync [x] = .ioError []) := by
  cases x with
  | noAnswer => cases hx
  | byte b =>
    obtain rfl : b = 0x54#8 := by simpa [SrcAnswer.isMark] using hx
    exact ⟨.sync hp, Phase.noConfusion, .inl rfl⟩
  | fail => exact ⟨.abort, Phase.noConfusion, .inr rfl⟩

@[simp] theorem State.answers_zero (s : State) : s.answers 0 = [] := by simp [State.answers, SrcLater.answers]

/-- A hunt of `m` answers at most takes those up to the first mark, or all `m` where none of them is one. -/
theorem runWhile_hunt (c : Config) (m : Nat) {s : State} (hp : s.phase = .hunt) :
    ∃ n, runWhile c .hunt m s = .next { s.took n with toCoreState := s.hunted (findSync (s.answers n)) } ∧
      (findSync (s.answers n) = .ok [] ∨ findSync (s.answers n) = .ioError [] ∨
        findSync (s.answers n) = .waiting ∧ n = m) := by
  have hbusy : s.phase ≠ .idle := by simp [hp]
  induction m generalizing s with
  | zero => exact ⟨0, by simp [findSync, CoreState.hunted], by simp [findSync]⟩
  | succ m ih =>
    cases hmark : s.answerNow.isMark with
    | false =>
      have hstep : AnswerStep c s.answerNow s.toCoreState s.toCoreState :=
        answerStep_of_not_counts hbusy (by rw [hp]; exact hmark)
      have hsame (n : Nat) : findSync (s.answers (1 + n)) = findSync ((s.took 1).answers n) := by
        rw [Nat.add_comm, s.answers_succ, findSync_cons_of_not_mark hmark]
      obtain ⟨n, hrun, hres⟩ := ih (s := s.took 1) hp hbusy
      refine ⟨1 + n, ?_, ?_⟩
      · rw [runWhile_of_answer hbusy hstep, if_pos hp, hsame, ← took_took]
        exact hrun
      · rw [hsame]
        exact hres.imp_right (·.imp_right (·.imp_right (by omega)))
    | true =>
      have hone : s.answers 1 = [s.answerNow] := by rw [s.answers_succ 0, State.answers_zero]
      obtain ⟨hstep, hend, hres⟩ := answerStep_of_mark (c := c) hp hmark
      refine ⟨1, ?_, ?_⟩ <;> rw [hone]
      · exact (runWhile_of_answer hbusy hstep).trans (if_neg hend)
      · exact hres.imp_right .inl

/-- A mark among the coming answers, however late, is listed or within reach. -/
theorem findSync_waits_beyond_reach {s : State} (h : findSync (s.answers (s.src.length + s.srcLater.reach)) = .waiting)
    (m : Nat) : findSync (s.answers m) = .waiting := by
  rw [answers_past_listed, findSync_waiting_iff] at h
  rw [findSync_waiting_iff]
  intro x hx
  rcases List.mem_append.mp hx with hx | hx
  · exact h x (List.mem_append_left _ (List.mem_of_mem_take hx))
  · rw [answers_eq_map_range] at hx
    obtain ⟨k, -, rfl⟩ := List.mem_map.mp hx
    by_contra hmark
    obtain ⟨j, hj, hmark⟩ := mark_within_reach s.srcLater k (Bool.eq_true_of_not_eq_false hmark)
    have := h _ (List.mem_append_right _ (List.mem_of_getElem? (answers_getElem? _ hj)))
    rw [hmark] at this
    cases this

/-- Settles O30: FINDSYNC is a hunt as long as the reach, which takes the answers up to the first mark; where none comes
within reach, none ever comes. -/
theorem findsyncFollowsItsContract : Obligations.FindsyncFollowsItsContract := by
  unfold Obligations.FindsyncFollowsItsContract
  intro s hp
  obtain ⟨n, hrun, hres⟩ := runWhile_hunt Config.current (s.src.length + s.srcLater.reach) hp
  obtain ⟨hpkt, hcount, hvalid, hbody, hscan⟩ := hunted_frame s.toCoreState (findSync (s.answers n))
  refine ⟨_, n, (if_pos hp).trans hrun, rfl, rfl, hpkt, hcount, hvalid, fun k => congrArg (Memory.read · k) hbody,
    fun k => congrArg (ScanMem.read · k) hscan, rfl, rfl, rfl, ?_⟩
  rcases hres with h | h | ⟨h, rfl⟩ <;> rw [h]
  · exact ⟨rfl, rfl, rfl, rfl⟩
  · exact ⟨rfl, rfl, rfl, rfl⟩
  · exact ⟨Nat.le_add_right _ _, findSync_waits_beyond_reach h, hp, rfl, rfl⟩

/-! ### Bytes discarded in HUNT (R131, R136) -/

/-- Bytes other than `0x54` are gone after as many steps, and nothing else has changed. -/
theorem run_fed_of_discards {s : State} (hp : s.phase = .hunt) (hh : s.host = []) {bytes : List Byte}
    (hbytes : ∀ b ∈ bytes, b ≠ 0x54#8) : core.run bytes.length (s.fed bytes) = .next s := by
  induction bytes with
  | nil => rfl
  | cons b bytes ih =>
    obtain ⟨hb, hrest⟩ := List.forall_mem_cons.mp hbytes
    have hbusy : s.phase ≠ .idle := by simp [hp]
    have hstep := realises_answer (P := Busy) (s := s.fed (b :: bytes)) hh hbusy (.discard hp hb) hbusy
    rw [List.length_cons, Nat.add_comm, run_of_run hstep.runs, fed_answered]
    exact ih hrest

/-- Settles O49: the garbage is discarded, and the SYNC then meets the state as it was. -/
theorem garbageBeforeTheSyncMarkerLeavesNoTrace : Obligations.GarbageBeforeTheSyncMarkerLeavesNoTrace := by
  unfold Obligations.GarbageBeforeTheSyncMarkerLeavesNoTrace
  intro s garbage rest hp hh hgarbage
  have hbusy : s.phase ≠ .idle := by simp [hp]
  have hdiscards := run_fed_of_discards (s := ({ s with src := rest } : State).fed [0x54#8]) hp hh hgarbage
  have hsync := realises_answer (P := Busy) (s := ({ s with src := rest } : State).fed [0x54#8]) hh hbusy (.sync hp) hbusy
  rw [fed_answered] at hsync
  exact (run_of_run hdiscards 1).trans hsync.runs

/-! ### Waiting and discarding for ever (R138, R275, R276) -/

theorem answerNow_took_of_unlisted {s : State} (hsrc : s.src = []) (k : Nat) :
    (s.took k).answerNow = (s.srcLater.after k).now := by
  simp [State.answerNow, hsrc]

theorem took_of_silent {s : State} (hsrc : s.src = []) (hlater : s.srcLater = .silent) (n : Nat) : s.took n = s := by
  cases s
  simp_all [State.took]

/-- Every answer of a repeated period is one of the period. -/
theorem now_after_again_mem (a : SrcAnswer) (as : List SrcAnswer) (k : Nat) :
    ((SrcLater.again a as).after k).now ∈ a :: as := by
  induction k generalizing a as with
  | zero => exact List.mem_cons_self
  | succ k ih =>
    cases as with
    | nil => exact ih a []
    | cons b bs => exact (List.perm_append_singleton a (b :: bs)).mem_iff.mp (ih b (bs ++ [a]))

theorem run_of_silent {s : State} (n : Nat) (hp : s.phase ≠ .idle) (hh : s.host = []) (hsrc : s.src = [])
    (hlater : s.srcLater = .silent) : core.run n s = .next s := by
  have hwait (k : Nat) : AnswerStep Config.current (s.took k).answerNow s.toCoreState s.toCoreState := by
    rw [answerNow_took_of_unlisted hsrc, hlater, after_silent]
    exact .wait
  exact (realises_of_unchanging hh hp hwait n).runs.trans (congrArg _ (took_of_silent hsrc hlater n))

theorem run_of_discards_over_and_over {s : State} {a : SrcAnswer} {as : List SrcAnswer} (n : Nat) (hp : s.phase = .hunt)
    (hh : s.host = []) (hsrc : s.src = []) (hlater : s.srcLater = .again a as)
    (hbytes : ∀ x ∈ a :: as, ∃ b, x = .byte b ∧ b ≠ 0x54#8) : core.run n s = .next (s.took n) := by
  have hdiscard (k : Nat) : AnswerStep Config.current (s.took k).answerNow s.toCoreState s.toCoreState := by
    obtain ⟨b, hx, hb⟩ := hbytes _ (now_after_again_mem a as k)
    rw [answerNow_took_of_unlisted hsrc, hlater, hx]
    exact .discard hp hb
  exact (realises_of_unchanging hh (by simp [hp]) hdiscard n).runs

section StepRelation

variable {c : Config} {a : CoreState}

/-- A busy core whose answer changes nothing is unchanged by any step without reset: a READ leaves it alone, a START it
ignores (R212). -/
theorem stepOn_of_unchanging {inp : Inputs} (hp : a.phase ≠ .idle) (hr : inp.host.reset = false)
    (h : AnswerStep c inp.answer a a) : ∃ r, stepOn c inp a = .next r ∧ r.core = a := by
  by_cases hread : ∃ idx, inp.host.req = .read idx
  · obtain ⟨idx, hq⟩ := hread
    exact (coreStep_iff.mp (.read hr hq)).2
  · exact (coreStep_iff.mp (.answer hr (not_exists.mp hread) hp ((takeAnswer_next hp).mpr h))).2

theorem runOn_of_unchanging {env : Nat → Inputs} (hp : a.phase ≠ .idle)
    (h : ∀ k, (env k).host.reset = false ∧ AnswerStep c (env k).answer a a) (n : Nat) : runOn c env n a = .next a := by
  induction n with
  | zero => rfl
  | succ n ih =>
    obtain ⟨hreset, hanswer⟩ := h n
    obtain ⟨r, hr, hcore⟩ := stepOn_of_unchanging hp hreset hanswer
    exact runOn_succ_next.mpr ⟨a, r, ih, hr, hcore⟩

end StepRelation

/-- Settles O50: in each environment every answer is one that WAIT or DISCARD takes. -/
theorem noTimeoutEndsAWait : Obligations.NoTimeoutEndsAWait := by
  unfold Obligations.NoTimeoutEndsAWait
  refine ⟨fun s n => run_of_silent n, fun s bytes hp hh hsrc hbytes => ?_, fun s a as n hp hh hsrc hlater hbytes => ?_,
    fun c env a n hp henv => ?_, fun c env a n hp henv => ?_⟩
  · have hfed : s = ({ s with src := [] } : State).fed bytes := by rw [State.fed, List.append_nil, ← hsrc]
    have hrun := run_fed_of_discards (s := { s with src := [] }) hp hh hbytes
    rwa [← hfed] at hrun
  · exact ⟨_, run_of_discards_over_and_over n hp hh hsrc hlater hbytes, by simp [SameCore]⟩
  · refine runOn_of_unchanging hp (fun k => ?_) n
    obtain ⟨hr, hx⟩ := henv k
    exact ⟨hr, hx ▸ .wait⟩
  · refine runOn_of_unchanging (by simp [hp]) (fun k => ?_) n
    obtain ⟨hr, b, hx, hb⟩ := henv k
    exact ⟨hr, hx ▸ .discard hp hb⟩

/-! ### The micro-operations (R131 to R134) -/

/-- Settles O14: without an event the word selects WAIT, and WAIT keeps what `consume` keeps of the core. -/
theorem waitChangesNothing : Obligations.WaitChangesNothing := by
  unfold Obligations.WaitChangesNothing
  refine fun s => ⟨execWait_next.mpr rfl, fun hquiet hev => ⟨consume s, ?_, by simp [SameCore]⟩⟩
  have hdec : decode (fetchWord s) = .ok .wait := by
    rw [fetchWord_of_quietInput hquiet, hev, decode_dispatchWord _ fun _ => rfl, selects_noAnswer]
  exact (step_of_decode hdec).trans (execWait_next.mpr rfl)

/-- Settles O15: DISCARD answers the state it meets. -/
theorem discardChangesNothing : Obligations.DiscardChangesNothing := by
  unfold Obligations.DiscardChangesNothing
  exact fun s b hp hb => execDiscard_next.mpr ⟨hp, hb, rfl⟩

/-- Settles O16: SYNC's next state differs in PHASE and BIDX alone. -/
theorem syncEntersBodyAtOffsetZero : Obligations.SyncEntersBodyAtOffsetZero := by
  unfold Obligations.SyncEntersBodyAtOffsetZero
  exact fun s hp => ⟨_, execSync_next.mpr ⟨hp, rfl⟩, rfl, rfl, rfl, rfl, rfl, rfl, fun _ => rfl, fun _ => rfl,
    rfl, rfl, rfl, rfl, rfl⟩

/-- Settles O17: ABORT's next state is the error entry of R244. -/
theorem abortRaisesIoError : Obligations.AbortRaisesIoError := by
  unfold Obligations.AbortRaisesIoError
  exact fun s hp => ⟨_, execAbort_next.mpr ⟨hp, rfl⟩, raise_err _ _, raise_phase _ _, raise_bidx _ _, raise_pkt _ _,
    raise_count _ _, raise_scanValid _ _, fun _ => rfl, fun _ => rfl, rfl, rfl, rfl, rfl, rfl⟩

end Sys2Proof.Machine
end

section
/-! SUPPORT. DECODEPACKET against `decodePacket` (R150, R138): what a core in BODY comes to with the answers it has
taken, one answer after another. -/

namespace Sys2Proof.Machine

/-! ### The contract on a stream that goes on -/

section Stream

variable {c : Config} {l l' : List SrcAnswer} {b : Byte} {n : Nat}

theorem bytesBeforeFail_append (h : .fail ∉ l) : bytesBeforeFail (l ++ l') = bytesBeforeFail l ++ bytesBeforeFail l' := by
  induction l with
  | nil => rfl
  | cons x l ih =>
    rw [List.mem_cons, not_or] at h
    cases x with
    | noAnswer => exact ih h.2
    | byte b => exact congrArg (b :: ·) (ih h.2)
    | fail => exact absurd rfl h.1

/-- Without a `Fail` the bytes are the events. -/
theorem bytesBeforeFail_length_eq (h : .fail ∉ l) : (bytesBeforeFail l).length = l.countP SrcAnswer.isEvent := by
  induction l with
  | nil => rfl
  | cons x l ih =>
    rw [List.mem_cons, not_or] at h
    cases x with
    | noAnswer => exact (ih h.2).trans (List.countP_cons_of_neg (by decide)).symm
    | byte b => exact (congrArg (· + 1) (ih h.2)).trans (List.countP_cons_of_pos rfl).symm
    | fail => exact absurd rfl h.1

/-- Put bytes in front of those read. -/
def BodyRead.prepend (bs : List Byte) : BodyRead → BodyRead
  | .full bytes rest => .full (bs ++ bytes) rest
  | .ioError rest => .ioError rest
  | .waiting => .waiting

theorem BodyRead.prepend_nil (r : BodyRead) : r.prepend [] = r := by cases r <;> rfl

theorem BodyRead.push_prepend (b : Byte) (bs : List Byte) (r : BodyRead) : (r.prepend bs).push b = r.prepend (b :: bs) := by
  cases r <;> rfl

theorem BodyRead.push_waiting_iff {r : BodyRead} : r.push b = .waiting ↔ r = .waiting := by
  cases r <;> simp [BodyRead.push]

/-- Reading goes on with the stream as long as bytes are missing. -/
theorem readBytes_append (h : .fail ∉ l) (k : Nat) :
    readBytes (l ++ l') ((bytesBeforeFail l).length + (k + 1)) = (readBytes l' (k + 1)).prepend (bytesBeforeFail l) := by
  induction l with
  | nil => rw [bytesBeforeFail, List.length_nil, Nat.zero_add, BodyRead.prepend_nil, List.nil_append]
  | cons x l ih =>
    rw [List.mem_cons, not_or] at h
    cases x with
    | noAnswer => exact ih h.2
    | byte b =>
      rw [bytesBeforeFail, List.length_cons, Nat.add_right_comm, ← BodyRead.push_prepend, ← ih h.2]
      rfl
    | fail => exact absurd rfl h.1

theorem readBytes_waiting_iff : readBytes l n = .waiting ↔ .fail ∉ l ∧ (bytesBeforeFail l).length < n := by
  induction l generalizing n with
  | nil => cases n <;> simp [readBytes, bytesBeforeFail]
  | cons x l ih =>
    cases n with
    | zero => cases x <;> simp [readBytes]
    | succ n => cases x <;> simp [readBytes, bytesBeforeFail, BodyRead.push_waiting_iff, ih]

theorem decodePacket_waiting_iff : decodePacket c l = .waiting ↔ .fail ∉ l ∧ (bytesBeforeFail l).length < 46 := by
  have h : decodePacket c l = .waiting ↔ readBytes l 46 = .waiting := by
    unfold decodePacket
    rw [Config.bodyBytes_eq]
    cases readBytes l 46 with
    | full bytes rest => dsimp only; split <;> simp
    | ioError rest => simp
    | waiting => simp
  rw [h, readBytes_waiting_iff]

/-- The stream without events at its end holds no result either. -/
theorem decodePacket_waiting_append (h : decodePacket c l = .waiting) (hl' : ∀ x ∈ l', x.isEvent = false) :
    decodePacket c (l ++ l') = .waiting := by
  rw [decodePacket_waiting_iff] at h ⊢
  obtain ⟨hfail, hlen⟩ := h
  have hfail' : .fail ∉ l' := fun hx => Bool.noConfusion (hl' _ hx)
  have hnone : l'.countP SrcAnswer.isEvent = 0 := List.countP_eq_zero.mpr fun x hx => by simp [hl' x hx]
  rw [bytesBeforeFail_append hfail, List.length_append, bytesBeforeFail_length_eq hfail', hnone]
  exact ⟨by simp [hfail, hfail'], hlen⟩

/-- Fewer answers hold no result where more of them hold none. -/
theorem decodePacket_waiting_of_append (h : decodePacket c (l ++ l') = .waiting) : decodePacket c l = .waiting := by
  rw [decodePacket_waiting_iff, List.mem_append, not_or] at h
  obtain ⟨⟨hfail, -⟩, hlen⟩ := h
  rw [bytesBeforeFail_append hfail, List.length_append] at hlen
  exact decodePacket_waiting_iff.mpr ⟨hfail, by omega⟩

theorem decodePacket_concat_fail (h : decodePacket c l = .waiting) : decodePacket c (l ++ [.fail]) = .ioError [] := by
  obtain ⟨hfail, hlen⟩ := decodePacket_waiting_iff.mp h
  obtain ⟨k, hk⟩ := Nat.exists_eq_add_of_lt hlen
  unfold decodePacket
  rw [Config.bodyBytes_eq, hk, Nat.add_assoc, readBytes_append hfail]
  rfl

/-- The last byte of a body decides on its length byte (R150 steps 2 and 3). -/
theorem decodePacket_concat_last (h : decodePacket c l = .waiting) (hlen : (bytesBeforeFail l).length = 45) :
    decodePacket c (l ++ [.byte b]) =
      if (bytesBeforeFail l ++ [b]).getD 0 0 ≠ 44#8 then .invalidLength []
      else .ok (points c fun k => (bytesBeforeFail l ++ [b]).getD k 0) [] := by
  have hread := readBytes_append (l' := [.byte b]) (decodePacket_waiting_iff.mp h).1 0
  rw [hlen] at hread
  unfold decodePacket
  rw [Config.bodyBytes_eq, hread]
  rfl

theorem decodePacket_ok_length {pts : List Point} {rest : List SrcAnswer} (h : decodePacket c l = .ok pts rest) :
    pts.length = 12 := by
  unfold decodePacket at h
  split at h
  · split at h
    · cases h
    · cases h
      exact points_length c _
  · cases h
  · cases h

end Stream

/-- A result comes with the last of the answers. -/
def DecodeResult.atEnd : DecodeResult → Prop
  | .ok _ rest => rest = []
  | .ioError rest => rest = []
  | .invalidLength rest => rest = []
  | .waiting => True

/-! ### One answer in BODY -/

/-- What a core that has begun a body comes to with answers of which `decodePacket` says the last argument, and whose `k`
bytes left BODY as `m`. -/
def CoreState.decoded (a : CoreState) (m : Memory) (k : Nat) : DecodeResult → CoreState
  | .ok pts _ => countPacket { a with body := m, scan := a.scan.writeFrom a.count.toNat pts }
  | .ioError _ => raise .ioError { a with body := m }
  | .invalidLength _ => raise .invalidLength { a with body := m }
  | .waiting => { a with body := m, bidx := BitVec.ofNat 6 k }

theorem BytesStored.read_eq {m m' : Memory} {bs : List Byte} (h : BytesStored m 0 bs m') (k : Nat) :
    m'.read k = bs[k]?.getD (m.read k) := by
  by_cases hk : k < bs.length
  · rw [List.getElem?_eq_getElem hk, ← h.read_stored k hk, Nat.zero_add]
    rfl
  · rw [List.getElem?_eq_none (Nat.le_of_not_lt hk), h.read_other k (.inr (by omega))]
    rfl

theorem decoded_body (a : CoreState) (m : Memory) (k : Nat) (r : DecodeResult) : (a.decoded m k r).body = m := by
  cases r with
  | ok pts rest => exact countPacket_body _
  | ioError rest => rfl
  | invalidLength rest => rfl
  | waiting => rfl

theorem decoded_phase_iff {a : CoreState} (hp : a.phase = .body) (m : Memory) (k : Nat) (r : DecodeResult) :
    (a.decoded m k r).phase = .body ↔ r = .waiting := by
  cases r with
  | ok pts rest => simp only [CoreState.decoded, countPacket_phase]; split <;> simp
  | ioError rest => simp [CoreState.decoded]
  | invalidLength rest => simp [CoreState.decoded]
  | waiting => simp [CoreState.decoded, hp]

/-- The core `b` is what `a`, which has begun a body, comes to with the answers `l`: their bytes are loaded, and the rest
is as `decodePacket` says. -/
def DecodesTo (c : Config) (a : CoreState) (l : List SrcAnswer) (b : CoreState) : Prop :=
  ∃ m, BytesStored a.body 0 (bytesBeforeFail l) m ∧ b = a.decoded m (bytesBeforeFail l).length (decodePacket c l)

section OneAnswer

variable {c : Config} {a b : CoreState} {l : List SrcAnswer} {m : Memory} {bs : List Byte} {k : Nat} {v : Byte}

theorem DecodesTo.of_eq {r : DecodeResult} (hbytes : bytesBeforeFail l = bs) (hlen : bs.length = k)
    (hres : decodePacket c l = r) (hm : BytesStored a.body 0 bs m) : DecodesTo c a l (a.decoded m k r) := by
  subst hbytes hlen hres
  exact ⟨m, hm, rfl⟩

theorem DecodesTo.nil (ha : a.body.wf = true) (h0 : a.bidx = 0#6) : DecodesTo c a [] a := by
  have h : a.decoded a.body 0 .waiting = a := by rw [CoreState.decoded, ← h0]
  exact h ▸ .of_eq rfl rfl rfl (.nil 0 ha)

theorem DecodesTo.phase_iff (h : DecodesTo c a l b) (hp : a.phase = .body) :
    b.phase = .body ↔ decodePacket c l = .waiting := by
  obtain ⟨m, -, rfl⟩ := h
  exact decoded_phase_iff hp _ _ _

/-- A byte before the last is loaded. -/
theorem answerStep_load_decoded (hp : a.phase = .body) (hk : k < 45) :
    AnswerStep c (.byte v) (a.decoded m k .waiting) (a.decoded (m.write k v) (k + 1) .waiting) := by
  have hidx : (BitVec.ofNat 6 k).toNat = k := Nat.mod_eq_of_lt (by omega)
  have hload : AnswerStep c (.byte v) (a.decoded m k .waiting) _ :=
    .load hp (fun h : BitVec.ofNat 6 k = 45#6 => by bv_omega) (by rw [CoreState.decoded, hidx]; omega)
  rwa [CoreState.decoded, hidx, ← BitVec.ofNat_add] at hload

/-- The last byte completes the body, and its length byte says whether the Points of these bytes are committed. -/
theorem answerStep_last_decoded (hm : BytesStored a.body 0 bs m) (hlen : bs.length = 45) (hp : a.phase = .body)
    (hcount : a.count.toNat + 12 ≤ 456) :
    AnswerStep c (.byte v) (a.decoded m bs.length .waiting) (a.decoded (m.write bs.length v) (bs.length + 1)
      (if (bs ++ [v]).getD 0 0 ≠ 44#8 then .invalidLength [] else .ok (points c fun k => (bs ++ [v]).getD k 0) [])) := by
  have hall := hm.concat v (by omega)
  rw [Nat.zero_add] at hall
  rw [hlen] at hall ⊢
  have hread : (m.write 45 v).read = fun k => (bs ++ [v]).getD k 0 := hall.read_complete (by simp [hlen])
  have hlenByte : m.read 0 = (bs ++ [v]).getD 0 0 := by
    rw [← Memory.read_write_ne m (show 0 ≠ 45 by decide) v, hread]
  rw [← hlenByte, ← hread]
  by_cases h44 : m.read 0 = 44#8
  · rw [if_neg (not_not.mpr h44)]
    exact .commit (a := a.decoded m 45 .waiting) hp rfl (lenOk_iff.mpr h44) hcount
  · rw [if_pos h44]
    exact .reject (a := a.decoded m 45 .waiting) hp rfl (Bool.eq_false_of_not_eq_true (mt lenOk_iff.mp h44))

/-- As long as there is no result, the next answer is taken and leaves the core as the contract says. -/
theorem DecodesTo.answer (h : DecodesTo c a l b) (hwait : decodePacket c l = .waiting) (hp : a.phase = .body)
    (hcount : a.count.toNat + 12 ≤ 456) (x : SrcAnswer) :
    ∃ b', AnswerStep c x b b' ∧ DecodesTo c a (l ++ [x]) b' ∧ (decodePacket c (l ++ [x])).atEnd := by
  obtain ⟨m, hm, rfl⟩ := h
  obtain ⟨hfail, hlt⟩ := decodePacket_waiting_iff.mp hwait
  rw [hwait]
  cases x with
  | noAnswer =>
    have hres := decodePacket_waiting_append (l' := [.noAnswer]) hwait (by simp [SrcAnswer.isEvent])
    have hbytes : bytesBeforeFail (l ++ [.noAnswer]) = bytesBeforeFail l :=
      (bytesBeforeFail_append hfail).trans (List.append_nil _)
    exact ⟨_, .wait, .of_eq hbytes rfl hres hm, by rw [hres]; trivial⟩
  | fail =>
    have hres := decodePacket_concat_fail hwait
    have hbytes : bytesBeforeFail (l ++ [.fail]) = bytesBeforeFail l :=
      (bytesBeforeFail_append hfail).trans (List.append_nil _)
    exact ⟨_, .abort, .of_eq hbytes rfl hres hm, by rw [hres]; rfl⟩
  | byte v =>
    have hbytes : bytesBeforeFail (l ++ [.byte v]) = bytesBeforeFail l ++ [v] := bytesBeforeFail_append hfail
    have hlen : (bytesBeforeFail l ++ [v]).length = (bytesBeforeFail l).length + 1 := List.length_append
    have hstored := hm.concat v (by omega)
    rw [Nat.zero_add] at hstored
    by_cases hlast : (bytesBeforeFail l).length = 45
    · have hres := decodePacket_concat_last (b := v) hwait hlast
      refine ⟨_, answerStep_last_decoded hm hlast hp hcount, .of_eq hbytes hlen hres hstored, ?_⟩
      rw [hres]
      split <;> rfl
    · have hres : decodePacket c (l ++ [.byte v]) = .waiting :=
        decodePacket_waiting_iff.mpr ⟨by simp [hfail], by rw [hbytes]; omega⟩
      exact ⟨_, answerStep_load_decoded hp (by omega), .of_eq hbytes hlen hres hstored, by rw [hres]; trivial⟩

end OneAnswer

/-! ### All the coming answers -/

theorem answers_add_took (s : State) (m n : Nat) : s.answers (m + n) = s.answers m ++ (s.took m).answers n := by
  induction m generalizing s with
  | zero => simp
  | succ m ih =>
    rw [Nat.succ_add, s.answers_succ, s.answers_succ, ih, took_took, Nat.add_comm 1 m, List.cons_append]

theorem mem_answers {s : State} {n : Nat} {x : SrcAnswer} (h : x ∈ s.answers n) : ∃ k, x = (s.took k).answerNow := by
  induction n generalizing s with
  | zero => simp at h
  | succ n ih =>
    rw [s.answers_succ, List.mem_cons] at h
    rcases h with rfl | h
    · exact ⟨0, by rw [took_zero]⟩
    · obtain ⟨k, rfl⟩ := ih h
      exact ⟨1 + k, by rw [took_took]⟩

/-- A body under way that goes on with `m` answers at most takes those up to the result, or all `m` where they hold
none. -/
theorem runWhile_body {c : Config} {a : CoreState} (hp : a.phase = .body) (hcount : a.count.toNat + 12 ≤ 456) (m : Nat)
    {s : State} {l : List SrcAnswer} (h : DecodesTo c a l s.toCoreState) (hwait : decodePacket c l = .waiting) :
    ∃ n b, runWhile c .body m s = .next { s.took n with toCoreState := b } ∧ DecodesTo c a (l ++ s.answers n) b ∧
      (decodePacket c (l ++ s.answers n)).atEnd ∧ (decodePacket c (l ++ s.answers n) = .waiting → n = m) := by
  induction m generalizing s l with
  | zero => exact ⟨0, s.toCoreState, by simp, by simpa using h, by simp [hwait, DecodeResult.atEnd], fun _ => rfl⟩
  | succ m ih =>
    have hbusy : s.phase ≠ .idle := by simp [(h.phase_iff hp).mpr hwait]
    obtain ⟨b, hstep, hto, hend⟩ := h.answer hwait hp hcount s.answerNow
    rw [runWhile_of_answer hbusy hstep]
    by_cases hres : decodePacket c (l ++ [s.answerNow]) = .waiting
    · have hsplit (n : Nat) : l ++ s.answers (1 + n) = l ++ [s.answerNow] ++ (s.answered b).answers n := by
        rw [Nat.add_comm, s.answers_succ, answered_answers, List.append_assoc, List.singleton_append]
      obtain ⟨n, b', hrun, hto', hend', hall⟩ := ih (s := s.answered b) hto hres
      rw [if_pos ((hto.phase_iff hp).mpr hres), hrun]
      refine ⟨1 + n, b', ?_, ?_⟩
      · rw [← took_took]
        rfl
      · rw [hsplit]
        exact ⟨hto', hend', fun h => by rw [hall h, Nat.add_comm]⟩
    · have hone : s.answers 1 = [s.answerNow] := by rw [s.answers_succ 0, State.answers_zero]
      rw [if_neg (mt (hto.phase_iff hp).mp hres)]
      refine ⟨1, b, rfl, ?_⟩
      rw [hone]
      exact ⟨hto, hend, fun h => absurd h hres⟩

/-- A result among the coming answers, however late, comes with the listed ones or within reach. -/
theorem decodePacket_waits_beyond_reach {c : Config} {s : State}
    (h : decodePacket c (s.answers (s.src.length + s.srcLater.reach)) = .waiting) (m : Nat) :
    decodePacket c (s.answers m) = .waiting := by
  rcases Nat.le_total m (s.src.length + s.srcLater.reach) with hle | hle
  · obtain ⟨j, hj⟩ := Nat.exists_eq_add_of_le hle
    rw [hj, answers_add_took] at h
    exact decodePacket_waiting_of_append h
  · obtain ⟨j, rfl⟩ := Nat.exists_eq_add_of_le hle
    rw [answers_add_took]
    refine decodePacket_waiting_append h fun x hx => ?_
    obtain ⟨k, rfl⟩ := mem_answers hx
    rw [answerNow_past_listed ⟨rfl, rfl, rfl, rfl, rfl⟩, Bool.eq_false_iff]
    intro hevent
    have h46 := events_within_reach _ _ (Nat.le_add_right _ k) hevent
    obtain ⟨hfail, hlen⟩ := decodePacket_waiting_iff.mp h
    rw [bytesBeforeFail_length_eq hfail, answers_past_listed, List.countP_append] at hlen
    omega

/-- Settles O31: DECODEPACKET begins a body that has taken no answer yet and goes on as long as the reach; where no result
comes within reach, none ever comes. -/
theorem decodepacketFollowsItsContract : Obligations.DecodepacketFollowsItsContract := by
  unfold Obligations.DecodepacketFollowsItsContract
  intro s hI hp h0
  obtain ⟨herr, hvalid, hpkt⟩ := hI.running (by simp [hp])
  have hcount : s.count.toNat + 12 ≤ 456 := by
    have := hI.count_eq
    omega
  obtain ⟨n, b, hrun, hto, hend, hall⟩ := runWhile_body hp hcount (s.src.length + s.srcLater.reach)
    (c := Config.current) (.nil hI.body_wf h0) rfl
  rw [List.nil_append] at hto hend hall
  obtain ⟨m, hm, rfl⟩ := hto
  refine ⟨_, n, (if_pos hp).trans hrun, rfl, rfl, rfl, rfl, rfl, fun k hk => ?_, ?_⟩
  · exact (congrArg (Memory.read · k) (decoded_body _ _ _ _)).trans (hm.read_eq k)
  · cases hres : decodePacket Config.current (s.answers n) with
    | ok pts rest =>
      rw [hres] at hend
      have hpts := decodePacket_ok_length hres
      have h38 : s.pkt + 1#6 = 38#6 ↔ s.pkt.toNat + 1 = 38 := (lastPacket_iff hpkt).trans (by omega)
      refine ⟨hend, hpts, fun i hi => ?_, fun k hk => ?_, ?_, ?_, (countPacket_err _).trans herr, countPacket_bidx _,
        ?_, ?_⟩
      · simp only [CoreState.decoded, countPacket_scan]
        rw [ScanMem.read_writeFrom hI.scan_wf _ _ (by simpa [hpts] using hcount) i (by omega), List.getElem?_eq_getElem]
      · simp only [CoreState.decoded, countPacket_scan]
        rcases hk with hk | hk
        · exact ScanMem.read_writeFrom_below _ _ hk
        · exact ScanMem.read_writeFrom_above _ _ (by omega)
      · simp only [CoreState.decoded, countPacket_count]
        bv_omega
      · simp only [CoreState.decoded, countPacket_pkt]
        exact pkt_succ_toNat hpkt
      · simp only [CoreState.decoded, countPacket_phase, h38]
      · simp [CoreState.decoded, h38, hvalid]
    | ioError rest =>
      rw [hres] at hend
      exact ⟨hend, rfl, rfl, rfl, rfl, rfl, hvalid, fun _ => rfl⟩
    | invalidLength rest =>
      rw [hres] at hend
      exact ⟨hend, rfl, rfl, rfl, rfl, rfl, hvalid, fun _ => rfl⟩
    | waiting =>
      obtain rfl := hall hres
      have hlen := (decodePacket_waiting_iff.mp hres).2
      exact ⟨Nat.le_add_right _ _, decodePacket_waits_beyond_reach hres, herr, hp, Nat.mod_eq_of_lt (by omega), rfl,
        rfl, hvalid, fun _ => rfl⟩

end Sys2Proof.Machine
end

section
/-! SUPPORT. The Packet Decoder's micro-operations (R151, R154), and the bytes a Point is made of (R95, R160). -/

namespace Sys2Proof.Machine

/-! ### The micro-operations (R151, R154) -/

/-- Settles O18: LOAD's next state differs in the byte at BIDX and in BIDX alone. -/
theorem loadStoresItsByteAndAdvances : Obligations.LoadStoresItsByteAndAdvances := by
  unfold Obligations.LoadStoresItsByteAndAdvances
  intro s b hwf hp hlt
  have hlast : s.bidx ≠ 45#6 := by bv_omega
  have hnext : (s.bidx + 1#6).toNat = s.bidx.toNat + 1 := by bv_omega
  exact ⟨_, execLoad_next.mpr ⟨hp, hlast, by omega, rfl⟩, Memory.read_write_same hwf _ b,
    fun k hk => Memory.read_write_ne _ hk b, hnext, rfl, rfl, rfl, rfl, rfl, fun _ => rfl, rfl, rfl, rfl, rfl, rfl⟩

/-- Settles O19: REJECT's next state is the error entry of R244 with the last byte stored. -/
theorem rejectRaisesInvalidLength : Obligations.RejectRaisesInvalidLength := by
  unfold Obligations.RejectRaisesInvalidLength
  intro s b hwf hp hlast h44
  have hlen : s.lenOk = false := Bool.eq_false_of_not_eq_true (mt lenOk_iff.mp h44)
  exact ⟨_, execReject_next.mpr ⟨atLastByte_iff.mpr ⟨hp, hlast⟩, hlen, rfl⟩, Memory.read_write_same hwf 45 b,
    fun k hk => Memory.read_write_ne _ hk b, raise_err _ _, raise_phase _ _, raise_bidx _ _, raise_pkt _ _,
    raise_count _ _, raise_scanValid _ _, fun _ => rfl, rfl, rfl, rfl, rfl, rfl⟩

/-! ### The bytes the Points are made of (R95, R160) -/

/-- A Point is a function of the body bytes 3 to 42. -/
theorem pointAt_congr (c : Config) {get get' : Nat → Byte} (h : ∀ k, 3 ≤ k → k ≤ 42 → get k = get' k) {i : Nat}
    (hi : i < 12) : pointAt c get i = pointAt c get' i := by
  have h16 (k : Nat) (hlow : 3 ≤ k) (hhigh : k < 42) : get16 get k = get16 get' k :=
    congrArg₂ le16 (h k hlow (by omega)) (h (k + 1) (by omega) (by omega))
  have ha0 : fieldA0 get = fieldA0 get' := h16 3 (by decide) (by decide)
  have ha1 : fieldA1 get = fieldA1 get' := h16 41 (by decide) (by decide)
  have hdistance : fieldDistance get i = fieldDistance get' i := h16 (5 + 3 * i) (by omega) (by omega)
  have hintensity : fieldIntensity get i = fieldIntensity get' i := h (5 + 3 * i + 2) (by omega) (by omega)
  rw [pointAt, pointAt, ha0, ha1, hdistance, hintensity]

/-- The Points a COMMIT leaves in SCAN are those of the body before it: byte 45 is part of none. -/
theorem read_scan_of_commit {s t : State} {b : Byte} (hI : Invariant s) (h : exec (.commit b) s = .next t) {i : Nat}
    (hi : i < 12) : t.scan.read (s.count.toNat + i) = pointAt Config.current s.body.read i := by
  obtain ⟨-, -, hcount, rfl⟩ := execCommit_next.mp h
  rw [countPacket_scan, ScanMem.read_writeFrom hI.scan_wf _ _ (by simpa using hcount) i (by simpa using hi),
    points_getElem]
  exact pointAt_congr _ (fun k _ hk => Memory.read_write_ne _ (by omega) b) hi

/-- Settles O47: the Points written are those of the body before the COMMIT, a function of bytes 3 to 42. -/
theorem pointsDependOnlyOnAnglesAndSamples : Obligations.PointsDependOnlyOnAnglesAndSamples := by
  unfold Obligations.PointsDependOnlyOnAnglesAndSamples
  intro s₁ s₂ t₁ t₂ b₁ b₂ hI₁ hI₂ hbytes h₁ h₂ i hi
  rw [read_scan_of_commit hI₁ h₁ hi, read_scan_of_commit hI₂ h₂ hi]
  exact pointAt_congr _ hbytes hi

end Sys2Proof.Machine
end

section
/-! SUPPORT. Where the configuration enters a step: COMMIT, and there the angles of the Points alone (R195). -/

namespace Sys2Proof.Machine

/-- The cores agree in every element but the angles of SCAN. -/
structure SameButAngles (a b : CoreState) : Prop where
  phase     : b.phase = a.phase
  bidx      : b.bidx = a.bidx
  pkt       : b.pkt = a.pkt
  count     : b.count = a.count
  err       : b.err = a.err
  scanValid : b.scanValid = a.scanValid
  body      : b.body = a.body
  scan      : ∀ k, (b.scan.read k).distance = (a.scan.read k).distance ∧
    (b.scan.read k).intensity = (a.scan.read k).intensity

theorem SameButAngles.refl (a : CoreState) : SameButAngles a a :=
  ⟨rfl, rfl, rfl, rfl, rfl, rfl, rfl, fun _ => ⟨rfl, rfl⟩⟩

/-- The Points of one body in two configurations, written to one SCAN, differ in their angles only. -/
theorem read_writeFrom_points_but_angle (c₁ c₂ : Config) (get : Nat → Byte) {m : ScanMem} (hm : m.wf = true) {n : Nat}
    (hn : n + 12 ≤ 456) (k : Nat) :
    ((m.writeFrom n (points c₂ get)).read k).distance = ((m.writeFrom n (points c₁ get)).read k).distance ∧
      ((m.writeFrom n (points c₂ get)).read k).intensity = ((m.writeFrom n (points c₁ get)).read k).intensity := by
  rcases Nat.lt_or_ge k n with hbelow | hge
  · simp only [ScanMem.read_writeFrom_below m _ hbelow, and_self]
  · obtain ⟨i, rfl⟩ := Nat.exists_eq_add_of_le hge
    rcases Nat.lt_or_ge i 12 with hi | habove
    · have hread (c : Config) : (m.writeFrom n (points c get)).read (n + i) = pointAt c get i := by
        rw [ScanMem.read_writeFrom hm n _ (by simpa using hn) i (by simpa using hi), points_getElem]
      simp only [hread, pointAt, and_self]
    · have hread (c : Config) : (m.writeFrom n (points c get)).read (n + i) = m.read (n + i) :=
        ScanMem.read_writeFrom_above m _ (by simpa using habove)
      simp only [hread, and_self]

theorem SameButAngles.commit {c₁ c₂ : Config} {b : Byte} {a t : CoreState} (hwf : a.scan.wf = true)
    (h : coreCommit c₁ b a = .next t) : ∃ u, coreCommit c₂ b a = .next u ∧ SameButAngles t u := by
  obtain ⟨hlast, hlen, hcount, rfl⟩ := coreCommit_next.mp h
  refine ⟨_, coreCommit_next.mpr ⟨hlast, hlen, hcount, rfl⟩, ?_⟩
  constructor
  case scan => simpa only [countPacket_scan] using read_writeFrom_points_but_angle c₁ c₂ _ hwf hcount
  all_goals simp only [countPacket_phase, countPacket_bidx, countPacket_pkt, countPacket_count, countPacket_err,
    countPacket_scanValid, countPacket_body]

/-- COMMIT is the one operation of a step in which the configuration is used. -/
theorem coreOp_eq_or_commit (c₁ c₂ : Config) (draw : Nat) (i : Instr) (a : CoreState) :
    coreOp c₂ draw i a = coreOp c₁ draw i a ∨ ∃ b, i = .commit b := by
  cases i with
  | commit b => exact .inr ⟨b, rfl⟩
  | _ => exact .inl rfl

/-- Settles O48: an operation other than COMMIT takes no configuration, and COMMIT writes Points that differ in their
angles only. -/
theorem angleFunctionReachesOnlyTheAngles : Obligations.AngleFunctionReachesOnlyTheAngles := by
  unfold Obligations.AngleFunctionReachesOnlyTheAngles
  intro c₁ c₂ inp a r₁ hwf hstep
  obtain ⟨i, hdecode, hop⟩ := stepOn_next.mp hstep
  suffices h : ∃ r₂, coreOp c₂ inp.draw i a = .next r₂ ∧ r₂.answer = r₁.answer ∧ r₂.draws = r₁.draws ∧
      SameButAngles r₁.core r₂.core by
    obtain ⟨r₂, hop₂, hanswer, hdraws, hcore⟩ := h
    exact ⟨r₂, stepOn_next.mpr ⟨i, hdecode, hop₂⟩, hanswer, hdraws, hcore.phase, hcore.bidx, hcore.pkt, hcore.count,
      hcore.err, hcore.scanValid, hcore.body, hcore.scan⟩
  rcases coreOp_eq_or_commit c₁ c₂ inp.draw i a with hsame | ⟨b, rfl⟩
  · exact ⟨r₁, hsame.trans hop, rfl, rfl, .refl _⟩
  · obtain ⟨t, ht, rfl⟩ := plainStep_next.mp hop
    obtain ⟨u, hu, htu⟩ := SameButAngles.commit (c₂ := c₂) hwf ht
    exact ⟨_, plainStep_next.mpr ⟨u, hu, rfl⟩, rfl, rfl, htu⟩

end Sys2Proof.Machine
end

section
/-! SUPPORT. Rounding to a format (R180): a value of `FMT` as a rational number, and what `roundTo` comes to. -/

namespace Sys2Proof

theorem Fmt.precision_pos (f : Fmt) : 0 < f.precision := by cases f <;> decide

namespace Machine

/-! ### The value of a sign, mantissa and exponent -/

/-- The factor a sign bit stands for. -/
def signOf (neg : Bool) : ℚ := if neg then -1 else 1

/-- The number that a value of `FMT` is. -/
def Fp.value (x : Fp) : ℚ := signOf x.neg * (x.mant * 2 ^ x.exp)

@[simp] theorem signOf_false : signOf false = 1 := rfl
@[simp] theorem signOf_true : signOf true = -1 := rfl

theorem signOf_not (a : Bool) : signOf (!a) = -signOf a := by cases a <;> simp

theorem signOf_bne (a b : Bool) : signOf (a != b) = signOf a * signOf b := by cases a <;> cases b <;> simp

@[simp] theorem abs_signOf (a : Bool) : |signOf a| = 1 := by cases a <;> simp

theorem value_of_pos {x : Fp} (h : x.neg = false) : x.value = x.mant * 2 ^ x.exp := by simp [Fp.value, h]

theorem abs_value (x : Fp) : |x.value| = x.mant * 2 ^ x.exp := by
  rw [Fp.value, abs_mul, abs_signOf, one_mul, abs_of_nonneg (by positivity)]

/-! ### Scaling by a power of two -/

/-- Two shifts, one of which is by nothing, are one multiplication by a power of two. -/
theorem shifted_ratio (num den : Nat) (z w : Int) (h : w = -z) :
    ((num * 2 ^ z.toNat : Nat) : ℚ) / (den * 2 ^ w.toNat : Nat) = num / den * 2 ^ z := by
  have hpow : (2 : ℚ) ^ z.toNat / 2 ^ w.toNat = 2 ^ z := by
    rw [← zpow_natCast, ← zpow_natCast, ← zpow_sub₀ two_ne_zero]
    congr 1
    omega
  push_cast
  rw [mul_div_mul_comm, hpow]

/-! ### The leading exponent -/

theorem leadExp_spec {num den : Nat} (hn : 0 < num) (hd : 0 < den) :
    (2 : ℚ) ^ leadExp num den ≤ num / den ∧ (num : ℚ) / den < 2 ^ (leadExp num den + 1) := by
  have hden : (0 : ℚ) < den := by exact_mod_cast hd
  have hlow (n : Nat) (h : 0 < n) : (2 : ℚ) ^ n.log2 ≤ n := by exact_mod_cast Nat.log2_self_le h.ne'
  have hhigh (n : Nat) : (n : ℚ) < 2 ^ (n.log2 + 1) := by exact_mod_cast Nat.lt_log2_self
  have hquot : (2 : ℚ) ^ ((num.log2 : Int) - den.log2 - 1) ≤ num / den ∧
      (num : ℚ) / den < 2 ^ ((num.log2 : Int) - den.log2 + 1) := by
    constructor
    · rw [le_div_iff₀ hden]
      calc (2 : ℚ) ^ ((num.log2 : Int) - den.log2 - 1) * den
          ≤ 2 ^ ((num.log2 : Int) - den.log2 - 1) * 2 ^ (den.log2 + 1) := by gcongr; exact (hhigh den).le
        _ = 2 ^ num.log2 := by
          rw [← zpow_natCast, ← zpow_natCast, ← zpow_add₀ two_ne_zero]; congr 1; push_cast; ring
        _ ≤ num := hlow num hn
    · rw [div_lt_iff₀ hden]
      calc (num : ℚ) < 2 ^ (num.log2 + 1) := hhigh num
        _ = 2 ^ ((num.log2 : Int) - den.log2 + 1) * 2 ^ den.log2 := by
          rw [← zpow_natCast, ← zpow_natCast, ← zpow_add₀ two_ne_zero]; congr 1; push_cast; ring
        _ ≤ 2 ^ ((num.log2 : Int) - den.log2 + 1) * den := by gcongr; exact hlow den hd
  have htest : num * 2 ^ ((den.log2 : Int) - num.log2).toNat < den * 2 ^ ((num.log2 : Int) - den.log2).toNat ↔
      (num : ℚ) / den < 2 ^ ((num.log2 : Int) - den.log2) := by
    have hscale := shifted_ratio num den ((den.log2 : Int) - num.log2) ((num.log2 : Int) - den.log2) (by ring)
    have hpos : (0 : ℚ) < (den * 2 ^ ((num.log2 : Int) - den.log2).toNat : Nat) := by exact_mod_cast by positivity
    rw [← Nat.cast_lt (α := ℚ), ← div_lt_one hpos, hscale, ← neg_sub, zpow_neg, ← div_eq_mul_inv,
      div_lt_one (by positivity)]
  unfold leadExp
  split
  · next h => exact ⟨hquot.1, by simpa using htest.mp h⟩
  · next h => exact ⟨not_lt.mp (mt htest.mpr h), hquot.2⟩

/-! ### The place of the last digit -/

section Place

variable {f : Fmt} {num den : Nat} {e : Int}

theorem minExp_le_placeExp : f.minExp ≤ placeExp f num den e := le_max_right _ _

theorem lt_of_placeExp (hn : 0 < num) (hd : 0 < den) :
    (num : ℚ) / den * 2 ^ e < 2 ^ (placeExp f num den e + f.precision) := by
  have hle : leadExp num den + 1 + e ≤ placeExp f num den e + f.precision := by
    have : e + leadExp num den - ((f.precision : Int) - 1) ≤ placeExp f num den e := le_max_left _ _
    omega
  calc (num : ℚ) / den * 2 ^ e < 2 ^ (leadExp num den + 1) * 2 ^ e := by gcongr; exact (leadExp_spec hn hd).2
    _ = 2 ^ (leadExp num den + 1 + e) := (zpow_add₀ two_ne_zero _ _).symm
    _ ≤ 2 ^ (placeExp f num den e + f.precision) := zpow_le_zpow_right₀ one_le_two hle

theorem placeExp_eq_or_le (hn : 0 < num) (hd : 0 < den) :
    placeExp f num den e = f.minExp ∨ 2 ^ (placeExp f num den e + f.precision - 1) ≤ (num : ℚ) / den * 2 ^ e := by
  rcases max_choice (e + leadExp num den - ((f.precision : Int) - 1)) f.minExp with h | h
  · right
    have hexp : placeExp f num den e + f.precision - 1 = leadExp num den + e := by rw [placeExp, h]; ring
    rw [hexp, zpow_add₀ two_ne_zero]
    gcongr
    exact (leadExp_spec hn hd).1
  · exact .inl h

/-- A number below `2 ^ k` has its last place no higher than a number just below `2 ^ k`. -/
theorem placeExp_le {k : Int} (hn : 0 < num) (hd : 0 < den) (h : (num : ℚ) / den * 2 ^ e < 2 ^ k)
    (hk : f.minExp ≤ k - f.precision) : placeExp f num den e ≤ k - f.precision := by
  rcases placeExp_eq_or_le (f := f) (e := e) hn hd with hmin | hlow
  · rw [hmin]; exact hk
  · have := (zpow_lt_zpow_iff_right₀ one_lt_two).mp (hlow.trans_lt h)
    omega

end Place

/-! ### The nearest integer -/

theorem nearestEven_error (n : Nat) {d : Nat} (hd : 0 < d) : |(nearestEven n d : ℚ) - n / d| ≤ 1 / 2 := by
  have hclose : 2 * (nearestEven n d * d) ≤ 2 * n + d ∧ 2 * n ≤ 2 * (nearestEven n d * d) + d := by
    have hdiv := Nat.div_add_mod' n d
    have hmod := Nat.mod_lt n hd
    unfold nearestEven
    split
    · rw [Nat.add_mul]; omega
    · omega
  have hd' : (0 : ℚ) < d := by exact_mod_cast hd
  have hn : (n : ℚ) = n / d * d := (div_mul_cancel₀ _ hd'.ne').symm
  have h1 : (2 : ℚ) * (nearestEven n d * d) ≤ 2 * n + d := by exact_mod_cast hclose.1
  have h2 : (2 : ℚ) * n ≤ 2 * (nearestEven n d * d) + d := by exact_mod_cast hclose.2
  rw [abs_le]
  constructor <;> nlinarith

/-! ### `roundTo` -/

section Round

variable {f : Fmt} {neg : Bool} {num den : Nat} {e : Int}

@[simp] theorem roundTo_zero : roundTo f neg 0 den e = ⟨neg, 0, 0⟩ := rfl

@[simp] theorem roundTo_neg : (roundTo f neg num den e).neg = neg := by
  unfold roundTo
  dsimp only
  split
  · rfl
  · split <;> rfl

/-- The nearest multiple of the last place's weight; at `2 ^ precision` of them the last place moves up. -/
theorem roundTo_spec (hn : 0 < num) (hd : 0 < den) :
    ∃ m : Nat, |(m : ℚ) - num / den * 2 ^ e / 2 ^ placeExp f num den e| ≤ 1 / 2 ∧
      roundTo f neg num den e =
        if m = 2 ^ f.precision then ⟨neg, 2 ^ (f.precision - 1), placeExp f num den e + 1⟩
        else ⟨neg, m, placeExp f num den e⟩ := by
  refine ⟨nearestEven (num * 2 ^ (e - placeExp f num den e).toNat) (den * 2 ^ (placeExp f num den e - e).toNat), ?_, ?_⟩
  · have h := nearestEven_error (num * 2 ^ (e - placeExp f num den e).toNat)
      (d := den * 2 ^ (placeExp f num den e - e).toNat) (by positivity)
    rwa [shifted_ratio _ _ _ _ (neg_sub _ _).symm, zpow_sub₀ two_ne_zero, ← mul_div_assoc] at h
  · rw [roundTo, if_neg hn.ne']

end Round

end Machine

end Sys2Proof
end

section
/-! SUPPORT. Correct rounding of a rational number: its error, its sign, and the values it keeps. -/

namespace Sys2Proof.Machine

/-- A value of `FMT` that is not subnormal and not zero. -/
structure Fp.Normal (f : Fmt) (x : Fp) : Prop where
  le_mant : 2 ^ (f.precision - 1) ≤ x.mant
  mant_lt : x.mant < 2 ^ f.precision
  le_exp  : f.minExp ≤ x.exp

section Round

variable {f : Fmt} {neg : Bool} {num den : Nat} {e : Int}

theorem two_pow_precision (f : Fmt) : 2 ^ (f.precision - 1) * 2 = 2 ^ f.precision := by
  rw [← pow_succ, Nat.sub_add_cancel f.precision_pos]

/-- A natural number next to one that a natural number bounds has that bound. -/
theorem le_of_near {m n : Nat} {w : ℚ} (h : |(m : ℚ) - w| ≤ 1 / 2) (hw : w ≤ n) : m ≤ n := by
  have : (m : ℚ) < n + 1 := by linarith [(abs_le.mp h).2]
  exact Nat.lt_succ_iff.mp (by exact_mod_cast this)

theorem ge_of_near {m n : Nat} {w : ℚ} (h : |(m : ℚ) - w| ≤ 1 / 2) (hw : n ≤ w) : n ≤ m := by
  have : (n : ℚ) < m + 1 := by linarith [(abs_le.mp h).1]
  exact Nat.lt_succ_iff.mp (by exact_mod_cast this)

theorem roundTo_error (hn : 0 < num) (hd : 0 < den) :
    |(roundTo f neg num den e).value - signOf neg * (num / den * 2 ^ e)| ≤ 2 ^ (placeExp f num den e - 1) := by
  obtain ⟨m, hm, heq⟩ := roundTo_spec (f := f) (neg := neg) (e := e) hn hd
  set q := placeExp f num den e
  have hvalue : (roundTo f neg num den e).value = signOf neg * (m * 2 ^ q) := by
    rw [heq]
    split
    · next htop =>
      have hcarry : ((2 ^ (f.precision - 1) : Nat) : ℚ) * 2 = m := by rw [htop]; exact_mod_cast two_pow_precision f
      rw [Fp.value, ← hcarry, zpow_add_one₀ two_ne_zero]
      ring
    · rfl
  have hq : (2 : ℚ) ^ q ≠ 0 := by positivity
  calc |(roundTo f neg num den e).value - signOf neg * (num / den * 2 ^ e)|
      = |signOf neg * ((m - num / den * 2 ^ e / 2 ^ q) * 2 ^ q)| := by
        rw [hvalue, sub_mul, div_mul_cancel₀ _ hq, mul_sub]
    _ = |(m : ℚ) - num / den * 2 ^ e / 2 ^ q| * 2 ^ q := by
        rw [abs_mul, abs_signOf, one_mul, abs_mul, abs_of_pos (a := (2 : ℚ) ^ q) (by positivity)]
    _ ≤ 1 / 2 * 2 ^ q := by gcongr
    _ = 2 ^ (q - 1) := by rw [zpow_sub_one₀ two_ne_zero]; ring

theorem roundTo_mant_lt (hd : 0 < den) : (roundTo f neg num den e).mant < 2 ^ f.precision := by
  have htwo := two_pow_precision f
  have hpos : 0 < 2 ^ (f.precision - 1) := by positivity
  rcases Nat.eq_zero_or_pos num with rfl | hn
  · rw [roundTo_zero]; positivity
  · obtain ⟨m, hm, heq⟩ := roundTo_spec (f := f) (neg := neg) (e := e) hn hd
    rw [heq]
    split
    · dsimp only; omega
    · next hne =>
      refine lt_of_le_of_ne (le_of_near hm ?_) hne
      rw [div_le_iff₀ (by positivity)]
      push_cast
      rw [← zpow_natCast, ← zpow_add₀ two_ne_zero, add_comm]
      exact (lt_of_placeExp hn hd).le

theorem roundTo_minExp_le (hn : 0 < num) (hd : 0 < den) : f.minExp ≤ (roundTo f neg num den e).exp := by
  obtain ⟨m, -, heq⟩ := roundTo_spec (f := f) (neg := neg) (e := e) hn hd
  have := minExp_le_placeExp (f := f) (num := num) (den := den) (e := e)
  rw [heq]
  split
  · dsimp only; omega
  · exact this

theorem roundTo_normal (hn : 0 < num) (hd : 0 < den) (h : 2 ^ (f.minExp + f.precision - 1) ≤ (num : ℚ) / den * 2 ^ e) :
    (roundTo f neg num den e).Normal f := by
  refine ⟨?_, roundTo_mant_lt hd, roundTo_minExp_le hn hd⟩
  obtain ⟨m, hm, heq⟩ := roundTo_spec (f := f) (neg := neg) (e := e) hn hd
  rw [heq]
  split
  · exact le_rfl
  · refine ge_of_near hm ?_
    rw [le_div_iff₀ (by positivity)]
    push_cast [f.precision_pos]
    rw [← zpow_natCast, ← zpow_add₀ two_ne_zero]
    have hexp : ((f.precision - 1 : Nat) : Int) + placeExp f num den e = placeExp f num den e + f.precision - 1 := by
      have := f.precision_pos
      omega
    rw [hexp]
    rcases placeExp_eq_or_le (f := f) (e := e) hn hd with hmin | hlow
    · rwa [hmin]
    · exact hlow

/-- A number that is a normal value of the format is kept. -/
theorem roundTo_eq_of_normal {x : Fp} (hx : x.Normal f) (hneg : neg = x.neg) (hn : 0 < num) (hd : 0 < den)
    (h : (num : ℚ) / den * 2 ^ e = x.mant * 2 ^ x.exp) : roundTo f neg num den e = x := by
  have hplace : placeExp f num den e = x.exp := by
    refine le_antisymm ?_ ?_
    · have hlt : (num : ℚ) / den * 2 ^ e < 2 ^ (x.exp + f.precision) := by
        rw [h, add_comm, zpow_add₀ two_ne_zero, zpow_natCast]
        gcongr
        exact_mod_cast hx.mant_lt
      simpa using placeExp_le (f := f) hn hd hlt (by simpa using hx.le_exp)
    · have hle : 2 ^ (x.exp + f.precision - 1) ≤ (num : ℚ) / den * 2 ^ e := by
        have hexp : x.exp + f.precision - 1 = ((f.precision - 1 : Nat) : Int) + x.exp := by
          have := f.precision_pos
          omega
        rw [h, hexp, zpow_add₀ two_ne_zero, zpow_natCast]
        gcongr
        exact_mod_cast hx.le_mant
      have := (zpow_lt_zpow_iff_right₀ one_lt_two).mp (hle.trans_lt (lt_of_placeExp (f := f) hn hd))
      omega
  obtain ⟨m, hm, heq⟩ := roundTo_spec (f := f) (neg := neg) (e := e) hn hd
  rw [hplace, h, mul_div_cancel_right₀ _ (by positivity)] at hm
  have hmant : m = x.mant := le_antisymm (le_of_near hm le_rfl) (ge_of_near hm le_rfl)
  rw [heq, hmant, if_neg hx.mant_lt.ne, hplace, hneg]

end Round

/-! ### As a relation between a number and its rounded value -/

/-- `x` is `v` rounded to the format. -/
def Rounds (f : Fmt) (v : ℚ) (x : Fp) : Prop :=
  ∃ (neg : Bool) (num den : Nat) (e : Int), 0 < den ∧ v = signOf neg * (num / den * 2 ^ e) ∧ x = roundTo f neg num den e

section Rounds

variable {f : Fmt} {v : ℚ} {x y : Fp}

theorem Rounds.error {k : Int} (h : Rounds f v x) (hv : |v| < 2 ^ k) (hk : f.minExp ≤ k - f.precision) :
    |x.value - v| ≤ 2 ^ (k - f.precision - 1) := by
  obtain ⟨neg, num, den, e, hd, rfl, rfl⟩ := h
  rcases Nat.eq_zero_or_pos num with rfl | hn
  · simpa [Fp.value] using zpow_nonneg zero_le_two _
  · rw [abs_mul, abs_signOf, one_mul, abs_of_nonneg (by positivity)] at hv
    have hplace := placeExp_le hn hd hv hk
    exact (roundTo_error hn hd).trans (zpow_le_zpow_right₀ one_le_two (by omega))

/-- Rounding goes past no sign. -/
theorem Rounds.nonneg (h : Rounds f v x) (hv : 0 ≤ v) : 0 ≤ x.value := by
  obtain ⟨neg, num, den, e, hd, rfl, rfl⟩ := h
  rcases Nat.eq_zero_or_pos num with rfl | hn
  · simp [Fp.value]
  · cases neg with
    | false => rw [value_of_pos roundTo_neg]; positivity
    | true =>
      have : (0 : ℚ) < num / den * 2 ^ e := by positivity
      simp at hv
      linarith

theorem Rounds.mant_lt (h : Rounds f v x) : x.mant < 2 ^ f.precision := by
  obtain ⟨neg, num, den, e, hd, -, rfl⟩ := h
  exact roundTo_mant_lt hd

theorem Rounds.normal (h : Rounds f v x) (hv : 2 ^ (f.minExp + f.precision - 1) ≤ |v|) : x.Normal f := by
  obtain ⟨neg, num, den, e, hd, rfl, rfl⟩ := h
  rw [abs_mul, abs_signOf, one_mul, abs_of_nonneg (by positivity)] at hv
  have hn : 0 < num := by
    by_contra h0
    have : (0 : ℚ) < 2 ^ (f.minExp + f.precision - 1) := by positivity
    simp [Nat.eq_zero_of_not_pos h0] at hv
    linarith
  exact roundTo_normal hn hd hv

theorem Fp.Normal.value_ne_zero (hx : x.Normal f) : x.value ≠ 0 := by
  have hpos : 0 < x.mant := (Nat.two_pow_pos _).trans_le hx.le_mant
  rw [← abs_pos, abs_value]
  positivity

/-- Rounding keeps a normal value of the format, sign and all. -/
theorem Rounds.eq_of_normal (hx : x.Normal f) (h : Rounds f x.value y) : y = x := by
  obtain ⟨neg, num, den, e, hd, hv, rfl⟩ := h
  have hratio : (0 : ℚ) ≤ num / den * 2 ^ e := by positivity
  have hmag : (num : ℚ) / den * 2 ^ e = x.mant * 2 ^ x.exp := by
    rw [← abs_value, hv, abs_mul, abs_signOf, one_mul, abs_of_nonneg hratio]
  have hne : (x.mant : ℚ) * 2 ^ x.exp ≠ 0 := fun h0 => hx.value_ne_zero (by rw [Fp.value, h0, mul_zero])
  have hn : 0 < num := by
    by_contra h0
    exact hne (by rw [← hmag, Nat.eq_zero_of_not_pos h0]; simp)
  have hneg : neg = x.neg := by
    rw [Fp.value, hmag] at hv
    have hsign := mul_right_cancel₀ hne hv
    revert hsign
    cases neg <;> cases x.neg <;> norm_num
  exact roundTo_eq_of_normal hx hneg hn hd hmag

end Rounds

end Sys2Proof.Machine
end

section
/-! SUPPORT. The operations of R180 round the exact result; comparison and conversion are exact (R181). -/

namespace Sys2Proof.Machine

section Operations

variable {f : Fmt} {x y : Fp} {e : Int}

/-! ### Each operation rounds the exact result -/

theorem scaled_mul_eq_value (h : e ≤ x.exp) : (x.scaled e : ℚ) * 2 ^ e = x.value := by
  have hpow : (2 : ℚ) ^ (x.exp - e).toNat * 2 ^ e = 2 ^ x.exp := by
    rw [← zpow_natCast, Int.toNat_of_nonneg (by omega), ← zpow_add₀ two_ne_zero, sub_add_cancel]
  rw [Fp.value, ← hpow, Fp.scaled, signOf]
  push_cast
  ring

theorem negate_value (x : Fp) : x.negate.value = -x.value := by
  rw [Fp.negate, Fp.value, signOf_not, neg_mul]
  rfl

theorem fadd_rounds (f : Fmt) (x y : Fp) : Rounds f (x.value + y.value) (fadd f x y) := by
  have hsum : ((x.scaled (min x.exp y.exp) + y.scaled (min x.exp y.exp) : Int) : ℚ) * 2 ^ min x.exp y.exp =
      x.value + y.value := by
    push_cast
    rw [add_mul, scaled_mul_eq_value (min_le_left _ _), scaled_mul_eq_value (min_le_right _ _)]
  rw [← hsum]
  unfold fadd
  dsimp only
  generalize x.scaled (min x.exp y.exp) + y.scaled (min x.exp y.exp) = v
  split
  · next hzero => exact ⟨x.neg && y.neg, 0, 1, 0, one_pos, by simp [hzero], roundTo_zero.symm⟩
  · refine ⟨decide (v < 0), v.natAbs, 1, _, one_pos, ?_, rfl⟩
    have hsign : (v : ℚ) = signOf (decide (v < 0)) * v.natAbs := by
      rcases lt_or_ge v 0 with hlt | hge
      · simp [hlt, abs_of_neg hlt]
      · simp [hge.not_gt, abs_of_nonneg hge]
    rw [hsign]
    push_cast
    ring

theorem fsub_rounds (f : Fmt) (x y : Fp) : Rounds f (x.value - y.value) (fsub f x y) := by
  rw [sub_eq_add_neg, ← negate_value]
  exact fadd_rounds f x y.negate

theorem fmul_rounds (f : Fmt) (x y : Fp) : Rounds f (x.value * y.value) (fmul f x y) := by
  refine ⟨x.neg != y.neg, x.mant * y.mant, 1, x.exp + y.exp, one_pos, ?_, rfl⟩
  rw [Fp.value, Fp.value, signOf_bne, zpow_add₀ two_ne_zero]
  push_cast
  ring

theorem fdiv_rounds (f : Fmt) (x : Fp) (hy : y.value ≠ 0) : Rounds f (x.value / y.value) (fdiv f x y) := by
  have hmant : y.mant ≠ 0 := fun h => hy (by simp [Fp.value, h])
  refine ⟨x.neg != y.neg, x.mant, y.mant, x.exp - y.exp, Nat.pos_of_ne_zero hmant, ?_, rfl⟩
  have hsign : signOf y.neg = (signOf y.neg)⁻¹ := by cases y.neg <;> norm_num
  rw [Fp.value, Fp.value, signOf_bne, zpow_sub₀ two_ne_zero, mul_div_mul_comm, div_eq_mul_inv (signOf x.neg), ← hsign,
    mul_div_mul_comm]

theorem u2f_rounds (f : Fmt) (n : Nat) : Rounds f n (u2f f n) :=
  ⟨false, n, 1, 0, one_pos, by simp, rfl⟩

/-! ### The sign bits -/

@[simp] theorem fmul_neg : (fmul f x y).neg = (x.neg != y.neg) := roundTo_neg

@[simp] theorem fdiv_neg : (fdiv f x y).neg = (x.neg != y.neg) := roundTo_neg

theorem fadd_neg_of_nonneg (hx : x.neg = false) (h : 0 ≤ x.value + y.value) : (fadd f x y).neg = false := by
  have hsum : 0 ≤ x.scaled (min x.exp y.exp) + y.scaled (min x.exp y.exp) := by
    rw [← scaled_mul_eq_value (min_le_left x.exp y.exp), ← scaled_mul_eq_value (min_le_right x.exp y.exp), ← add_mul] at h
    exact_mod_cast nonneg_of_mul_nonneg_left h (by positivity)
  unfold fadd
  dsimp only
  split
  · simp [hx]
  · simp [hsum]

/-! ### Comparison and conversion -/

theorem flt_iff : flt x y = true ↔ x.value < y.value := by
  rw [← scaled_mul_eq_value (min_le_left x.exp y.exp), ← scaled_mul_eq_value (min_le_right x.exp y.exp),
    mul_lt_mul_iff_of_pos_right (by positivity), Int.cast_lt]
  simp [flt]

/-- A positive integer below 2 ^ 16, shifted until it is a normal value. -/
theorem u2f_eq {n : Nat} (hn : 0 < n) (h : n ≤ 65535) :
    u2f f n = ⟨false, n * 2 ^ (f.precision - 1 - n.log2), (n.log2 : Int) - (f.precision - 1)⟩ := by
  have hlog : n.log2 < 16 := (Nat.log2_lt hn.ne').mpr (by omega)
  have hfmt : 16 ≤ f.precision - 1 ∧ f.minExp ≤ -((f.precision : Int) - 1) := by cases f <;> decide
  have hsplit : f.precision - 1 = n.log2 + (f.precision - 1 - n.log2) := by omega
  refine roundTo_eq_of_normal ⟨?_, ?_, ?_⟩ rfl hn one_pos ?_
  · calc 2 ^ (f.precision - 1) = 2 ^ n.log2 * 2 ^ (f.precision - 1 - n.log2) := by rw [← pow_add, ← hsplit]
      _ ≤ n * 2 ^ (f.precision - 1 - n.log2) := by gcongr; exact Nat.log2_self_le hn.ne'
  · calc n * 2 ^ (f.precision - 1 - n.log2) < 2 ^ (n.log2 + 1) * 2 ^ (f.precision - 1 - n.log2) := by
          gcongr; exact Nat.lt_log2_self
      _ = 2 ^ f.precision := by rw [← pow_add]; congr 1; omega
  · dsimp only; omega
  · have hexp : (n.log2 : Int) - (f.precision - 1) = -((f.precision - 1 - n.log2 : Nat) : Int) := by omega
    rw [hexp]
    push_cast
    rw [zpow_neg, zpow_natCast]
    field_simp

end Operations

/-- Settles O55: the last place of the value that `u2f_eq` names is at most 1, since the integer has at most 16 bits. -/
theorem conversionsAreExact : Obligations.ConversionsAreExact := by
  unfold Obligations.ConversionsAreExact
  intro f n h
  rcases Nat.eq_zero_or_pos n with rfl | hn
  · cases f <;> decide
  · have hlog : n.log2 < 16 := (Nat.log2_lt hn.ne').mpr (by omega)
    have hfmt : 16 ≤ f.precision - 1 := by cases f <;> decide
    rw [u2f_eq hn h]
    refine ⟨rfl, by dsimp only; omega, ?_⟩
    dsimp only
    congr 2
    omega

theorem u2f_value (f : Fmt) {n : Nat} (h : n ≤ 65535) : (u2f f n).value = n := by
  obtain ⟨hneg, hexp, hmant⟩ := conversionsAreExact f n h
  have hpow : (2 : ℚ) ^ (u2f f n).exp = ((2 : ℚ) ^ (-(u2f f n).exp).toNat)⁻¹ := by
    rw [← zpow_natCast, ← zpow_neg, Int.toNat_of_nonneg (by omega), neg_neg]
  rw [value_of_pos hneg, hmant, hpow]
  push_cast
  field_simp

end Sys2Proof.Machine
end

section
/-! SUPPORT. The angle sequence (R183 to R186): its constants, the exact sequence of R188, and how far rounding takes each
value from it. -/

namespace Sys2Proof.Machine

/-! ### The constants (R182) -/

@[simp] theorem const100_value (f : Fmt) : (const100 f).value = 100 := by
  cases f <;> norm_num [const100, Fp.ofBits, Fp.value, Fmt.precision, Fmt.width, Fmt.minExp]

@[simp] theorem const360_value (f : Fmt) : (const360 f).value = 360 := by
  cases f <;> norm_num [const360, Fp.ofBits, Fp.value, Fmt.precision, Fmt.width, Fmt.minExp]

@[simp] theorem const12_value (f : Fmt) : (const12 f).value = 12 := by
  cases f <;> norm_num [const12, Fp.ofBits, Fp.value, Fmt.precision, Fmt.width, Fmt.minExp]

@[simp] theorem const180_value (f : Fmt) : (const180 f).value = 180 := by
  cases f <;> norm_num [const180, Fp.ofBits, Fp.value, Fmt.precision, Fmt.width, Fmt.minExp]

@[simp] theorem constPi_value : (constPi .binary64).value = 884279719003555 / 2 ^ 48 := by
  norm_num [constPi, Fp.ofBits, Fp.value, Fmt.precision, Fmt.width, Fmt.minExp]

/-! ### The sequence in exact arithmetic (R188) -/

section Exact

variable (pi : ℚ) (a0 a1 : U16) (i : Nat)

theorem exact_degrees (a : U16) : (exactArith pi).degrees a = a.toNat / 100 := rfl

theorem exact_finalDegrees : (exactArith pi).finalDegrees a0 a1 = wrappedA1 a0 a1 / 100 := by
  have hlt : (a1.toNat : ℚ) / 100 < a0.toNat / 100 ↔ a1.toNat < a0.toNat := by
    rw [div_lt_div_iff_of_pos_right (by norm_num), Nat.cast_lt]
  change (if decide ((a1.toNat : ℚ) / 100 < a0.toNat / 100) = true then (a1.toNat : ℚ) / 100 + 360 else a1.toNat / 100) = _
  simp only [hlt, decide_eq_true_eq, wrappedA1]
  split
  · push_cast; ring
  · rfl

theorem exact_angleStep : (exactArith pi).angleStep a0 a1 = ((wrappedA1 a0 a1 : ℚ) - a0.toNat) / 1200 := by
  unfold Arith.angleStep
  rw [exact_finalDegrees, exact_degrees]
  simp only [exactArith]
  ring

theorem exact_sampleDegrees : (exactArith pi).sampleDegrees a0 a1 i = (exactN a0 a1 i : ℚ) / 1200 := by
  unfold Arith.sampleDegrees
  rw [exact_angleStep, exact_degrees, exactN]
  simp only [exactArith]
  push_cast
  ring

theorem exact_sampleRadians : (exactArith pi).sampleRadians a0 a1 i = (exactN a0 a1 i : ℚ) * pi / 216000 := by
  unfold Arith.sampleRadians
  rw [exact_sampleDegrees]
  simp only [exactArith]
  ring

end Exact

/-! ### The numerator N_i (R188) -/

section Numerator

variable (a0 a1 : U16)

theorem exactN_eq (i : Nat) : exactN a0 a1 i = (12 - (i : Int)) * a0.toNat + (i : Int) * wrappedA1 a0 a1 := by
  unfold exactN
  ring

/-- A wrapped packet ends before 65534 + 36000. -/
theorem wrappedA1_le : wrappedA1 a0 a1 ≤ 101534 := by
  unfold wrappedA1
  split <;> omega

theorem exactN_nonneg {i : Nat} (hi : i < 12) : 0 ≤ exactN a0 a1 i := by
  rw [exactN_eq]
  have : (0 : Int) ≤ 12 - i := by omega
  positivity

theorem exactN_le {i : Nat} (hi : i < 12) : exactN a0 a1 i ≤ 1182409 := by
  have ha0 : (a0.toNat : Int) ≤ 65535 := by omega
  have hw : (wrappedA1 a0 a1 : Int) ≤ 101534 := by exact_mod_cast wrappedA1_le a0 a1
  have hi' : (0 : Int) ≤ 12 - i := by omega
  calc exactN a0 a1 i = (12 - (i : Int)) * a0.toNat + (i : Int) * wrappedA1 a0 a1 := exactN_eq a0 a1 i
    _ ≤ (12 - (i : Int)) * 65535 + (i : Int) * 101534 := by gcongr
    _ ≤ 1182409 := by omega

end Numerator

/-- Settles O58: the core's angle is the sequence by definition; the exact sequence and N_i as above. -/
theorem sequenceWithoutRoundingGivesTheExactAngle : Obligations.SequenceWithoutRoundingGivesTheExactAngle := by
  unfold Obligations.SequenceWithoutRoundingGivesTheExactAngle
  refine ⟨fun _ _ _ _ => rfl, fun pi a0 a1 i => ⟨exact_sampleDegrees pi a0 a1 i, exact_sampleRadians pi a0 a1 i⟩,
    fun a0 a1 i hi => ⟨exactN_eq a0 a1 i, exactN_nonneg a0 a1 hi, exactN_le a0 a1 hi⟩, by decide⟩

/-- Settles O60: the ten angles, computed. -/
theorem interpolationMatchesTenOfTheSpecsVectorEntries : Obligations.InterpolationMatchesTenOfTheSpecsVectorEntries := by
  unfold Obligations.InterpolationMatchesTenOfTheSpecsVectorEntries
  decide +kernel

/-! ### The raw angles in degrees, in a format (R183, R190) -/

/-- The most that rounding moves a number below 4096. -/
def roundingBound (f : Fmt) : ℚ := 2 ^ (11 - (f.precision : Int))

theorem Rounds.error_le {f : Fmt} {v : ℚ} {x : Fp} (h : Rounds f v x) (hv : |v| < 4096) :
    |x.value - v| ≤ roundingBound f := by
  have hk : f.minExp ≤ 12 - f.precision := by cases f <;> decide
  refine (h.error (k := 12) (by norm_num; exact hv) hk).trans_eq ?_
  rw [roundingBound]
  congr 1
  ring

theorem roundingBound_pos (f : Fmt) : 0 < roundingBound f := by unfold roundingBound; positivity

theorem roundingBound_le (f : Fmt) : roundingBound f ≤ 1 / 8192 := by
  cases f <;> norm_num [roundingBound, Fmt.precision]

section Degrees

variable (f : Fmt) (a0 a1 : U16)

theorem degrees_rounds (a : U16) : Rounds f (a.toNat / 100) (degrees f a) := by
  have h := fdiv_rounds f (u2f f a.toNat) (y := const100 f) (by simp)
  rwa [const100_value, u2f_value f (by omega)] at h

theorem toNat_cast_range (a : U16) : (0 : ℚ) ≤ a.toNat ∧ (a.toNat : ℚ) ≤ 65535 :=
  ⟨by positivity, by exact_mod_cast by omega⟩

theorem degrees_error (a : U16) : |(degrees f a).value - a.toNat / 100| ≤ roundingBound f := by
  obtain ⟨ha, ha'⟩ := toNat_cast_range a
  exact (degrees_rounds f a).error_le (abs_lt.mpr ⟨by linarith, by linarith⟩)

/-- The quotients are 0.01 apart, more than two roundings take away. -/
theorem degrees_lt_degrees (h : a1.toNat < a0.toNat) : (degrees f a1).value < (degrees f a0).value := by
  have hgap : (a1.toNat : ℚ) + 1 ≤ a0.toNat := by exact_mod_cast h
  have h1 := abs_le.mp (degrees_error f a1)
  have h0 := abs_le.mp (degrees_error f a0)
  have hbound := roundingBound_le f
  linarith

theorem degrees_lt_iff : (degrees f a1).value < (degrees f a0).value ↔ a1.toNat < a0.toNat := by
  refine ⟨fun h => ?_, degrees_lt_degrees f a0 a1⟩
  rcases lt_trichotomy a1.toNat a0.toNat with hlt | heq | hgt
  · exact hlt
  · rw [BitVec.eq_of_toNat_eq heq] at h
    exact absurd h (lt_irrefl _)
  · exact absurd h (degrees_lt_degrees f a1 a0 hgt).not_gt

/-- Settles O56: the quotients in the format stand in the order of the raw angles. -/
theorem wraparoundComparisonIsTheIntegerComparison : Obligations.WraparoundComparisonIsTheIntegerComparison := by
  unfold Obligations.WraparoundComparisonIsTheIntegerComparison
  intro f a0 a1
  rw [Bool.eq_iff_iff, flt_iff, degrees_lt_iff, decide_eq_true_eq]

end Degrees

end Sys2Proof.Machine
end

section
/-! SUPPORT. The first sample (R186), and the range of the angle (R191). -/

namespace Sys2Proof.Machine

/-! ### The first sample -/

section First

variable (f : Fmt) (a : U16)

@[simp] theorem degrees_neg : (degrees f a).neg = false := by
  have hu2f : (u2f f a.toNat).neg = false := roundTo_neg
  have hconst : (const100 f).neg = false := by cases f <;> rfl
  change (fdiv f (u2f f a.toNat) (const100 f)).neg = false
  rw [fdiv_neg, hu2f, hconst]
  rfl

theorem degrees_zero : degrees f 0#16 = ⟨false, 0, 0⟩ := by cases f <;> decide

theorem degrees_normal {a : U16} (ha : a ≠ 0#16) : (degrees f a).Normal f := by
  refine (degrees_rounds f a).normal ?_
  have hone : (1 : ℚ) ≤ a.toNat := by exact_mod_cast by bv_omega
  have hexp : f.minExp + f.precision - 1 ≤ -7 := by cases f <;> decide
  calc (2 : ℚ) ^ (f.minExp + f.precision - 1) ≤ 2 ^ (-7 : Int) := zpow_le_zpow_right₀ one_le_two hexp
    _ ≤ a.toNat / 100 := by norm_num; linarith
    _ ≤ |(a.toNat : ℚ) / 100| := le_abs_self _

theorem degrees_nonneg : 0 ≤ (degrees f a).value := by
  rw [value_of_pos (degrees_neg f a)]
  positivity

theorem fmul_u2f_zero (x : Fp) : fmul f x (u2f f 0) = ⟨x.neg, 0, 0⟩ := by simp [fmul, u2f]

theorem fadd_zeros (neg : Bool) : fadd f ⟨false, 0, 0⟩ ⟨neg, 0, 0⟩ = ⟨false, 0, 0⟩ := by cases neg <;> rfl

end First

/-- Settles O57: STEP × 0 is a zero of either sign; added to +0 it gives +0, added to a normal value that value. -/
theorem firstSampleStandsAtTheInitialAngle : Obligations.FirstSampleStandsAtTheInitialAngle := by
  unfold Obligations.FirstSampleStandsAtTheInitialAngle
  intro f a0 a1
  change fadd f (degrees f a0) (fmul f ((roundedArith f).angleStep a0 a1) (u2f f 0)) = degrees f a0
  rw [fmul_u2f_zero]
  by_cases ha : a0 = 0#16
  · rw [ha, degrees_zero, fadd_zeros]
  · refine Rounds.eq_of_normal (degrees_normal f ha) ?_
    simpa [Fp.value] using fadd_rounds f (degrees f a0) ⟨((roundedArith f).angleStep a0 a1).neg, 0, 0⟩

/-! ### How far rounding takes the sequence from the exact one -/

section Errors

variable (f : Fmt) (a0 a1 : U16)

theorem wrappedA1_cast_range : (0 : ℚ) ≤ wrappedA1 a0 a1 ∧ (wrappedA1 a0 a1 : ℚ) ≤ 101534 :=
  ⟨by positivity, by exact_mod_cast wrappedA1_le a0 a1⟩

/-- `FINAL` in a format (R184), the comparison made on the integers (R190). -/
theorem finalDegrees_eq : (roundedArith f).finalDegrees a0 a1 =
    if a1.toNat < a0.toNat then fadd f (degrees f a1) (const360 f) else degrees f a1 := by
  change (if flt (degrees f a1) (degrees f a0) = true then fadd f (degrees f a1) (const360 f) else degrees f a1) = _
  simp only [wraparoundComparisonIsTheIntegerComparison f a0 a1, decide_eq_true_eq]

theorem finalDegrees_error :
    |((roundedArith f).finalDegrees a0 a1).value - wrappedA1 a0 a1 / 100| ≤ 2 * roundingBound f := by
  have hpos := roundingBound_pos f
  have hbound := roundingBound_le f
  obtain ⟨ha1, ha1'⟩ := toNat_cast_range a1
  have hdeg := abs_le.mp (degrees_error f a1)
  rw [finalDegrees_eq, wrappedA1]
  split
  · have hsum := fadd_rounds f (degrees f a1) (const360 f)
    rw [const360_value] at hsum
    have hround := abs_le.mp (hsum.error_le (abs_lt.mpr ⟨by linarith, by linarith⟩))
    push_cast
    exact abs_le.mpr ⟨by linarith, by linarith⟩
  · exact abs_le.mpr ⟨by linarith, by linarith⟩

theorem angleStep_error :
    |((roundedArith f).angleStep a0 a1).value - ((wrappedA1 a0 a1 : ℚ) - a0.toNat) / 1200| ≤ 2 * roundingBound f := by
  have hpos := roundingBound_pos f
  have hbound := roundingBound_le f
  obtain ⟨ha0, ha0'⟩ := toNat_cast_range a0
  obtain ⟨hw, hw'⟩ := wrappedA1_cast_range a0 a1
  have hinit := abs_le.mp (degrees_error f a0)
  have hfinal := abs_le.mp (finalDegrees_error f a0 a1)
  have hspan := abs_le.mp ((fsub_rounds f ((roundedArith f).finalDegrees a0 a1) (degrees f a0)).error_le
    (abs_lt.mpr ⟨by linarith, by linarith⟩))
  have hquot := fdiv_rounds f (fsub f ((roundedArith f).finalDegrees a0 a1) (degrees f a0)) (y := const12 f) (by simp)
  rw [const12_value] at hquot
  have hstep := abs_le.mp (hquot.error_le (abs_lt.mpr ⟨by linarith, by linarith⟩))
  change |(fdiv f (fsub f ((roundedArith f).finalDegrees a0 a1) (degrees f a0)) (const12 f)).value - _| ≤ _
  exact abs_le.mpr ⟨by linarith, by linarith⟩

/-- `STEP × i` in a format. -/
def sampleOffset (i : Nat) : Fp := fmul f ((roundedArith f).angleStep a0 a1) (u2f f i)

theorem sampleOffset_rounds {i : Nat} (hi : i < 12) :
    Rounds f (((roundedArith f).angleStep a0 a1).value * i) (sampleOffset f a0 a1 i) := by
  have h := fmul_rounds f ((roundedArith f).angleStep a0 a1) (u2f f i)
  rwa [u2f_value f (by omega)] at h

theorem sampleDegrees_eq (i : Nat) : sampleDegrees f a0 a1 i = fadd f (degrees f a0) (sampleOffset f a0 a1 i) := rfl

/-- What `DEG_i` rounds is N_i / 1200 up to the roundings before. -/
theorem sampleSum_error {i : Nat} (hi : i < 12) :
    |(degrees f a0).value + (sampleOffset f a0 a1 i).value - exactN a0 a1 i / 1200| ≤ 24 * roundingBound f := by
  have hpos := roundingBound_pos f
  have hbound := roundingBound_le f
  obtain ⟨ha0, ha0'⟩ := toNat_cast_range a0
  obtain ⟨hw, hw'⟩ := wrappedA1_cast_range a0 a1
  have hi' : (i : ℚ) ≤ 11 := by exact_mod_cast by omega
  have hexact : (exactN a0 a1 i : ℚ) / 1200 = a0.toNat / 100 + ((wrappedA1 a0 a1 : ℚ) - a0.toNat) / 1200 * i := by
    rw [exactN]; push_cast; ring
  have hproduct : |((roundedArith f).angleStep a0 a1).value * i - ((wrappedA1 a0 a1 : ℚ) - a0.toNat) / 1200 * i| ≤
      2 * roundingBound f * 11 := by
    rw [← sub_mul, abs_mul, abs_of_nonneg (a := (i : ℚ)) (by positivity)]
    gcongr
    exact angleStep_error f a0 a1
  have hspan : |((wrappedA1 a0 a1 : ℚ) - a0.toNat) / 1200 * i| ≤ 85 * 11 := by
    rw [abs_mul, abs_of_nonneg (a := (i : ℚ)) (by positivity)]
    gcongr
    exact abs_le.mpr ⟨by linarith, by linarith⟩
  have hproduct' := abs_le.mp hproduct
  have hspan' := abs_le.mp hspan
  have hinit := abs_le.mp (degrees_error f a0)
  have hoffset := abs_le.mp ((sampleOffset_rounds f a0 a1 hi).error_le (abs_lt.mpr ⟨by linarith, by linarith⟩))
  rw [hexact]
  exact abs_le.mpr ⟨by linarith, by linarith⟩

end Errors

/-! ### The machine's format: no sign, no overflow -/

section Binary64

variable (a0 a1 : U16) {i : Nat}

/-- From raw angle 0 nothing wraps and no step is negative. -/
theorem sampleOffset_nonneg (f : Fmt) (hi : i < 12) : 0 ≤ (sampleOffset f 0#16 a1 i).value := by
  have hfinal : (roundedArith f).finalDegrees 0#16 a1 = degrees f a1 := by rw [finalDegrees_eq, if_neg (by simp)]
  have hinit : (degrees f 0#16).value = 0 := by simp [degrees_zero, Fp.value]
  have hspan : 0 ≤ (fsub f ((roundedArith f).finalDegrees 0#16 a1) (degrees f 0#16)).value := by
    refine (fsub_rounds f _ _).nonneg ?_
    rw [hfinal, hinit, sub_zero]
    exact degrees_nonneg f a1
  have hstep : 0 ≤ ((roundedArith f).angleStep 0#16 a1).value := by
    refine (fdiv_rounds f _ (y := const12 f) (by simp)).nonneg ?_
    rw [const12_value]
    exact div_nonneg hspan (by norm_num)
  exact (sampleOffset_rounds f 0#16 a1 hi).nonneg (by positivity)

theorem roundingBound_binary64 : roundingBound .binary64 = 1 / 2 ^ 42 := by norm_num [roundingBound, Fmt.precision]

/-- A positive A0 makes N_i at least 1, and 1 / 1200 is more than rounding takes away. -/
theorem sampleSum_nonneg (hi : i < 12) : 0 ≤ (degrees .binary64 a0).value + (sampleOffset .binary64 a0 a1 i).value := by
  by_cases ha : a0 = 0#16
  · rw [ha]
    exact add_nonneg (degrees_nonneg _ _) (sampleOffset_nonneg a1 _ hi)
  · have hN : 1 ≤ exactN a0 a1 i := by
      have hpos : (1 : Int) ≤ a0.toNat := by bv_omega
      have hrest : (1 : Int) ≤ 12 - i := by omega
      calc (1 : Int) ≤ (12 - i) * a0.toNat + 0 := by nlinarith
        _ ≤ (12 - i) * a0.toNat + i * wrappedA1 a0 a1 := by gcongr; positivity
        _ = exactN a0 a1 i := (exactN_eq a0 a1 i).symm
    have hN' : (1 : ℚ) ≤ exactN a0 a1 i := by exact_mod_cast hN
    have herror := abs_le.mp (sampleSum_error .binary64 a0 a1 hi)
    rw [roundingBound_binary64] at herror
    linarith

theorem sampleDegrees_neg (hi : i < 12) : (sampleDegrees .binary64 a0 a1 i).neg = false := by
  rw [sampleDegrees_eq]
  exact fadd_neg_of_nonneg (degrees_neg _ _) (sampleSum_nonneg a0 a1 hi)

theorem sampleDegrees_nonneg (hi : i < 12) : 0 ≤ (sampleDegrees .binary64 a0 a1 i).value := by
  rw [value_of_pos (sampleDegrees_neg a0 a1 hi)]
  positivity

theorem sampleDegrees_lt (hi : i < 12) : (sampleDegrees .binary64 a0 a1 i).value < 985.341 := by
  have hN : (exactN a0 a1 i : ℚ) ≤ 1182409 := by exact_mod_cast exactN_le a0 a1 hi
  have hsum := sampleSum_nonneg a0 a1 hi
  have herror := abs_le.mp (sampleSum_error .binary64 a0 a1 hi)
  rw [roundingBound_binary64] at herror
  have hround := abs_le.mp ((fadd_rounds .binary64 (degrees .binary64 a0) (sampleOffset .binary64 a0 a1 i)).error_le
    (abs_lt.mpr ⟨by linarith, by linarith⟩))
  rw [roundingBound_binary64] at hround
  rw [sampleDegrees_eq]
  linarith

/-- `RAD_i` in the machine's format. -/
def radians (a0 a1 : U16) (i : Nat) : Fp := (roundedArith .binary64).sampleRadians a0 a1 i

theorem radians_eq : radians a0 a1 i =
    fdiv .binary64 (fmul .binary64 (sampleDegrees .binary64 a0 a1 i) (constPi .binary64)) (const180 .binary64) := rfl

theorem angle_eq : angle .binary64 a0 a1 i = (radians a0 a1 i).bits .binary64 := rfl

theorem radians_neg (hi : i < 12) : (radians a0 a1 i).neg = false := by
  rw [radians_eq, fdiv_neg, fmul_neg, sampleDegrees_neg a0 a1 hi]
  rfl

theorem radians_rounds (i : Nat) : Rounds .binary64
    ((fmul .binary64 (sampleDegrees .binary64 a0 a1 i) (constPi .binary64)).value / 180) (radians a0 a1 i) := by
  have h := fdiv_rounds .binary64 (fmul .binary64 (sampleDegrees .binary64 a0 a1 i) (constPi .binary64))
    (y := const180 .binary64) (by simp)
  rwa [const180_value] at h

theorem radians_lt (hi : i < 12) : (radians a0 a1 i).value < 17.199 := by
  have hnonneg := sampleDegrees_nonneg a0 a1 hi
  have hlt := sampleDegrees_lt a0 a1 hi
  have hmul := fmul_rounds .binary64 (sampleDegrees .binary64 a0 a1 i) (constPi .binary64)
  rw [constPi_value] at hmul
  have hproduct := abs_le.mp (hmul.error_le (abs_lt.mpr ⟨by linarith, by linarith⟩))
  rw [roundingBound_binary64] at hproduct
  have hround := abs_le.mp ((radians_rounds a0 a1 i).error_le (abs_lt.mpr ⟨by linarith, by linarith⟩))
  rw [roundingBound_binary64] at hround
  linarith

end Binary64

/-! ### The order of the patterns -/

/-- The pattern of a positive value below `0x11333333333333 × 2 ^ -48`, the value next below 17.2, is below the pattern of
that value. -/
theorem bits_lt_of_value_lt {x : Fp} (hneg : x.neg = false) (hmant : x.mant < 2 ^ 53)
    (h : x.value < 0x11333333333333 * 2 ^ (-48 : Int)) : (x.bits .binary64).toNat < 0x4031333333333333 := by
  have horder : x.mant < 2 ^ 52 ∨ x.exp < -48 ∨ (x.exp = -48 ∧ x.mant < 0x11333333333333) := by
    rw [value_of_pos hneg] at h
    rcases lt_or_ge x.mant (2 ^ 52) with hsmall | hbig
    · exact .inl hsmall
    · rcases lt_trichotomy x.exp (-48) with hlt | heq | hgt
      · exact .inr (.inl hlt)
      · rw [heq] at h
        exact .inr (.inr ⟨heq, by exact_mod_cast lt_of_mul_lt_mul_right h (by positivity)⟩)
      · have hlarge : (2 : ℚ) ^ 52 * 2 ^ (-47 : Int) ≤ x.mant * 2 ^ x.exp := by
          gcongr
          · exact_mod_cast hbig
          · exact one_le_two
          · omega
        norm_num at h hlarge
        linarith
  rw [Fp.bits, hneg, BitVec.toNat_ofNat]
  refine (Nat.mod_le _ _).trans_lt ?_
  norm_num [Fmt.precision, Fmt.minExp]
  split <;> omega

/-- Settles O59: RAD_i has no sign and is below 17.2 as a number. -/
theorem everyAngleIsFiniteAndNotNegative : Obligations.EveryAngleIsFiniteAndNotNegative := by
  unfold Obligations.EveryAngleIsFiniteAndNotNegative
  intro a0 a1 i hi
  rw [angle_eq]
  refine bits_lt_of_value_lt (radians_neg a0 a1 hi) (radians_rounds a0 a1 i).mant_lt ?_
  exact (radians_lt a0 a1 hi).trans (by norm_num)

end Sys2Proof.Machine
end

section
/-! SUPPORT. ASSEMBLESCAN against `assembleScan` (R210, R138): the packets of an assembly one after another. -/

namespace Sys2Proof.Machine

/-! ### The contracts on a stream that goes on -/

/-- The result on a stream followed by `l`, from the one on the stream alone. -/
def FindSyncResult.andMore (l : List SrcAnswer) : FindSyncResult → FindSyncResult
  | .ok rest => .ok (rest ++ l)
  | .ioError rest => .ioError (rest ++ l)
  | .waiting => findSync l

/-- A result of reading, where `l` comes after the stream that gave it. -/
def BodyRead.andMore (l : List SrcAnswer) : BodyRead → BodyRead
  | .full bytes rest => .full bytes (rest ++ l)
  | .ioError rest => .ioError (rest ++ l)
  | .waiting => .waiting

/-- A result of `decodePacket`, where `l` comes after the stream that gave it. -/
def DecodeResult.andMore (l : List SrcAnswer) : DecodeResult → DecodeResult
  | .ok pts rest => .ok pts (rest ++ l)
  | .ioError rest => .ioError (rest ++ l)
  | .invalidLength rest => .invalidLength (rest ++ l)
  | .waiting => .waiting

/-- What the loop of R210 goes on to, with `n` packets to go after one of which `decodePacket` says the last argument. -/
def assembleOn (c : Config) (n : Nat) (ps : List Point) : DecodeResult → AssembleResult
  | .ok pts rest => assembleFrom c n (ps ++ pts) rest
  | .ioError rest => .ioError rest
  | .invalidLength rest => .invalidLength rest
  | .waiting => .waiting

section Stream

variable {c : Config} {l l' rest : List SrcAnswer} {n : Nat} {ps : List Point}

theorem findSync_append : findSync (l ++ l') = (findSync l).andMore l' := by
  induction l with
  | nil => rfl
  | cons x l ih =>
    cases x with
    | noAnswer => exact ih
    | fail => rfl
    | byte b =>
      simp only [List.cons_append, findSync]
      split
      · rfl
      · exact ih

theorem BodyRead.push_andMore (b : Byte) (r : BodyRead) : (r.andMore l).push b = (r.push b).andMore l := by
  cases r <;> rfl

/-- Bytes that are there are read alike whatever comes after them. -/
theorem readBytes_andMore (h : readBytes l n ≠ .waiting) : readBytes (l ++ l') n = (readBytes l n).andMore l' := by
  induction l generalizing n with
  | nil =>
    cases n with
    | zero => cases l' <;> rfl
    | succ n => exact absurd rfl h
  | cons x l ih =>
    cases n with
    | zero => cases x <;> rfl
    | succ n =>
      cases x with
      | noAnswer => exact ih h
      | fail => rfl
      | byte b =>
        have hrest : readBytes l n ≠ .waiting := mt BodyRead.push_waiting_iff.mpr h
        exact (congrArg (BodyRead.push b) (ih hrest)).trans (BodyRead.push_andMore b _)

theorem decodePacket_append (h : decodePacket c l ≠ .waiting) :
    decodePacket c (l ++ l') = (decodePacket c l).andMore l' := by
  have hread : readBytes l Config.bodyBytes ≠ .waiting := fun hw => h (by rw [decodePacket, hw])
  unfold decodePacket
  rw [readBytes_andMore hread]
  cases readBytes l Config.bodyBytes with
  | full bytes rest =>
    dsimp only [BodyRead.andMore]
    split <;> rfl
  | ioError rest => rfl
  | waiting => rfl

theorem assembleFrom_of_waiting (h : findSync l = .waiting) : assembleFrom c (n + 1) ps l = .waiting := by
  rw [assembleFrom, h]

theorem assembleFrom_of_ioError (h : findSync l = .ioError rest) : assembleFrom c (n + 1) ps l = .ioError rest := by
  rw [assembleFrom, h]

theorem assembleFrom_of_ok (h : findSync l = .ok rest) :
    assembleFrom c (n + 1) ps l = assembleOn c n ps (decodePacket c rest) := by
  rw [assembleFrom, h]
  dsimp only
  cases decodePacket c rest <;> rfl

/-- A stream up to a sync marker, and then another. -/
theorem assembleFrom_sync_append (h : findSync l = .ok []) :
    assembleFrom c (n + 1) ps (l ++ l') = assembleOn c n ps (decodePacket c l') :=
  assembleFrom_of_ok (by rw [findSync_append, h]; rfl)

/-- Fewer answers hold no result where more of them hold none. -/
theorem assembleFrom_waiting_of_append (h : assembleFrom c n ps (l ++ l') = .waiting) :
    assembleFrom c n ps l = .waiting := by
  induction n generalizing ps l with
  | zero => cases h
  | succ n ih =>
    have hmore := findSync_append (l := l) (l' := l')
    cases hsync : findSync l with
    | waiting => exact assembleFrom_of_waiting hsync
    | ioError rest =>
      rw [hsync] at hmore
      rw [assembleFrom_of_ioError hmore] at h
      cases h
    | ok rest =>
      rw [hsync] at hmore
      rw [assembleFrom_of_ok hmore] at h
      rw [assembleFrom_of_ok hsync]
      by_cases hwait : decodePacket c rest = .waiting
      · rw [hwait]
        rfl
      · rw [decodePacket_append hwait] at h
        cases hres : decodePacket c rest with
        | waiting => rfl
        | ioError rest' => rw [hres] at h; cases h
        | invalidLength rest' => rw [hres] at h; cases h
        | ok pts rest' => rw [hres] at h; exact ih h

end Stream

/-! ### Between two packets -/

/-- The Points `ps` are the COUNT entries of SCAN. -/
structure Collected (ps : List Point) (a : CoreState) : Prop where
  length : ps.length = a.count.toNat
  entry  : ∀ k, k < ps.length → some (a.scan.read k) = ps[k]?

/-- An assembly that has collected `ps` hunts for its next packet, or is complete. -/
structure BetweenPackets (ps : List Point) (s : State) : Prop where
  inv       : Invariant s
  phase     : s.phase = if s.pkt.toNat = 38 then .idle else .hunt
  scanValid : s.scanValid = decide (s.pkt.toNat = 38)
  collected : Collected ps s.toCoreState

theorem BetweenPackets.begun {s : State} (hI : Invariant s) : BetweenPackets [] s.begun where
  inv := hI.begun
  phase := by simp
  scanValid := by simp
  collected := ⟨rfl, fun _ hk => absurd hk (Nat.not_lt_zero _)⟩

theorem Collected.append {ps pts : List Point} {a b : CoreState} (h : Collected ps a) (hlen : pts.length = 12)
    (hcount : b.count.toNat = a.count.toNat + 12) (hbelow : ∀ k, k < a.count.toNat → b.scan.read k = a.scan.read k)
    (hnew : ∀ i, i < 12 → some (b.scan.read (a.count.toNat + i)) = pts[i]?) : Collected (ps ++ pts) b where
  length := by rw [List.length_append, h.length, hlen, hcount]
  entry k hk := by
    by_cases hold : k < ps.length
    · rw [List.getElem?_append_left hold, hbelow k (h.length ▸ hold), h.entry k hold]
    · obtain ⟨i, rfl⟩ := Nat.exists_eq_add_of_le (Nat.le_of_not_lt hold)
      rw [List.length_append] at hk
      rw [List.getElem?_append_right (Nat.le_add_right _ _), Nat.add_sub_cancel_left, ← hnew i (by omega), h.length]

/-! ### The invariant along a phase -/

theorem runWhile_keeps_invariant {p : Phase} (hb : p ≠ .idle) {m : Nat} {s t : State} (hI : Invariant s)
    (hp : s.phase = p) (h : runWhile Config.current p m s = .next t) : Invariant t := by
  induction m generalizing s with
  | zero => cases h; exact hI
  | succ m ih =>
    have hbusy : s.phase ≠ .idle := hp ▸ hb
    obtain ⟨a, ha⟩ := hI.answerStep hbusy Config.current s.answerNow
    rw [runWhile_of_answer hbusy ha] at h
    split at h
    · next hstay => exact ih (hI.answered hbusy ha) hstay h
    · cases h; exact hI.answered hbusy ha

theorem findsync_keeps_invariant {s t : State} (hI : Invariant s) (hp : s.phase = .hunt)
    (h : exec .findsync s = .next t) : Invariant t :=
  runWhile_keeps_invariant (p := .hunt) (by decide) hI hp ((if_pos hp).symm.trans h)

theorem decodepacket_keeps_invariant {s t : State} (hI : Invariant s) (hp : s.phase = .body)
    (h : exec .decodepacket s = .next t) : Invariant t :=
  runWhile_keeps_invariant (p := .body) (by decide) hI hp ((if_pos hp).symm.trans h)

/-! ### The loop of R210 -/

/-- What R210 says of the state `t` that a result of `assembleScan` leaves; the rest of it is R37. -/
def AssembleResult.describes (t : State) : AssembleResult → Prop
  | .ok scan rest => rest = [] ∧ t.scanValid = true ∧ Collected scan t.toCoreState
  | .ioError rest => rest = [] ∧ t.err = .ioError
  | .invalidLength rest => rest = [] ∧ t.err = .invalidLength
  | .waiting => t.phase ≠ .idle

/-- The loop with `n` packets to go, begun at `s` with `ps` collected, takes `k` answers and comes to `t`. -/
structure Assembles (n : Nat) (ps : List Point) (s : State) (k : Nat) (t : State) : Prop where
  inputs   : SameEnv (s.took k) t
  inv      : Invariant t
  count_le : s.count.toNat ≤ t.count.toNat
  above    : ∀ j, t.count.toNat ≤ j → t.scan.read j = s.scan.read j
  result   : (assembleFrom Config.current n ps (s.answers k)).describes t
  forever  : assembleFrom Config.current n ps (s.answers k) = .waiting →
    s.src.length ≤ k ∧ ∀ m, assembleFrom Config.current n ps (s.answers m) = .waiting

section Loop

variable {n k j : Nat} {ps pts : List Point} {s t u v : State} {r : AssembleResult}

theorem answers_of_inputs (h : SameEnv (s.took k) t) (m : Nat) : t.answers m = (s.took k).answers m := by
  obtain ⟨hsrc, hlater, -⟩ := h
  simp only [State.answers, hsrc, hlater]

theorem answers_add_of_inputs (h : SameEnv (s.took k) t) (m : Nat) : s.answers (k + m) = s.answers k ++ t.answers m := by
  rw [answers_add_took, answers_of_inputs h]

theorem listed_le_of_inputs (h : SameEnv (s.took k) t) (hj : t.src.length ≤ j) : s.src.length ≤ k + j := by
  obtain ⟨hsrc, -⟩ := h
  rw [hsrc, took_src, List.length_drop] at hj
  omega

/-- Where no answers after the first `k` bring a result, none do. -/
theorem assembleFrom_waits_of_later {c : Config} (h : ∀ m, assembleFrom c n ps (s.answers (k + m)) = .waiting) (m : Nat) :
    assembleFrom c n ps (s.answers m) = .waiting := by
  have hlonger := h m
  rw [Nat.add_comm, answers_add_took] at hlonger
  exact assembleFrom_waiting_of_append hlonger

/-- The complete assembly has nothing left to do. -/
theorem BetweenPackets.assembles (h : BetweenPackets ps s) (h38 : s.pkt.toNat = 38) : Assembles 0 ps s 0 s where
  inputs := by simp [SameEnv]
  inv := h.inv
  count_le := Nat.le_refl _
  above _ _ := rfl
  result := ⟨State.answers_zero s, by simp [h.scanValid, h38], h.collected⟩
  forever hwait := by cases hwait

/-- The loop ends before the next packet is committed. -/
theorem Assembles.ended (hin : SameEnv (s.took k) t) (hI : Invariant t) (hcount : t.count = s.count) (hscan : SameScan s t)
    (hres : assembleFrom Config.current n ps (s.answers k) = r) (hr : r.describes t)
    (hwait : r = .waiting → s.src.length ≤ k ∧ ∀ m, assembleFrom Config.current n ps (s.answers m) = .waiting) :
    Assembles n ps s k t where
  inputs := hin
  inv := hI
  count_le := hcount ▸ Nat.le_refl _
  above i _ := hscan i
  result := hres ▸ hr
  forever h := hwait (hres ▸ h)

/-- The next packet is committed in `k` answers, and the loop goes on. -/
theorem Assembles.packet (hin : SameEnv (s.took k) v) (hcount : v.count.toNat = s.count.toNat + 12)
    (habove : ∀ i, s.count.toNat + 12 ≤ i → v.scan.read i = s.scan.read i)
    (hres : ∀ m, assembleFrom Config.current (n + 1) ps (s.answers (k + m)) =
      assembleFrom Config.current n (ps ++ pts) (v.answers m))
    (h : Assembles n (ps ++ pts) v j t) : Assembles (n + 1) ps s (k + j) t where
  inputs := hin.of_took_trans h.inputs
  inv := h.inv
  count_le := Nat.le_trans (by omega) h.count_le
  above i hi := (h.above i hi).trans (habove i (hcount ▸ h.count_le.trans hi))
  result := hres j ▸ h.result
  forever hwait := by
    rw [hres] at hwait
    obtain ⟨hlisted, hall⟩ := h.forever hwait
    exact ⟨listed_le_of_inputs hin hlisted, assembleFrom_waits_of_later fun m => (hres m).trans (hall m)⟩

/-- FINDSYNC finds the sync marker of the next packet with the `k`-th answer, and leaves the core as `u`. -/
structure SyncFound (s : State) (k : Nat) (u : State) : Prop where
  inputs : SameEnv (s.took k) u
  inv    : Invariant u
  found  : findSync (s.answers k) = .ok []
  phase  : u.phase = .body
  bidx   : u.bidx = 0#6
  pkt    : u.pkt = s.pkt
  count  : u.count = s.count
  scan   : SameScan s u

theorem SyncFound.assembleFrom_eq (h : SyncFound s k u) (m : Nat) :
    assembleFrom Config.current (n + 1) ps (s.answers (k + m)) =
      assembleOn Config.current n ps (decodePacket Config.current (u.answers m)) := by
  rw [answers_add_of_inputs h.inputs]
  exact assembleFrom_sync_append h.found

/-- DECODEPACKET does not commit the packet. -/
theorem SyncFound.ended {d : DecodeResult} (h : SyncFound s k u) (hin : SameEnv (u.took j) v) (hI : Invariant v)
    (hcount : v.count = u.count) (hscan : SameScan u v) (hd : decodePacket Config.current (u.answers j) = d)
    (hr : (assembleOn Config.current n ps d).describes v)
    (hwait : assembleOn Config.current n ps d = .waiting →
      u.src.length ≤ j ∧ ∀ m, decodePacket Config.current (u.answers m) = .waiting) :
    Assembles (n + 1) ps s (k + j) v := by
  refine .ended (h.inputs.of_took_trans hin) hI (hcount.trans h.count) (fun i => (hscan i).trans (h.scan i))
    ((h.assembleFrom_eq j).trans (congrArg _ hd)) hr fun hw => ?_
  obtain ⟨hlisted, hall⟩ := hwait hw
  exact ⟨listed_le_of_inputs h.inputs hlisted, assembleFrom_waits_of_later fun m => by rw [h.assembleFrom_eq, hall]; rfl⟩

/-- The body after the sync marker: either the loop ends with it, or it is committed and the loop goes on. -/
theorem SyncFound.decodes (h : SyncFound s k u) (hb : BetweenPackets ps s) :
    ∃ v j, decodepacketUnder Config.current u = .next v ∧ ((v.phase ≠ .hunt ∧ ∀ n, Assembles (n + 1) ps s (k + j) v) ∨
      ∃ pts, BetweenPackets (ps ++ pts) v ∧ v.pkt.toNat = s.pkt.toNat + 1 ∧
        ∀ n i t, Assembles n (ps ++ pts) v i t → Assembles (n + 1) ps s (k + j + i) t) := by
  obtain ⟨v, j, hdecode, hsrc, hlater, hhost, hread, hctr, -, hres⟩ :=
    decodepacketFollowsItsContract u h.inv h.phase h.bidx
  have hin : SameEnv (u.took j) v := ⟨hsrc, hlater, hhost, hread, hctr⟩
  have hI := decodepacket_keeps_invariant h.inv h.phase hdecode
  refine ⟨v, j, hdecode, ?_⟩
  cases hd : decodePacket Config.current (u.answers j) with
  | waiting =>
    rw [hd] at hres
    obtain ⟨hlisted, hwait, -, hp, -, -, hcount, -, hscan⟩ := hres
    have hbusy : v.phase ≠ .idle := by simp [hp]
    exact .inl ⟨by simp [hp], fun n => h.ended hin hI hcount hscan hd hbusy fun _ => ⟨hlisted, hwait⟩⟩
  | ioError rest | invalidLength rest =>
    rw [hd] at hres
    obtain ⟨hrest, herr, hp, -, -, hcount, -, hscan⟩ := hres
    exact .inl ⟨by simp [hp], fun n => h.ended hin hI hcount hscan hd ⟨hrest, herr⟩ nofun⟩
  | ok pts rest =>
    rw [hd] at hres
    obtain ⟨rfl, hlen, hnew, hold, hcount, hpkt, -, -, hp, hvalid⟩ := hres
    rw [h.count] at hnew hold hcount
    rw [h.pkt] at hpkt hp hvalid
    rw [← hpkt] at hp hvalid
    refine .inr ⟨pts, ⟨hI, hp, hvalid, ?_⟩, hpkt, fun n i t =>
      .packet (h.inputs.of_took_trans hin) hcount ?_ fun m => ?_⟩
    · exact hb.collected.append hlen hcount (fun i hi => (hold i (.inl hi)).trans (h.scan i)) hnew
    · exact fun i hi => (hold i (.inr hi)).trans (h.scan i)
    · rw [Nat.add_assoc, h.assembleFrom_eq, answers_add_of_inputs hin, decodePacket_append (by simp [hd]), hd]
      rfl

theorem assembleLoop_of_not_body {c : Config} (h : findsyncUnder c s = .next u) (hp : u.phase ≠ .body) :
    assembleLoop c (n + 1) s = .next u := by
  rw [assembleLoop_succ, h, andThen_of_next, if_neg hp]

theorem assembleLoop_of_body {c : Config} (h : findsyncUnder c s = .next u) (hp : u.phase = .body)
    (h' : decodepacketUnder c u = .next v) :
    assembleLoop c (n + 1) s = if v.phase = .hunt then assembleLoop c n v else .next v := by
  rw [assembleLoop_succ, h, andThen_of_next, if_pos hp, h', andThen_of_next]

/-- After a packet the loop goes on, also when nothing is left of it. -/
theorem BetweenPackets.loop_eq {c : Config} (h : BetweenPackets ps s) (hn : s.pkt.toNat + n = 38) :
    (if s.phase = .hunt then assembleLoop c n s else .next s) = assembleLoop c n s := by
  by_cases h38 : s.pkt.toNat = 38
  · obtain rfl : n = 0 := by omega
    exact ite_self _
  · exact if_pos (h.phase.trans (if_neg h38))

theorem assembleLoop_assembles (n : Nat) {ps : List Point} {s : State} (hb : BetweenPackets ps s)
    (hn : s.pkt.toNat + n = 38) : ∃ t k, assembleLoop Config.current n s = .next t ∧ Assembles n ps s k t := by
  induction n generalizing ps s with
  | zero => exact ⟨s, 0, rfl, hb.assembles hn⟩
  | succ n ih =>
    have hp : s.phase = .hunt := hb.phase.trans (if_neg (by omega))
    obtain ⟨u, k, hsync, hsrc, hlater, hpkt, hcount, -, -, hscan, hhost, hread, hctr, hres⟩ :=
      findsyncFollowsItsContract s hp
    have hin : SameEnv (s.took k) u := ⟨hsrc, hlater, hhost, hread, hctr⟩
    have hI := findsync_keeps_invariant hb.inv hp hsync
    cases hf : findSync (s.answers k) with
    | waiting =>
      rw [hf] at hres
      obtain ⟨hlisted, hwait, hpu, -⟩ := hres
      have hbusy : u.phase ≠ .idle := by simp [hpu]
      exact ⟨u, k, assembleLoop_of_not_body hsync (by simp [hpu]),
        .ended hin hI hcount hscan (assembleFrom_of_waiting hf) hbusy fun _ =>
          ⟨hlisted, fun m => assembleFrom_of_waiting (hwait m)⟩⟩
    | ioError rest =>
      rw [hf] at hres
      obtain ⟨hrest, hpu, -, herr⟩ := hres
      exact ⟨u, k, assembleLoop_of_not_body hsync (by simp [hpu]),
        .ended hin hI hcount hscan (assembleFrom_of_ioError hf) ⟨hrest, herr⟩ nofun⟩
    | ok rest =>
      rw [hf] at hres
      obtain ⟨rfl, hpu, h0, -⟩ := hres
      obtain ⟨v, j, hdecode, ⟨hend, hassembles⟩ | ⟨pts, hbv, hpktv, hgo⟩⟩ :=
        SyncFound.decodes ⟨hin, hI, hf, hpu, h0, hpkt, hcount, hscan⟩ hb
      · exact ⟨v, k + j, (assembleLoop_of_body hsync hpu hdecode).trans (if_neg hend), hassembles n⟩
      · obtain ⟨t, i, ht, hassembles⟩ := ih hbv (by omega)
        have hrest := (hbv.loop_eq (by omega)).trans ht
        exact ⟨t, k + j + i, (assembleLoop_of_body hsync hpu hdecode).trans hrest, hgo n i t hassembles⟩

end Loop

/-- Settles O32: the loop with 38 packets to go assembles from START on what `assembleScan` says of the answers it takes;
R37 gives the other elements of each result state. -/
theorem assemblescanFollowsItsContract : Obligations.AssemblescanFollowsItsContract := by
  unfold Obligations.AssemblescanFollowsItsContract
  intro s hI hp
  obtain ⟨t, k, ht, h⟩ := assembleLoop_assembles 38 (.begun hI) rfl
  obtain ⟨hsrc, hlater, hhost, hread, hctr⟩ := h.inputs
  have hresult : (assembleScan Config.current (s.answers k)).describes t := h.result
  refine ⟨t, k, (execAssemblescan_of_idle hp).trans ht, hsrc, hlater, hhost, hread, hctr, h.inv.count_eq, h.above, ?_⟩
  cases hr : assembleScan Config.current (s.answers k) with
  | ok scan rest =>
    rw [hr] at hresult
    obtain ⟨hrest, hvalid, hlen, hentry⟩ := hresult
    obtain ⟨hpt, herr, -, hcount⟩ := h.inv.valid hvalid
    have h456 : scan.length = 456 := by rw [hlen, hcount]; rfl
    exact ⟨hrest, hpt, hvalid, herr, hcount, h456, fun i hi => hentry i (h456 ▸ hi)⟩
  | ioError rest | invalidLength rest =>
    rw [hr] at hresult
    obtain ⟨hrest, herr⟩ := hresult
    obtain ⟨hpt, hvalid, -⟩ := h.inv.failed (by simp [herr])
    exact ⟨hrest, hpt, hvalid, herr⟩
  | waiting =>
    rw [hr] at hresult
    obtain ⟨herr, hvalid, -⟩ := h.inv.running hresult
    obtain ⟨hlisted, hall⟩ := h.forever hr
    exact ⟨hlisted, hall, hresult, hvalid, herr⟩

end Sys2Proof.Machine
end

section
/-! SUPPORT. The Scan Assembler's operations: COMMIT, START and READ (R211 to R218). -/

namespace Sys2Proof.Machine

/-! ### COMMIT (R213) -/

/-- A Point, by the offsets of its bytes in the body (R155 to R157). -/
theorem pointAt_eq (c : Config) (get : Nat → Byte) (i : Nat) :
    pointAt c get i =
      { angle := c.angle (le16 (get 3) (get 4)) (le16 (get 41) (get 42)) i
        distance := le16 (get (5 + 3 * i)) (get (6 + 3 * i))
        intensity := get (7 + 3 * i) } := by
  rw [show 6 + 3 * i = 5 + 3 * i + 1 by omega, show 7 + 3 * i = 5 + 3 * i + 2 by omega]
  rfl

/-- COMMIT answers in a state that meets R37, at the last byte of a body of length byte 44. -/
theorem execCommit_of_invariant {s : State} (hI : Invariant s) (hp : s.phase = .body) (hl : s.bidx = 45#6)
    (h44 : s.body.read 0 = 44#8) (b : Byte) :
    exec (.commit b) s = .next { s with
      toCoreState := countPacket { s.toCoreState with
        body := s.body.write 45 b
        scan := s.scan.writeFrom s.count.toNat (points Config.current (s.body.write 45 b).read) } } := by
  have hcount : s.count.toNat + 12 ≤ 456 := by
    have := hI.count_eq
    have := hI.pkt_le_of_busy (by simp [hp])
    omega
  exact execCommit_next.mpr ⟨atLastByte_iff.mpr ⟨hp, hl⟩, lenOk_iff.mpr h44, hcount, rfl⟩

/-- Settles O20: the twelve Points stand in SCAN from COUNT on, and `countPacket` has the other elements. -/
theorem commitAppendsTwelvePoints : Obligations.CommitAppendsTwelvePoints := by
  unfold Obligations.CommitAppendsTwelvePoints
  intro s b hI hp hl h44
  have hpkt := hI.pkt_le_of_busy (by simp [hp])
  have hcount := hI.count_eq
  have hcommit := execCommit_of_invariant hI hp hl h44 b
  have hlastPacket : s.pkt + 1#6 = 38#6 ↔ s.pkt.toNat + 1 = 38 := (lastPacket_iff hpkt).trans (by omega)
  refine ⟨_, hcommit, ?_, fun k hk => ?_, fun i hi => (read_scan_of_commit hI hcommit hi).trans (pointAt_eq _ _ i),
    fun k hk => ?_, ?_, ?_, countPacket_bidx _, fun h38 => ?_, fun h38 => ?_, countPacket_err _,
    rfl, rfl, rfl, rfl, rfl⟩
  · rw [countPacket_body]
    exact Memory.read_write_same hI.body_wf 45 b
  · rw [countPacket_body]
    exact Memory.read_write_ne _ hk b
  · rw [countPacket_scan]
    rcases hk with hk | hk
    · exact ScanMem.read_writeFrom_below _ _ hk
    · exact ScanMem.read_writeFrom_above _ _ (by simpa using hk)
  · rw [countPacket_count]
    bv_omega
  · rw [countPacket_pkt]
    exact pkt_succ_toNat hpkt
  · have h38 := hlastPacket.mpr h38
    rw [countPacket_phase, countPacket_scanValid, if_pos h38, if_pos h38]
    exact ⟨rfl, rfl⟩
  · have h38 := mt hlastPacket.mp h38
    rw [countPacket_phase, countPacket_scanValid, if_neg h38, if_neg h38]
    exact ⟨rfl, rfl⟩

/-! ### START (R211, R212, R243) -/

/-- Settles O23: START's next state is `beginAssembly` of the core. -/
theorem startBeginsFreshAssembly : Obligations.StartBeginsFreshAssembly := by
  unfold Obligations.StartBeginsFreshAssembly
  exact fun s hp => ⟨s.begun, execStart_next.mpr (if_pos hp).symm, rfl, rfl, rfl, rfl, rfl, rfl, fun _ => rfl,
    fun _ => rfl, rfl, rfl, rfl, rfl, rfl⟩

/-- A step of a busy core runs on the host's next input as on any other that is neither reset nor READ. -/
theorem step_of_busy {s : State} {inp : HostInput} {later : List HostInput} (hp : s.phase ≠ .idle)
    (hr : inp.reset = false) (hq : ∀ idx, inp.req ≠ .read idx) :
    step { s with host := inp :: later } =
      exec (s.selects s.answerNow) { s.took 1 with host := later } := by
  have hstep : CoreStep Config.current ({ s with host := inp :: later } : State).inputsNow s.toCoreState
    (s.selects s.answerNow) _ := .answer hr hq hp rfl
  have hasks : ({ s with host := inp :: later } : State).asks = true := asks_iff_host.mpr ⟨hr, hq, hp⟩
  rw [step_of_decode hstep.decode_eq, consume, hasks]
  rfl

/-- Settles O24: a busy core takes the source's answer alike with and without a START. -/
theorem startWhileBusyIsIgnored : Obligations.StartWhileBusyIsIgnored := by
  unfold Obligations.StartWhileBusyIsIgnored
  exact fun s later hp => ⟨execStart_next.mpr (if_neg hp).symm,
    (step_of_busy hp rfl (by simp)).trans (step_of_busy hp rfl (by simp)).symm⟩

/-! ### READ (R217, R218) -/

section Read

variable {s : State} {idx : BitVec 9}

theorem execRead_of_readable (hv : s.scanValid = true) (hidx : idx.toNat ≤ 455) :
    exec (.read idx) s = .next { s with readAnswer := some (s.scan.read idx.toNat) } :=
  execRead_next.mpr (if_pos ⟨hv, Nat.lt_succ_of_le hidx⟩).symm

theorem execRead_of_not_readable (h : s.scanValid = false ∨ 456 ≤ idx.toNat) :
    exec (.read idx) s = .next { s.drew 1 with readAnswer := some (Config.freePoint s.freeCtr) } := by
  refine execRead_next.mpr (if_neg ?_).symm
  rintro ⟨hv, hidx⟩
  rcases h with h | h
  · exact absurd (h.symm.trans hv) (by decide)
  · omega

end Read

/-- Settles O25: READ's next state differs in the read port, and outside READ's condition in the draw counter. -/
theorem readReturnsTheStoredPoint : Obligations.ReadReturnsTheStoredPoint := by
  unfold Obligations.ReadReturnsTheStoredPoint
  intro s idx
  have hsame : SameCore s s := by simp [SameCore]
  by_cases h : s.scanValid = true ∧ idx.toNat ≤ 455
  · obtain ⟨hv, hidx⟩ := h
    exact ⟨_, _, execRead_of_readable hv hidx, hsame, rfl, rfl, rfl, rfl, fun _ => ⟨rfl, rfl⟩⟩
  · have hout : s.scanValid = false ∨ 456 ≤ idx.toNat := by
      rw [not_and_or, Bool.not_eq_true] at h
      exact h.imp_right (by omega)
    exact ⟨_, _, execRead_of_not_readable hout, hsame, rfl, rfl, rfl, rfl, fun hin => absurd hin h⟩

/-- Settles O26: outside READ's condition the read port gives the next free values. -/
theorem readOutsideItsConditionGivesAFreeValue : Obligations.ReadOutsideItsConditionGivesAFreeValue := by
  unfold Obligations.ReadOutsideItsConditionGivesAFreeValue
  exact fun s idx h => ⟨_, execRead_of_not_readable h, rfl, rfl, by simp [SameCore], rfl, rfl, rfl⟩

theorem running_eq_some_iff {s : State} {i : Instr} : running s = some i ↔ decode (fetchWord s) = .ok i := by
  unfold running
  cases decode (fetchWord s) <;> simp

/-- Settles O41: in IDLE no step is a COMMIT, so of the operations that write SCAN or SCAN_VALID only START and RESET
remain. -/
theorem snapshotHoldsUntilTheNextStart : Obligations.SnapshotHoldsUntilTheNextStart := by
  unfold Obligations.SnapshotHoldsUntilTheNextStart
  intro s t hI hv h hstart hreset
  obtain ⟨hp, -⟩ := hI.valid hv
  obtain ⟨i, hrun, hstep⟩ := coreStep_of_step h
  have hcore : t.toCoreState = s.toCoreState := by
    generalize t.toCoreState = b at hstep
    cases hstep with
    | reset => exact absurd hrun hreset
    | start => exact absurd hrun hstart
    | read => rfl
    | wait => rfl
    | answer hr hq hbusy => exact absurd hp hbusy
  refine ⟨congrArg CoreState.scan hcore, (congrArg CoreState.scanValid hcore).trans hv, fun idx hread hidx => ?_⟩
  have hexec := (step_of_decode (running_eq_some_iff.mp hread)).symm.trans h
  rw [execRead_of_readable (s := consume s) hv hidx] at hexec
  cases hexec
  rfl

end Sys2Proof.Machine
end

section
/-! SUPPORT. Units fed to an assembly one after another, and what becomes of it after 38 and after 37 of them (R221). -/

namespace Sys2Proof

/-- The Points of a unit, from its fields (R157). -/
def PacketFields.points (c : Config) (p : PacketFields) : List Point :=
  p.samples.mapIdx fun i x => { angle := c.angle p.a0 p.a1 i, distance := x.distance, intensity := x.intensity }

theorem PacketFields.points_getElem? (c : Config) (p : PacketFields) (i : Nat) :
    (p.points c)[i]? = (p.samples[i]?).map fun x =>
      { angle := c.angle p.a0 p.a1 i, distance := x.distance, intensity := x.intensity } :=
  List.getElem?_mapIdx

theorem PacketFields.points_length {c : Config} {p : PacketFields} (hp : p.wellFormed = true) :
    (p.points c).length = 12 :=
  List.length_mapIdx.trans (wellFormed_iff.mp hp)

/-- Point `i` of unit `p` stands at 12p + i among the Points of the units. -/
theorem getElem?_flatMap_points (c : Config) {us : List PacketFields} (hwf : ∀ u ∈ us, u.wellFormed = true) (p : Nat)
    {i : Nat} (hi : i < 12) :
    (us.flatMap (PacketFields.points c))[12 * p + i]? = (us[p]?).bind fun u => (u.points c)[i]? := by
  induction us generalizing p with
  | nil => rfl
  | cons u us ih =>
    obtain ⟨hu, hus⟩ := List.forall_mem_cons.mp hwf
    have hlen : (u.points c).length = 12 := PacketFields.points_length hu
    rw [List.flatMap_cons]
    cases p with
    | zero => rw [Nat.mul_zero, Nat.zero_add, List.getElem?_append_left (by omega)]; rfl
    | succ p =>
      rw [List.getElem?_append_right (by omega), hlen, show 12 * (p + 1) + i - 12 = 12 * p + i by omega]
      exact ih hus p

end Sys2Proof

namespace Sys2Proof.Machine

theorem Invariant.after_run {n : Nat} {s t : State} (hI : Invariant s) (h : core.run n s = .next t) : Invariant t := by
  induction n generalizing s with
  | zero => cases h; exact hI
  | succ n ih =>
    obtain ⟨u, hu, hrun⟩ := run_succ_next.mp h
    exact ih (hI.after_step hu) hrun

section Units

variable {s : State} {ps : List Point} {rest : List SrcAnswer}

/-- A unit is one packet of the assembly, in as many steps as it has bytes. -/
theorem BetweenPackets.run_unit {p : PacketFields} (h : BetweenPackets ps s) (hpkt : s.pkt.toNat ≠ 38) (hh : s.host = [])
    (hp : p.wellFormed = true) (hsrc : s.src = p.bytes.map .byte ++ rest) :
    ∃ t : State, core.run 47 s = .next t ∧ BetweenPackets (ps ++ p.points Config.current) t ∧
      t.pkt.toNat = s.pkt.toNat + 1 ∧ t.src = rest ∧ t.host = [] := by
  have hI : Invariant { s with src := rest } := h.inv.with_inputs _ _ _
  have hphase : s.phase = .hunt := h.phase.trans (if_neg hpkt)
  obtain ⟨t, ht, hnew, hold, -, hcount, hpktt, -, -, hlast, hnext, hrest, -, hhost, -⟩ :=
    packetInHuntGivesThePointsOfItsFields { s with src := rest } p hI hphase hp
  obtain ⟨t', n, ht', hlen, hrun⟩ := deliver_realised p.bytes hI hh
  obtain rfl : t = t' := Host.Outcome.next.inj (ht.symm.trans ht')
  have hbytes : p.bytes.length = 47 := congrArg (· + 1) (p.bodyWith_length _ hp)
  obtain rfl : n = 47 := by
    rw [hrest, hbytes] at hlen
    omega
  have hfed : ({ s with src := rest } : State).fed p.bytes = s := by rw [State.fed, ← hsrc]
  rw [hfed] at hrun
  refine ⟨t, hrun, ⟨h.inv.after_run hrun, ?_, ?_, ?_⟩, hpktt, hrest, hhost.trans hh⟩
  · by_cases h38 : s.pkt.toNat + 1 = 38
    · rw [hpktt, if_pos h38, (hlast h38).1]
    · rw [hpktt, if_neg h38, (hnext h38).1]
  · by_cases h38 : s.pkt.toNat + 1 = 38
    · rw [hpktt, (hlast h38).2, decide_eq_true h38]
    · rw [hpktt, (hnext h38).2, decide_eq_false h38]
  · refine h.collected.append (PacketFields.points_length hp) hcount (fun k hk => hold k (.inl hk)) fun i hi => ?_
    rw [PacketFields.points_getElem?]
    exact hnew i hi

theorem BetweenPackets.run_units {us : List PacketFields} (h : BetweenPackets ps s) (hn : s.pkt.toNat + us.length ≤ 38)
    (hh : s.host = []) (hwf : ∀ u ∈ us, u.wellFormed = true)
    (hsrc : s.src = (us.flatMap PacketFields.bytes).map .byte ++ rest) :
    ∃ t : State, core.run (us.length * 47) s = .next t ∧
      BetweenPackets (ps ++ us.flatMap (PacketFields.points Config.current)) t ∧
      t.pkt.toNat = s.pkt.toNat + us.length ∧ t.src = rest ∧ t.host = [] := by
  induction us generalizing s ps with
  | nil => exact ⟨s, rfl, by simpa using h, rfl, hsrc, hh⟩
  | cons u us ih =>
    rw [List.length_cons] at hn ⊢
    obtain ⟨hu, hus⟩ := List.forall_mem_cons.mp hwf
    rw [List.flatMap_cons, List.map_append, List.append_assoc] at hsrc
    obtain ⟨v, hrun, hv, hpkt, hsrcv, hhost⟩ := h.run_unit (by omega) hh hu hsrc
    obtain ⟨t, hrun', ht, hpkt', hsrc', hhost'⟩ := ih hv (by omega) hhost hus hsrcv
    refine ⟨t, ?_, ?_, by omega, hsrc', hhost'⟩
    · rw [Nat.succ_mul, Nat.add_comm, run_of_run hrun]
      exact hrun'
    · rwa [List.flatMap_cons, ← List.append_assoc]

end Units

/-- Settles O51: each unit is one packet; the 38th completes the assembly, and a `Fail` after the 37th aborts it. -/
theorem thirtyEightUnitsYieldAScan : Obligations.ThirtyEightUnitsYieldAScan := by
  unfold Obligations.ThirtyEightUnitsYieldAScan
  intro s us rest hI hp hh hwf
  have hbegun : BetweenPackets [] ({ s with host := [] } : State).begun := .begun (hI.with_inputs _ _ _)
  have hfirst (m : Nat) : core.run (1 + m) s = core.run m ({ s with host := [] } : State).begun := by
    rw [Nat.add_comm]
    exact run_of_step (M := core) (step_of_start hp hh) m
  refine ⟨fun hlen hsrc => ?_, fun hlen hsrc => ?_⟩
  · obtain ⟨t, hrun, ht, hpkt, hrest, -⟩ := hbegun.run_units (by simp [hlen]) rfl hwf hsrc
    rw [hlen] at hrun
    have h38 : t.pkt.toNat = 38 := by simpa [hlen] using hpkt
    have hvalid : t.scanValid = true := by simp [ht.scanValid, h38]
    obtain ⟨hphase, herr, -, hcount⟩ := ht.inv.valid hvalid
    refine ⟨t, (hfirst _).trans hrun, hphase, hvalid, herr, hcount, hrest, fun p i hpi hi => ?_⟩
    rw [ht.collected.entry _ (by rw [ht.collected.length, hcount]; simp; omega), List.nil_append,
      getElem?_flatMap_points _ hwf p hi]
    simp only [PacketFields.points_getElem?, current_angle]
  · obtain ⟨t, hrun, ht, hpkt, hrest, hhost⟩ := hbegun.run_units (by simp [hlen]) rfl hwf hsrc
    rw [hlen] at hrun
    have h37 : t.pkt.toNat = 37 := by simpa [hlen] using hpkt
    have hbusy : t.phase ≠ .idle := by simp [ht.phase, h37]
    have hcount : t.count = 444#9 := BitVec.eq_of_toNat_eq (by rw [ht.inv.count_eq, h37]; rfl)
    have habort : AnswerStep Config.current t.answerNow t.toCoreState (raise .ioError t.toCoreState) := by
      rw [State.answerNow, hrest]
      exact .abort
    have hstep := realises_answer (P := Busy) hhost hbusy habort hbusy
    obtain ⟨-, hvalid, -⟩ := ht.inv.running hbusy
    refine ⟨t.answered (raise .ioError t.toCoreState), ?_, rfl, hvalid, rfl, hcount, ?_⟩
    · rw [Nat.add_assoc, hfirst, run_of_run hrun]
      exact hstep.runs
    · change t.src.drop 1 = rest
      rw [hrest]
      rfl

end Sys2Proof.Machine
end

section
/-! SUPPORT. How the core leaves IDLE, and how a running assembly ends (R246, R257). -/

namespace Sys2Proof.Machine

/-- The ways in which an assembly of the core `a` ends in the core `b`, each with its operation (R222, R257). -/
inductive AssemblyEnd (a b : CoreState) : Instr → Prop where
  | completed {y : Byte} (hpkt : a.pkt = 37#6) (hvalid : b.scanValid = true) : AssemblyEnd a b (.commit y)
  | aborted (herr : b.err = .ioError) (hpkt : b.pkt = a.pkt) : AssemblyEnd a b .abort
  | rejected {y : Byte} (herr : b.err = .invalidLength) (hpkt : b.pkt = a.pkt) : AssemblyEnd a b (.reject y)
  | reset (hvalid : b.scanValid = false) (herr : b.err = .noError) : AssemblyEnd a b .reset

section Step

variable {c : Config} {inp : Inputs} {x : SrcAnswer} {a b : CoreState} {i : Instr}

theorem CoreStep.start_of_leaves_idle (h : CoreStep c inp a i (.next b)) (hp : a.phase = .idle) (hb : b.phase ≠ .idle) :
    i = .start := by
  cases h with
  | reset => exact absurd rfl hb
  | read => exact absurd hp hb
  | start => rfl
  | wait => exact absurd hp hb
  | answer hr hq hbusy => exact absurd hp hbusy

/-- Of the answers a busy core takes, those that bring it to IDLE are the last byte of the 38th packet, a `Fail`, and
the last byte of a body whose length byte is wrong. -/
theorem AnswerStep.assemblyEnd (h : AnswerStep c x a b) (hp : a.phase ≠ .idle) (hb : b.phase = .idle) :
    AssemblyEnd a b (a.selects x) := by
  cases h with
  | wait => exact absurd hb hp
  | abort => exact .aborted rfl rfl
  | sync => cases hb
  | discard => exact absurd hb hp
  | load => exact absurd hb hp
  | commit hph hl hlen =>
    have h38 : a.pkt + 1#6 = 38#6 := by simpa using hb
    rw [selects_commit hph hl hlen]
    exact .completed (by bv_omega) (by simp [h38])
  | reject hph hl hlen =>
    rw [selects_reject hph hl hlen]
    exact .rejected rfl rfl

theorem CoreStep.assemblyEnd (h : CoreStep c inp a i (.next b)) (hp : a.phase ≠ .idle) (hb : b.phase = .idle) :
    AssemblyEnd a b i := by
  cases h with
  | reset => exact .reset rfl rfl
  | read => exact absurd hb hp
  | start hr hq hidle => exact absurd hidle hp
  | wait hr hq hidle => exact absurd hidle hp
  | answer hr hq hbusy h => exact ((takeAnswer_next hbusy).mp h).assemblyEnd hp hb

end Step

/-- Settles O42: of the five forms of a step, three keep IDLE or come to it, and the taking of an answer needs a busy
core. -/
theorem onlyStartLeavesIdle : Obligations.OnlyStartLeavesIdle := by
  unfold Obligations.OnlyStartLeavesIdle
  intro s t hp h ht
  obtain ⟨i, hrun, hstep⟩ := coreStep_of_step h
  rw [hrun, hstep.start_of_leaves_idle hp ht]

/-- Settles O43: a step from busy to IDLE is one of the four of `AssemblyEnd`; R37 (b) gives COUNT at the end of a
complete assembly, R37 (d) the bound on PKT at the end of a failed one. -/
theorem assemblyEndsInOneOfFourWays : Obligations.AssemblyEndsInOneOfFourWays := by
  unfold Obligations.AssemblyEndsInOneOfFourWays
  intro s t hI hbusy h hidle
  obtain ⟨i, hrun, hstep⟩ := coreStep_of_step h
  have hp : s.phase ≠ .idle := busy_iff.mp hbusy
  have ht : t.phase = .idle := by simpa [busy_eq] using hidle
  have hle : s.pkt.toNat ≤ 37 := hI.pkt_le_of_busy hp
  rw [hrun, done_eq, failed_eq]
  cases hstep.assemblyEnd hp ht with
  | completed hpkt hvalid =>
    obtain ⟨-, -, -, hcount⟩ := (hI.after_step h).valid hvalid
    exact .inl ⟨_, rfl, hpkt, decide_eq_true ⟨ht, hvalid⟩, hcount⟩
  | aborted herr hpkt => exact .inr (.inl ⟨rfl, herr, by simp [ht, herr], hpkt, hpkt ▸ hle⟩)
  | rejected herr hpkt => exact .inr (.inr (.inl ⟨_, rfl, herr, by simp [ht, herr], hpkt, hpkt ▸ hle⟩))
  | reset hvalid herr => exact .inr (.inr (.inr ⟨rfl, by simp [hvalid], by simp [herr]⟩))

end Sys2Proof.Machine
end

section
/-! SUPPORT. RESET: its operation, and the step in which the reset input is asserted (R270, R271). -/

namespace Sys2Proof.Machine

/-! ### The status outputs after reset (R271) -/

@[simp] theorem resetCore_busy (n : Nat) : (resetCore n).busy = false := rfl
@[simp] theorem resetCore_done (n : Nat) : (resetCore n).done = false := rfl
@[simp] theorem resetCore_failed (n : Nat) : (resetCore n).failed = false := rfl

/-- Settles O27: RESET's next state is `resetCore` beside the environment it met. -/
theorem resetPutsEveryControlElementAtItsResetValue : Obligations.ResetPutsEveryControlElementAtItsResetValue := by
  unfold Obligations.ResetPutsEveryControlElementAtItsResetValue
  exact fun s => ⟨_, execReset_next.mpr rfl, resetCore_phase _, resetCore_bidx _, resetCore_pkt _, resetCore_count _,
    resetCore_err _, resetCore_scanValid _, drew_src s resetDraws, drew_srcLater s resetDraws, drew_host s resetDraws,
    resetCore_busy _, resetCore_done _, resetCore_failed _⟩

/-! ### The step with reset asserted -/

section Asserted

variable {s : State} (hr : s.hostNow.reset = true)
include hr

theorem decode_fetchWord_of_reset : decode (fetchWord s) = .ok .reset := by
  rw [fetchWord, wordOn_of_reset hr]; rfl

theorem asks_of_reset : s.asks = false := by
  simp [← Bool.not_eq_true, asks_iff_host, hr]

/-- The answer that stands next is left to a later step (log 16). -/
theorem consume_of_reset : consume s = { s with host := s.host.tail } := by
  rw [consume, asks_of_reset hr, Bool.toNat_false, took_zero]

end Asserted

/-- Settles O29: the word of the step is RESET's whatever the request and the phase, and `consume` takes the host's side
alone. -/
theorem assertedResetOverridesItsStep : Obligations.AssertedResetOverridesItsStep := by
  unfold Obligations.AssertedResetOverridesItsStep
  intro s hr
  rw [step_of_decode (decode_fetchWord_of_reset hr), consume_of_reset hr]

end Sys2Proof.Machine
end
